-- ==== Sys2Proof/Word.lean ====
section
/-! DEFINITION. The bit-vector types of the block: the command word, the byte of a bus write, a nibble, a bus address, and the millisecond count of WAIT. -/

namespace Sys2Proof

/-- A command word: `CW_W` = 16 bits (spec/30_encoding.md R50). -/
abbrev Word := BitVec 16

/-- One byte: the payload of a SEND and the byte of a bus write (R32). -/
abbrev Byte := BitVec 8

/-- A 4-bit half of a byte (spec/00_scope.md, glossary). -/
abbrev Nibble := BitVec 4

/-- An address on the 7-bit-addressed two-wire bus (R30). -/
abbrev BusAddr := BitVec 7

/-- The millisecond count of WAIT: `WAIT_W` = 12 bits (R51, format W). -/
abbrev WaitCount := BitVec 12

end Sys2Proof
end

