-- ==== Sys2Proof/Machine/Types.lean ====
section
/-! DEFINITION. The vocabulary of the state: the names the spec gives to positions, kinds, flags, replies and events. -/

namespace Sys2Proof.Machine

/-- `PHASE`, the sequencer position: which primitive call of the operation in progress is next (spec/10_state.md R13). -/
inductive Phase where
  /-- `IDLE`: no operation in progress, the only value in which the block accepts one. -/
  | idle
  /-- `H_WE`, `H_TE`, `H_WC`, `H_TS`: the four steps of the first nibble. -/
  | hWE | hTE | hWC | hTS
  /-- `L_WE`, `L_TE`, `L_WC`, `L_TS`: the four steps of the low nibble of a SEND. -/
  | lWE | lTE | lWC | lTS
  /-- `WT`: the single delay of a WAIT. -/
  | wt
  deriving DecidableEq, Repr

/-- `OPK`: the kind of the operation in progress (R14). -/
inductive OpKind where
  | send | nib | wait
  deriving DecidableEq, Repr, Inhabited

/-- `MODE`: which register of the controller a byte is framed for. `MODE` = 0 is `command`, 1 is `data`
(spec/00_scope.md, glossary; 92_eei_decisions.md D4). -/
inductive Mode where
  | command | data
  deriving DecidableEq, Repr, Inhabited

/-- The four operand latches (R14). -/
structure Latches where
  opk  : OpKind
  byte : Byte
  mode : Mode
  wcnt : WaitCount
  deriving DecidableEq, Repr, Inhabited

/-- `E`, the error value of the bus-write primitive: a token the block copies and never inspects (R72, D14; log entry 5). -/
abbrev ErrorValue := Nat

/-- An answer, `ok` or `err(e)`: of the bus-write primitive to one call (R70), and of the block to one operation (R94). -/
inductive Reply where
  | ok
  | err (e : ErrorValue)
  deriving DecidableEq, Repr, Inhabited

/-- An event: one call of a primitive (spec/00_scope.md R5). -/
inductive Event where
  /-- `W(a, v, r)`: a bus write of byte `v` to address `a`, answered `r`. -/
  | write (a : BusAddr) (v : Byte) (r : Reply)
  /-- `D(n)`: a delay of `n` milliseconds. -/
  | delay (n : Nat)
  deriving DecidableEq, Repr

/-- The interface width the controller is in (R21: "the controller may be in an unknown mode"). -/
inductive InterfaceWidth where
  | eightBit | fourBit
  deriving DecidableEq, Repr, Inhabited

/-- Which half of a byte the controller takes the next nibble for (R21). -/
inductive NibbleHalf where
  | first | second
  deriving DecidableEq, Repr, Inhabited

/-- The pairing shifted by one nibble (spec/20_memory.md R37). -/
def NibbleHalf.other : NibbleHalf → NibbleHalf
  | .first => .second
  | .second => .first

/-- The interface state of the controller behind `P`: the two facts R21 names. Nothing in the block reads it. -/
structure Controller where
  width    : InterfaceWidth
  nextHalf : NibbleHalf
  deriving DecidableEq, Repr, Inhabited

/-- `DC`, the display-control accumulator: three flags (R17). -/
structure DisplayControl where
  display : Bool
  cursor  : Bool
  blink   : Bool
  deriving DecidableEq, Repr

/-- `EM`, the entry-mode accumulator: two flags (R18). -/
structure EntryMode where
  leftToRight : Bool
  autoShift   : Bool
  deriving DecidableEq, Repr

/-- `ROWS`: the configured row count, a value in 1..4 (R19). -/
inductive RowCount where
  | one | two | three | four
  deriving DecidableEq, Repr

/-- `CELL`: the glyph cell size (R19). -/
inductive CellSize where
  | dots5x8 | dots5x10
  deriving DecidableEq, Repr

/-- The lifecycle of the Handle (spec/60_exceptions.md R158). `gone` is the model's name for "no handle": after a failed
`enable` (R113) and after the handle was dropped (R140; log entry 18). -/
inductive Lifecycle where
  | uninitialized | initialized | gone
  deriving DecidableEq, Repr

/-- The operations of the host driver (spec/30_encoding.md R59). -/
inductive HostOp where
  /-- The initialization sequence (R112). -/
  | enable
  /-- Backlight operations (R118). -/
  | backlightOn | backlightOff
  /-- Display-control operations (R119). -/
  | renderingOn | renderingOff | cursorOn | cursorOff | cursorBlinkOn | cursorBlinkOff
  /-- Entry-mode operations (R120). -/
  | leftToRight | rightToLeft
  /-- Two of the above each (R121). -/
  | sleep | wakeup
  /-- Cursor position, rows and columns from 0 (R125). -/
  | moveCursorTo (row col : Nat)
  /-- Clear-display, then the cursor to (0,0) (R126). -/
  | clear
  /-- Display shift and return-home (R127). -/
  | scrollLeft | scrollRight | scrollReset
  /-- Content (R130). A string is given as the bytes of its stored form (D23; log entry 20). -/
  | writeU8 (b : Byte) | writeBytes (bs : List Byte) | writeStr (stored : List Byte)
  /-- A custom glyph (R135). -/
  | registerCustomChar (slot : Nat) (rows : List Byte)
  deriving DecidableEq, Repr

/-- What a builder is given at construction: "all optional with defaults" (R11, R19). -/
structure Configuration where
  addr : Option Nat
  rows : Option Nat
  cell : Option CellSize
  deriving DecidableEq, Repr

/-- What the application asks of the host driver, one call at a time (R140). -/
inductive HostCall where
  /-- Construct and configure a Handle: the reset of the block (spec/70_reset_and_hazards.md R170). -/
  | construct (c : Configuration)
  /-- One operation of the driver. -/
  | op (o : HostOp)
  /-- A host program in the sense of R58: command words issued in order. -/
  | commandWords (ws : List Word)
  /-- Drop the Handle: no primitive call (R140). -/
  | drop
  deriving DecidableEq, Repr

/-- One thing the call in progress still has to do. -/
inductive HostTask where
  /-- Offer one command word to the block (R47, R80). -/
  | issue (w : Word)
  /-- Carry out an operation of the driver as part of this call. -/
  | call (o : HostOp)
  /-- Step 5 of `enable`: the handle becomes initialized (R112). -/
  | markInitialized
  deriving DecidableEq, Repr

/-- What a host call returned: `ok`, with the slot index where the operation returns one (R135), or the transport error
unchanged (R141). -/
inductive HostResult where
  | ok (slot : Option Nat)
  | err (e : ErrorValue)
  deriving DecidableEq, Repr

end Sys2Proof.Machine
end

