-- ==== Sys2Proof/Config.lean ====
section
/-! DEFINITION. The parameters of spec/00_scope.md section 5 as types, and the uninterpreted constants: every value the spec leaves open is one of these, with no body, so that nothing can be proved about which value it is. -/

namespace Sys2Proof

/-- The layout of the output byte: which of the expander's eight lines carries which signal (R4, R52). -/
structure Layout where
  /-- `NIB_SHIFT`: the left shift that places a nibble. -/
  nibShift : Nat
  /-- `EN_MASK`: the fixed enable bit. -/
  enMask : Byte
  /-- `RS_MASK`: the mode bit. -/
  rsMask : Byte
  /-- `BL_MASK`: the backlight bit. -/
  blMask : Byte
  /-- `RW_MASK`: the eighth line, always driven 0. -/
  rwMask : Byte
  deriving DecidableEq, Repr

/-- `INIT_GAP_MS` (spec/42_host_driver.md R114): the gaps after steps 1 to 5 of the initialization's traffic, each either
empty or the count of a WAIT. -/
structure InitGaps where
  gap1 : Option WaitCount
  gap2 : Option WaitCount
  gap3 : Option WaitCount
  gap4 : Option WaitCount
  gap5 : Option WaitCount
  deriving DecidableEq, Repr, Inhabited

/-- `BL_REFRESH_PAYLOAD` (R118): the payload of the command-framed write after a backlight change, for the flag set and
for the flag clear. -/
structure BlRefresh where
  whenOn  : Byte
  whenOff : Byte
  deriving DecidableEq, Repr, Inhabited

/-- The parameters no step changes (spec/00_scope.md section 5). -/
structure Params where
  layout : Layout
  /-- `T_EN_MS`: the delay after the write that asserts enable. -/
  tEnMs : Nat
  /-- `T_SETTLE_MS`: the delay after the write that releases enable. -/
  tSettleMs : Nat
  /-- `T_POWERON_MS`: the wait before any bus traffic. -/
  tPowerOnMs : WaitCount
  initGaps : InitGaps
  blRefresh : BlRefresh
  deriving DecidableEq, Repr

namespace Config

/-- The answer of the bus-write primitive to the call with this number, where State.env does not hold it already: the
environment decides (R72; log entry 4). -/
opaque busReply : Nat → Machine.Reply

/-- FREE VALUE. `P` after a bus write answered `err(e)`: the call's number, `P` before it, the byte written (R20, D13;
log entry 6). -/
opaque pAfterFailure : Nat → Byte → Byte → Byte

/-- FREE VALUE. The controller's interface state after a bus write whose effect on it the spec leaves open: the call's
number, the state before, the byte written (R21, R185, R187; log entries 9 and 27). -/
opaque controllerAfter : Nat → Machine.Controller → Byte → Machine.Controller

/-- FREE VALUE. The interface width once the controller in 4-bit mode has taken the second half of a byte: the call's number
and the byte written. The spec never says what the controller does with a byte it received (R38; log entry 9). -/
opaque widthAfterByte : Nat → Byte → Machine.InterfaceWidth

/-- FREE VALUE. The operand latches once an operation has ended: the number of the operation, the latches it held
(R14, U13; log entry 10). -/
opaque latchesWhileIdle : Nat → Machine.Latches → Machine.Latches

/-- `P` before the first bus write after power-on: unspecified (R24, D26; log entry 7). -/
opaque pAtPowerOn : Byte

/-- FREE VALUE. `P` of an expander the block has not driven since the Handle before was constructed for another address:
the number of operations and constructions before, the address (R30, R170; log entry 28). -/
opaque pAtAddress : Nat → BusAddr → Byte

/-- FREE VALUE. The interface state of the controller behind such an expander (R30, R170; log entry 28). -/
opaque controllerAtAddress : Nat → BusAddr → Machine.Controller

/-- The controller's interface state at power-on: "unknown mode" (R24; log entry 9). -/
opaque controllerAtPowerOn : Machine.Controller

/-- The operand latches at reset: unspecified (R24, U13; log entry 8). -/
opaque latchesAtReset : Machine.Latches

/-- OPEN host parameter `INIT_GAP_MS` (R114, D18; log entry 17). -/
opaque initGaps : InitGaps

/-- OPEN host parameter `BL_REFRESH_PAYLOAD` (R118, D19; log entry 17). -/
opaque blRefresh : BlRefresh

end Config

end Sys2Proof
end

