-- ==== Sys2Proof/Machine/Codes.lean ====
section
/-! DEFINITION. The command codes and flag bits of the host driver (spec/42_host_driver.md R111). The values are the spec's, from general knowledge (D20, D21; log entry 16); each is a named constant so that it can be replaced. -/

namespace Sys2Proof.Machine.Codes

/-- `CMD_CLEAR`: clear-display. -/
def cmdClear : Byte := 0x01#8
/-- `CMD_HOME`: return-home. -/
def cmdHome : Byte := 0x02#8
/-- `CMD_ENTRY`: entry-mode set; OR with `EM`. -/
def cmdEntry : Byte := 0x04#8
/-- `EM_LTR`: the left-to-right flag of `EM`. -/
def emLeftToRight : Byte := 0x02#8
/-- `EM_SHIFT`: the auto-shift flag of `EM`. -/
def emShift : Byte := 0x01#8
/-- `CMD_DISPLAY`: display-control; OR with `DC`. -/
def cmdDisplay : Byte := 0x08#8
/-- `DC_DISPLAY`: the display-on flag of `DC`. -/
def dcDisplay : Byte := 0x04#8
/-- `DC_CURSOR`: the cursor-on flag of `DC`. -/
def dcCursor : Byte := 0x02#8
/-- `DC_BLINK`: the cursor-blink-on flag of `DC`. -/
def dcBlink : Byte := 0x01#8
/-- `CMD_SHIFT_LEFT`: display-shift, whole display, left. -/
def cmdShiftLeft : Byte := 0x18#8
/-- `CMD_SHIFT_RIGHT`: display-shift, whole display, right. -/
def cmdShiftRight : Byte := 0x1C#8
/-- `CMD_FUNCTION`: function-set, 4-bit interface. -/
def cmdFunction : Byte := 0x20#8
/-- `FN_2LINE`: the two-line addressing flag. -/
def fnTwoLine : Byte := 0x08#8
/-- `FN_5X10`: the 5x10 glyph cell flag. -/
def fn5x10 : Byte := 0x04#8
/-- `CMD_CGRAM`: set-CGRAM-address; OR with `slot << 3`. -/
def cmdCgram : Byte := 0x40#8
/-- `CMD_DDRAM`: set-DDRAM-address; OR with the address. -/
def cmdDdram : Byte := 0x80#8
/-- `NIB_RESET`: the "reset to 4-bit, function-set-pending" nibble. -/
def nibReset : Nibble := 0x3#4
/-- `NIB_4BIT`: the nibble that commits 4-bit interface mode. -/
def nib4Bit : Nibble := 0x2#4

/-- `offset_table`: the DDRAM base of rows 0 to 3 (spec/10_state.md R19). A row past the last takes the last base; a clamped
row (R125) never does. -/
def rowOffset : Nat → Nat
  | 0 => 0x00
  | 1 => 0x40
  | 2 => 0x14
  | _ => 0x54

end Sys2Proof.Machine.Codes
end

