-- ==== Sys2Proof/Machine/Operands.lean ====
section
/-! DEFINITION. Operand forms: the nibbles of a byte, the frame function, and the operands of the host's position operations (spec/30_encoding.md R53, R54; spec/42_host_driver.md R125, R135). -/

namespace Sys2Proof.Machine

/-- The high nibble `b[7:4]` (R36, R53). -/
def highNibble (b : Byte) : Nibble := b.extractLsb' 4 4

/-- The low nibble `b[3:0]` (R36, R53). -/
def lowNibble (b : Byte) : Nibble := b.extractLsb' 0 4

/-- `n ++ 0b0000`: a lone nibble in bits 7:4, so that the first-nibble steps send it (R14, R92). -/
def nibbleAsByte (n : Nibble) : Byte := n ++ 0#4

/-- The nibble in its field of the output byte: `zext_8(n) << NIB_SHIFT` (R53). -/
def placeNibble (L : Layout) (n : Nibble) : Byte := n.setWidth 8 <<< L.nibShift

/-- The nibble field of a byte that stands on the output lines (R38). -/
def nibbleOf (L : Layout) (v : Byte) : Nibble := (v >>> L.nibShift).setWidth 4

/-- The nibble field `0xF << NIB_SHIFT` (R4). -/
def nibbleField (L : Layout) : Byte := 0x0F#8 <<< L.nibShift

/-- The mode bit in its place (R54). -/
def modeBits (L : Layout) : Mode → Byte
  | .command => 0#8
  | .data => L.rsMask

/-- The backlight bit in its place (R54). -/
def backlightBits (L : Layout) (bl : Bool) : Byte := if bl then L.blMask else 0#8

/-- `frame(n, m, bl)`: the output byte with enable clear (R54). -/
def frame (L : Layout) (n : Nibble) (m : Mode) (bl : Bool) : Byte :=
  placeNibble L n ||| modeBits L m ||| backlightBits L bl

/-- The byte of the first write of a nibble: the same frame with the enable bit set (R54). -/
def withEnable (L : Layout) (f : Byte) : Byte := f ||| L.enMask

/-- The enable line of an output byte. -/
def enableSet (L : Layout) (v : Byte) : Bool := v &&& L.enMask != 0#8

/-- The mode line of an output byte. -/
def modeOf (L : Layout) (v : Byte) : Mode := if v &&& L.rsMask = 0#8 then .command else .data

/-- An enable-set write followed by the write of the same byte with enable clear (R38). -/
def deliversNibble (L : Layout) (v w : Byte) : Bool := enableSet L v && !enableSet L w && v ^^^ w = L.enMask

/-- The number `ROWS` stands for (R19). -/
def rowCountNat : RowCount → Nat
  | .one => 1
  | .two => 2
  | .three => 3
  | .four => 4

/-- The legal values of `ROWS`: 1 to 4, every other refused (R19, D30). -/
def rowCountOfNat : Nat → Option RowCount
  | 1 => some .one
  | 2 => some .two
  | 3 => some .three
  | 4 => some .four
  | _ => none

/-- The legal values of `ADDR`: every 7-bit value, an address above `0x7F` refused (R11, D30). -/
def busAddrOfNat (a : Nat) : Option BusAddr := if a < 128 then some (BitVec.ofNat 7 a) else none

/-- The row after the silent clamp to `ROWS - 1` (R125). -/
def clampRow (rows : RowCount) (row : Nat) : Nat := min row (rowCountNat rows - 1)

/-- `offset_table[r] + col` for the clamped row (R125). -/
def cursorAddress (rows : RowCount) (row col : Nat) : Nat := Codes.rowOffset (clampRow rows row) + col

/-- The command byte of `move_cursor_to`: the sum, OR'd with the set-DDRAM-address bit (R125). -/
def cursorByte (rows : RowCount) (row col : Nat) : Byte :=
  Codes.cmdDdram ||| BitVec.ofNat 8 (cursorAddress rows row col)

/-- The slot used for a request: the larger of the request and 7, as the source has it (R135, conflict C4). -/
def glyphSlot (slot : Nat) : Nat := max slot 7

/-- The command byte that sets the CGRAM address of a slot (R135). -/
def cgramByte (slot : Nat) : Byte := Codes.cmdCgram ||| (BitVec.ofNat 8 (glyphSlot slot) <<< 3)

/-- The function-set payload: line count and cell size (R115). -/
def functionSetByte (rows : RowCount) (cell : CellSize) : Byte :=
  Codes.cmdFunction |||
  (if rowCountNat rows > 1 then Codes.fnTwoLine else 0#8) |||
  (match cell with
   | .dots5x8 => 0#8
   | .dots5x10 => Codes.fn5x10)

end Sys2Proof.Machine
end

