-- ==== Sys2Proof/Machine/Gate.lean ====
section
/-! DEFINITION. What the host driver admits: the operand ranges of its operations and the lifecycle gate (spec/42_host_driver.md R125, R135; spec/60_exceptions.md R158). -/

namespace Sys2Proof.Machine

/-- The operand ranges of the driver's operations: a cursor address of at most `0x7F` (R125, D22), a slot of at most 7
(R135, D24). Every other operation takes any operand. -/
def operandsInRange (rows : RowCount) : HostOp → Bool
  | .moveCursorTo row col => cursorAddress rows row col ≤ 0x7F
  | .registerCustomChar slot _ => slot ≤ 7
  | .enable | .backlightOn | .backlightOff | .renderingOn | .renderingOff | .cursorOn | .cursorOff
  | .cursorBlinkOn | .cursorBlinkOff | .leftToRight | .rightToLeft | .sleep | .wakeup | .clear
  | .scrollLeft | .scrollRight | .scrollReset | .writeU8 _ | .writeBytes _ | .writeStr _ => true

/-- Which operations a lifecycle state admits (R158): `enable` on an uninitialized handle, every other on an initialized
one, none without a handle. -/
def gateAdmits : Lifecycle → HostOp → Bool
  | .uninitialized, .enable => true
  | .uninitialized, _ => false
  | .initialized, .enable => false
  | .initialized, _ => true
  | .gone, _ => false

end Sys2Proof.Machine
end

