-- ==== Sys2Proof/Syntax.lean ====
section
/-! DEFINITION. The operations of the block: one constructor per row of spec/opcode_table.json (spec/30_encoding.md R56). -/

namespace Sys2Proof

/-- An operation the host hands to the block. Every value of an operand is legal (spec/60_exceptions.md R151), so the
operand's type is the field of the command word (R61) and nothing outside it can be written down. -/
inductive Instr where
  /-- `SEND.C b`: send byte `b` with command-register framing (R88). -/
  | sendC (b : Byte)
  /-- `SEND.D b`: send byte `b` with data-register framing (R89). -/
  | sendD (b : Byte)
  /-- `NIB n`: one two-phase write of the nibble `n`, command framing (R92). -/
  | nib (n : Nibble)
  /-- `SETBL f`: set the backlight flag (R95). -/
  | setbl (f : Bool)
  /-- `WAIT d`: one delay of `d` milliseconds (R97). -/
  | wait (d : WaitCount)
  deriving DecidableEq, Repr

end Sys2Proof
end

