-- ==== Sys2Proof/WellFormed.lean ====
section
/-! DEFINITION. What is well formed: an operation, the layout of the output byte, a configuration, an operation of the driver, and a sequence of host calls. -/

namespace Sys2Proof

/-- Every operand value of every operation is legal (spec/60_exceptions.md R151: "there is no illegal-operand error"): the
operand's type is already the field of the command word. Ill-formed words are refused by the decoder (R57), ill-formed
lines by the assembler (R58). -/
def Instr.wellFormed : Instr → Bool
  | .sendC _ => true
  | .sendD _ => true
  | .nib _ => true
  | .setbl _ => true
  | .wait _ => true

/-- A single bit of the output byte. -/
abbrev SingleBit (m : Byte) : Prop := m ≠ 0#8 ∧ m &&& (m - 1#8) = 0#8

/-- The constraint on the layout (spec/00_scope.md R4): four single bits, pairwise different, none in the nibble field,
which is four adjacent bits of the byte. -/
abbrev Layout.Valid (L : Layout) : Prop :=
  L.nibShift ≤ 4 ∧
  SingleBit L.enMask ∧ SingleBit L.rsMask ∧ SingleBit L.blMask ∧ SingleBit L.rwMask ∧
  L.enMask ≠ L.rsMask ∧ L.enMask ≠ L.blMask ∧ L.enMask ≠ L.rwMask ∧
  L.rsMask ≠ L.blMask ∧ L.rsMask ≠ L.rwMask ∧ L.blMask ≠ L.rwMask ∧
  L.enMask &&& Machine.nibbleField L = 0#8 ∧ L.rsMask &&& Machine.nibbleField L = 0#8 ∧
  L.blMask &&& Machine.nibbleField L = 0#8 ∧ L.rwMask &&& Machine.nibbleField L = 0#8

/-- A configuration the builder accepts: an address of 7 bits and a row count of 1 to 4 where one is given (R11, R19,
D30). -/
def Machine.Configuration.wellFormed (c : Machine.Configuration) : Bool :=
  (match c.addr with
   | none => true
   | some a => (Machine.busAddrOfNat a).isSome) &&
  (match c.rows with
   | none => true
   | some r => (Machine.rowCountOfNat r).isSome)

/-- The operand ranges of the driver's operations (R125, R135, D22, D24). -/
def Machine.HostOp.wellFormed (rows : Machine.RowCount) (o : Machine.HostOp) : Bool := Machine.operandsInRange rows o

/-- Which operations a lifecycle state admits (spec/60_exceptions.md R158). -/
def Machine.Lifecycle.admits (l : Machine.Lifecycle) (o : Machine.HostOp) : Bool := Machine.gateAdmits l o

/-- A sequence of calls on the driver that the gate admits (R158), counting on every call before to have returned `ok`: the
form of the gate that can be checked before anything runs. A list of raw command words is no call on the driver. What
R159 says of the operations issued, whoever issues them, is `WellFormedHistory`. -/
def Machine.wellFormedCalls : Machine.Lifecycle → List Machine.HostCall → Bool
  | _, [] => true
  | _, .construct c :: rest => c.wellFormed && Machine.wellFormedCalls .uninitialized rest
  | l, .op .enable :: rest => l.admits .enable && Machine.wellFormedCalls .initialized rest
  | l, .op o :: rest => l.admits o && Machine.wellFormedCalls l rest
  | _, .commandWords _ :: _ => false
  | l, .drop :: rest => l != .gone && Machine.wellFormedCalls .gone rest

end Sys2Proof
end

