-- ==== Sys2Proof/Decode.lean ====
section
/-! DEFINITION. Decoding and encoding of the command word (spec/30_encoding.md sections 1 to 3 and 6). -/

namespace Sys2Proof

/-- Why a command word is reserved: the four cases of R57. -/
inductive Reserved where
  /-- `OP` is `0000` or one of `0101` to `1111`. -/
  | opcode
  /-- `OP = 0001` with any of bits 11:9 set. -/
  | formatB
  /-- `OP = 0010` with any of bits 11:4 set. -/
  | formatN
  /-- `OP = 0011` with any of bits 11:1 set. -/
  | formatF
  deriving DecidableEq, Repr

/-- What a command word is: an operation, or reserved (R62). -/
inductive Decoded where
  | instr (i : Instr)
  | reserved (why : Reserved)
  deriving DecidableEq, Repr

/-- A row of the opcode map (R56): a word `w` selects it when `w &&& mask = pattern`. -/
structure OpcodeRow where
  mnemonic : String
  pattern  : Word
  mask     : Word
  deriving DecidableEq, Repr

/-- The complete opcode map (R56). -/
def opcodeMap : List OpcodeRow :=
  [⟨"SEND.C", 0x1000#16, 0xFF00#16⟩, ⟨"SEND.D", 0x1100#16, 0xFF00#16⟩, ⟨"NIB", 0x2000#16, 0xFFF0#16⟩,
   ⟨"SETBL", 0x3000#16, 0xFFFE#16⟩, ⟨"WAIT", 0x4000#16, 0xF000#16⟩]

/-- `w` selects the row (R56). -/
def OpcodeRow.selects (r : OpcodeRow) (w : Word) : Bool := w &&& r.mask = r.pattern

/-- The major opcode, bits 15:12 (R50). -/
def opcodeField (w : Word) : BitVec 4 := w.extractLsb' 12 4

/-- Format B (R51): bits 11:9 zero, `m` = bit 8, `b` = bits 7:0. -/
def decodeB (w : Word) : Decoded :=
  if w.extractLsb' 9 3 = 0#3 then
    if w.extractLsb' 8 1 = 1#1 then .instr (.sendD (w.extractLsb' 0 8)) else .instr (.sendC (w.extractLsb' 0 8))
  else .reserved .formatB

/-- Format N (R51): bits 11:4 zero, `n` = bits 3:0. -/
def decodeN (w : Word) : Decoded :=
  if w.extractLsb' 4 8 = 0#8 then .instr (.nib (w.extractLsb' 0 4)) else .reserved .formatN

/-- Format F (R51): bits 11:1 zero, `f` = bit 0. -/
def decodeF (w : Word) : Decoded :=
  if w.extractLsb' 1 11 = 0#11 then .instr (.setbl (w.extractLsb' 0 1 = 1#1)) else .reserved .formatF

/-- Format W (R51): `d` = bits 11:0. -/
def decodeW (w : Word) : Decoded := .instr (.wait (w.extractLsb' 0 12))

/-- The decoder: total on 16-bit words, every reserved word refused by name (R56, R57, R62). -/
def decode (w : Word) : Decoded :=
  if opcodeField w = 1#4 then decodeB w
  else if opcodeField w = 2#4 then decodeN w
  else if opcodeField w = 3#4 then decodeF w
  else if opcodeField w = 4#4 then decodeW w
  else .reserved .opcode

/-- The encoder: the fixed bits of the operation's row (R56), and the operand in the low bits (R51). -/
def encode : Instr → Word
  | .sendC b => 0x1000#16 ||| b.setWidth 16
  | .sendD b => 0x1100#16 ||| b.setWidth 16
  | .nib n => 0x2000#16 ||| n.setWidth 16
  | .setbl f => 0x3000#16 ||| (BitVec.ofBool f).setWidth 16
  | .wait d => 0x4000#16 ||| d.setWidth 16

/-- The operation of a decoded word, where there is one. -/
def Decoded.toOption : Decoded → Option Instr
  | .instr i => some i
  | .reserved _ => none

/-- The operation the decoder reads from an instruction whose bits are `w`, numbered as spec/opcode_table.json numbers
them. A command word is one 16-bit unit (R50) handed over whole (R80), so there is no byte order to apply; bits above
`nbits` are 0. -/
def decodeTableWord (nbits w : Nat) : Option Instr :=
  if nbits ≤ 16 then (decode (BitVec.ofNat 16 (w % 2 ^ nbits))).toOption else none

/-- A constructor's row of the opcode map (R56). -/
def opcodeRowOf : Instr → OpcodeRow
  | .sendC _ => ⟨"SEND.C", 0x1000#16, 0xFF00#16⟩
  | .sendD _ => ⟨"SEND.D", 0x1100#16, 0xFF00#16⟩
  | .nib _ => ⟨"NIB", 0x2000#16, 0xFFF0#16⟩
  | .setbl _ => ⟨"SETBL", 0x3000#16, 0xFFFE#16⟩
  | .wait _ => ⟨"WAIT", 0x4000#16, 0xF000#16⟩

end Sys2Proof
end

