-- ==== Sys2Proof/Machine/Parameters.lean ====
section
/-! DEFINITION. The values of the parameter table (spec/00_scope.md section 5). -/

namespace Sys2Proof.Machine

/-- The layout of spec/30_encoding.md R52 (D4, from general knowledge; log entry 2). -/
def tableLayout : Layout where
  nibShift := 4
  enMask := 0x04#8
  rsMask := 0x01#8
  blMask := 0x08#8
  rwMask := 0x02#8

/-- `T_POWERON_MIN_MS`: the lower bound the source states for the power-on wait (R172). -/
def tPowerOnMinMs : Nat := 40

/-- The parameters of this hardware: the table's values (D5, D6; log entry 3), and the two OPEN ones uninterpreted
(D18, D19; log entry 17). -/
def tableParams : Params where
  layout := tableLayout
  tEnMs := 1
  tSettleMs := 5
  tPowerOnMs := 50#12
  initGaps := Config.initGaps
  blRefresh := Config.blRefresh

/-- `ADDR` when not configured (R11, R24). -/
def defaultAddr : BusAddr := 0x27#7

end Sys2Proof.Machine
end

