-- ==== Sys2Proof/Machine/State.lean ====
section
/-! DEFINITION. The state as plain data, the reasons a step can stop, and the state after reset (spec/10_state.md). -/

namespace Sys2Proof.Machine

/-- Why the machine stops with a fault. -/
inductive Fault where
  /-- Raised by `step` in the busy state `PHASE = H_TS` with `OPK = WAIT`, and by an operation offered while such a state is
  being run to its end: the transition table of R13 has no row for it and no operation produces it. Safe: the machine
  stops where the spec gives no transition (log entry 14). -/
  | noTransition
  deriving DecidableEq, Repr

/-- Why the machine gives an input no meaning. -/
inductive Refusal where
  /-- Raised by an arm of `exec` for an instruction with no meaning yet. Safe. -/
  | notModelled (mnemonic : String)
  /-- Raised when the host offers a reserved command word, or a list of command words that holds one (R57, R100). Safe. -/
  | reservedWord (why : Reserved)
  /-- Raised when a host call is one the lifecycle gate forbids: a build-time error in the source (R158). Safe. -/
  | lifecycleGate
  /-- Raised by `move_cursor_to` when the address exceeds `0x7F` (R125, D22). Safe. -/
  | cursorOutOfRange
  /-- Raised by `register_custom_char` when the slot exceeds 7 (R135, D24). Safe. -/
  | slotOutOfRange
  /-- Raised by construction with a row count outside 1..4 or an address above `0x7F` (R19, D30). Safe. -/
  | badConfiguration
  deriving DecidableEq, Repr

/-- Everything the spec gives the machine (spec/10_state.md section 1): the block, the host driver, what stands
downstream, the observation; then the parameters and the model's own fields. -/
structure State where
  /-- `ADDR`: the bus address of every write (R11). -/
  addr : BusAddr
  /-- `BL`: the backlight flag (R12). -/
  bl : Bool
  /-- `PHASE`: the sequencer position (R13). -/
  phase : Phase
  /-- `OPK`, `BYTE`, `MODE`, `WCNT` (R14). -/
  latches : Latches
  /-- `DC`: the display-control accumulator (R17). -/
  dc : DisplayControl
  /-- `EM`: the entry-mode accumulator (R18). -/
  em : EntryMode
  /-- `ROWS` (R19). -/
  rows : RowCount
  /-- `CELL` (R19). -/
  cell : CellSize
  /-- The lifecycle tag (R158). -/
  lifecycle : Lifecycle
  /-- `P`: the output register of the I/O expander (R20). -/
  p : Byte
  /-- The interface state of the LCD controller (R21). -/
  controller : Controller
  /-- The trace: every primitive call, in the order issued (R5, R22). -/
  trace : List Event
  /-- The answer of each operation the block carried out, in order (R94, R100). -/
  answers : List Reply
  /-- What each host call returned, in order (R141). -/
  results : List HostResult
  /-- What the host call in progress still has to do, next first (R141). -/
  program : List HostTask
  /-- The host call in progress. -/
  current : Option HostCall
  /-- The calls the application has yet to make, next first (R140). -/
  calls : List HostCall
  /-- The parameters no step changes (spec/00_scope.md section 5). -/
  params : Params
  /-- MODEL'S OWN. The replies of the bus-write primitive already decided by the environment, next first (R72; log entry 4). -/
  env : List Reply
  /-- MODEL'S OWN. How many bus writes have been called: an index of free values (log entries 4, 6, 9, 27). -/
  busCalls : Nat
  /-- MODEL'S OWN. How many operations with latched operands have ended, and constructions: an index of free values (log
  entries 10, 28). -/
  opsEnded : Nat
  /-- MODEL'S OWN. The milliseconds of delay requested since `State.reset`, over every Handle for the display at `ADDR`: it
  has been powered at least so long (R76, R172; log entry 27). -/
  waited : Nat
  deriving DecidableEq, Repr

/-- The machine right after reset: a Handle constructed with every default, before `enable` (R24, R170, R171). -/
def State.reset : State where
  addr := defaultAddr
  bl := false
  phase := .idle
  latches := Config.latchesAtReset
  dc := ⟨false, false, false⟩
  em := ⟨false, false⟩
  rows := .one
  cell := .dots5x8
  lifecycle := .uninitialized
  p := Config.pAtPowerOn
  controller := Config.controllerAtPowerOn
  trace := []
  answers := []
  results := []
  program := []
  current := none
  calls := []
  params := tableParams
  env := []
  busCalls := 0
  opsEnded := 0
  waited := 0

end Sys2Proof.Machine
end

