-- ==== Sys2Proof/Machine/Ops.lean ====
section
/-! DEFINITION. The operations every meaning is made of: the two primitives, taking the transport error, the answer of an operation, the two-phase write, and the sequencer (spec/40_primitives.md; spec/41_nibble_transport.md sections 1 to 3; spec/60_exceptions.md section 2; spec/10_state.md R13). -/

namespace Sys2Proof.Machine

/-- The outcome of a primitive call or of a sequence of them: the machine goes on, or `TransportError(e)` is raised. -/
inductive Called where
  | returned (s : State)
  | raised (e : ErrorValue) (s : State)
  deriving DecidableEq, Repr

/-- Go on with `f` unless an error was raised: the steps after a failing one are not performed (R85, R152). -/
def Called.andThen (c : Called) (f : State → Called) : Called :=
  match c with
  | .returned s => f s
  | .raised e s => .raised e s

/-- The environment's reply to the `k`-th next bus write, counted from 0: decided already, or free (R72; log entry 4). -/
def nextReply (s : State) (k : Nat) : Reply := (s.env[k]?).getD (Config.busReply (s.busCalls + k))

/-- The controller takes a nibble: in 4-bit mode its pairing shifts by one (R37), the width staying as it is while a byte is
half received; what a whole byte, or a nibble in 8-bit mode, does to it is free (R21, R38; log entry 9). -/
def takeNibble (call : Nat) (v : Byte) (c : Controller) : Controller :=
  match c.width, c.nextHalf with
  | .fourBit, .first => { c with nextHalf := .second }
  | .fourBit, .second => ⟨Config.widthAfterByte call v, .first⟩
  | .eightBit, _ => Config.controllerAfter call c v

/-- Traffic that may come sooner than 40 ms after power-on: the delays requested before it do not rule it out (R172, R187;
log entry 27). -/
def earlyTraffic (s : State) : Bool := s.waited < tPowerOnMinMs

/-- What a bus write does to the controller's interface state, by `P` before it and its answer. A write that may be early is
ignored or misread, and what it leaves is free (R187; log entry 27). The second write of a nibble
answered `ok` gives the controller that nibble (R38). A write that raises enable gives it none, answered `ok` or not
(R38, R91). Everything else is free: a failed write that should have cleared enable, and a write while enable stands
asserted already (R91, R185; log entry 9). -/
def controllerStep (L : Layout) (call : Nat) (early : Bool) (p v : Byte) (r : Reply) (c : Controller) : Controller :=
  if early then Config.controllerAfter call c v
  else if r = .ok ∧ deliversNibble L p v then takeNibble call v c
  else if !enableSet L p && enableSet L v then c
  else Config.controllerAfter call c v

/-- What every bus write does before its answer matters: the event, the controller, and the count of calls. -/
def recordWrite (a : BusAddr) (v : Byte) (r : Reply) (s : State) : State :=
  { s with
    trace := s.trace ++ [.write a v r]
    controller := controllerStep s.params.layout s.busCalls (earlyTraffic s) s.p v r s.controller
    env := s.env.tail
    busCalls := s.busCalls + 1 }

/-- `BusWrite(a, v)` (R70): `ok` sets `P` to the byte, `err(e)` leaves `P` unspecified and raises `TransportError(e)`. -/
def busWrite (a : BusAddr) (v : Byte) (s : State) : Called :=
  match nextReply s 0 with
  | .ok => .returned { recordWrite a v .ok s with p := v }
  | .err e => .raised e { recordWrite a v (.err e) s with p := Config.pAfterFailure s.busCalls s.p v }

/-- `Delay(n)` (R75): an event; it cannot fail. At least `n` milliseconds have passed when it returns (R76). -/
def delay (n : Nat) (s : State) : State := { s with trace := s.trace ++ [.delay n], waited := s.waited + n }

/-- The block answers an operation (R94). -/
def respond (r : Reply) (s : State) : State := { s with answers := s.answers ++ [r] }

/-- The end of an operation with latched operands: `PHASE <- IDLE`, the latches unspecified from now on (R14, U13), one
answer. -/
def endOperation (r : Reply) (s : State) : State :=
  respond r
    { s with
      phase := .idle
      latches := Config.latchesWhileIdle s.opsEnded s.latches
      opsEnded := s.opsEnded + 1 }

/-- `return ok` (R87, R92, R97). There is no return-from-exception operation (R155). -/
def returnOk (s : State) : State := endOperation .ok s

/-- TAKING THE EXCEPTION `TransportError(e)` (R152): no further primitive call, `PHASE <- IDLE`, the answer `err(e)` with
the value unchanged (R150). There is no vector, no saved counter and no mode change. -/
def takeTransportError (e : ErrorValue) (s : State) : State := endOperation (.err e) s

/-- The end of an operation's pseudocode: `return ok`, or the clause `on TransportError(e)`. -/
def Called.answer : Called → State
  | .returned s => returnOk s
  | .raised e s => takeTransportError e s

/-- The sequencer moves to its next position. -/
def setPhase (ph : Phase) (s : State) : State := { s with phase := ph }

/-- The first or the low nibble of an operation (R13). -/
inductive Half where
  | high | low
  deriving DecidableEq, Repr

/-- The position of a half's write with enable set. -/
def phaseWE : Half → Phase
  | .high => .hWE
  | .low => .lWE

/-- The position of a half's enable delay. -/
def phaseTE : Half → Phase
  | .high => .hTE
  | .low => .lTE

/-- The position of a half's write with enable cleared. -/
def phaseWC : Half → Phase
  | .high => .hWC
  | .low => .lWC

/-- The position of a half's settle delay. -/
def phaseTS : Half → Phase
  | .high => .hTS
  | .low => .lTS

/-- `PULSE(f)` (R85): the two-phase write of one frame, each write followed by its delay, `PHASE` running through the four
positions of the half. -/
def pulse (h : Half) (f : Byte) (s : State) : Called :=
  (busWrite s.addr (withEnable s.params.layout f) (setPhase (phaseWE h) s)).andThen fun s =>
  (busWrite s.addr f (setPhase (phaseWC h) (delay s.params.tEnMs (setPhase (phaseTE h) s)))).andThen fun s =>
  .returned (delay s.params.tSettleMs (setPhase (phaseTS h) s))

/-- The frame of one half of the latched byte under the flags of now: `f_H` or `f_L` (R13). -/
def latchedFrame (h : Half) (s : State) : Byte :=
  match h with
  | .high => frame s.params.layout (highNibble s.latches.byte) s.latches.mode s.bl
  | .low => frame s.params.layout (lowNibble s.latches.byte) s.latches.mode s.bl

/-- A row of R13's table that makes a bus write: on `ok` the next position, on `err(e)` the exception. -/
def writeStep (v : Byte) (next : Phase) (s : State) : State :=
  match busWrite s.addr v s with
  | .returned t => setPhase next t
  | .raised e t => takeTransportError e t

/-- One primitive call of the operation in progress: the transition table of R13. In `IDLE` there is none to make; in `H_TS`
with `OPK = WAIT` the table has no row, and the position stays. -/
def advance (s : State) : State :=
  match s.phase with
  | .idle => s
  | .hWE => writeStep (withEnable s.params.layout (latchedFrame .high s)) .hTE s
  | .hTE => setPhase .hWC (delay s.params.tEnMs s)
  | .hWC => writeStep (latchedFrame .high s) .hTS s
  | .hTS =>
    match s.latches.opk with
    | .send => setPhase .lWE (delay s.params.tSettleMs s)
    | .nib => returnOk (delay s.params.tSettleMs s)
    | .wait => s
  | .lWE => writeStep (withEnable s.params.layout (latchedFrame .low s)) .lTE s
  | .lTE => setPhase .lWC (delay s.params.tEnMs s)
  | .lWC => writeStep (latchedFrame .low s) .lTS s
  | .lTS => returnOk (delay s.params.tSettleMs s)
  | .wt => returnOk (delay s.latches.wcnt.toNat s)

/-- `n` primitive calls of the sequencer, fewer if the operation ends before. -/
def advanceN : Nat → State → State
  | 0, s => s
  | n + 1, s => advanceN n (advance s)

/-- The operation in progress carried to its answer: no operation makes more than eight primitive calls (R90). -/
def runToIdle (s : State) : State := advanceN 8 s

/-- An operation offered to the block: accepted when `PHASE = IDLE`, and while an operation is in progress not before that
one has answered (R94; log entry 13). -/
def offer (s : State) (operation : State → State) : Host.Outcome State Fault Refusal :=
  match (runToIdle s).phase with
  | .idle => .next (operation (runToIdle s))
  | .hWE | .hTE | .hWC | .hTS | .lWE | .lTE | .lWC | .lTS | .wt => .fault .noTransition

end Sys2Proof.Machine
end

