-- ==== Sys2Proof/Machine/Control.lean ====
section
/-! DEFINITION. The operations that make no bus write: SETBL and WAIT (spec/41_nibble_transport.md sections 5 and 6). -/

namespace Sys2Proof.Machine

/-- The body of `SETBL f` (R95): `BL <- f; return ok`. It latches nothing and `PHASE` stays `IDLE` (R14). -/
def setBacklight (f : Bool) (s : State) : State := respond .ok { s with bl := f }

/-- `SETBL f` (R95). -/
def execSetbl (f : Bool) (s : State) : Host.Outcome State Fault Refusal := offer s (setBacklight f)

/-- Acceptance of a WAIT: `WCNT <- d; OPK <- WAIT; PHASE <- WT` (R14, R97). -/
def acceptWait (d : WaitCount) (s : State) : State :=
  { s with latches := { s.latches with opk := .wait, wcnt := d }, phase := .wt }

/-- The body of `WAIT d` (R97): one call of the delay primitive. -/
def waitMs (d : WaitCount) (s : State) : State := returnOk (delay d.toNat (acceptWait d s))

/-- `WAIT d` (R97). -/
def execWait (d : WaitCount) (s : State) : Host.Outcome State Fault Refusal := offer s (waitMs d)

end Sys2Proof.Machine
end

