-- ==== Sys2Proof/Machine/Transport.lean ====
section
/-! DEFINITION. The operations that write to the bus: SEND.C, SEND.D and NIB (spec/41_nibble_transport.md sections 3 and 4). -/

namespace Sys2Proof.Machine

/-- Acceptance of a SEND: `BYTE <- b; MODE <- m; OPK <- SEND; PHASE <- H_WE` (R14, R87). -/
def acceptSend (b : Byte) (m : Mode) (s : State) : State :=
  { s with latches := { s.latches with opk := .send, byte := b, mode := m }, phase := .hWE }

/-- Acceptance of a NIB: `BYTE <- n ++ 0b0000; MODE <- 0; OPK <- NIB; PHASE <- H_WE` (R14, R92). -/
def acceptNib (n : Nibble) (s : State) : State :=
  { s with latches := { s.latches with opk := .nib, byte := nibbleAsByte n, mode := .command }, phase := .hWE }

/-- `SEND(b, m)` (R87): a pulse of the high nibble, then a pulse of the low one; `BL` is read once per nibble (R12). -/
def send (b : Byte) (m : Mode) (s : State) : State :=
  ((pulse .high (frame s.params.layout (highNibble b) m s.bl) (acceptSend b m s)).andThen fun t =>
    pulse .low (frame t.params.layout (lowNibble b) m t.bl) t).answer

/-- `SEND.C b` (R88): command-register framing. -/
def execSendC (b : Byte) (s : State) : Host.Outcome State Fault Refusal := offer s (send b .command)

/-- `SEND.D b` (R89): data-register framing. -/
def execSendD (b : Byte) (s : State) : Host.Outcome State Fault Refusal := offer s (send b .data)

/-- The body of `NIB n` (R92): one pulse of the nibble, command framing. -/
def sendNibble (n : Nibble) (s : State) : State :=
  (pulse .high (frame s.params.layout n .command s.bl) (acceptNib n s)).answer

/-- `NIB n` (R92). -/
def execNib (n : Nibble) (s : State) : Host.Outcome State Fault Refusal := offer s (sendNibble n)

end Sys2Proof.Machine
end

