-- ==== Sys2Proof/Machine/Dispatch.lean ====
section
/-! DEFINITION. The meaning of each operation: one arm per constructor of Instr. -/

namespace Sys2Proof.Machine

def exec (i : Instr) (s : State) : Host.Outcome State Fault Refusal :=
  match i with
  | .sendC b => Sys2Proof.Machine.execSendC b s
  | .sendD b => Sys2Proof.Machine.execSendD b s
  | .nib n => Sys2Proof.Machine.execNib n s
  | .setbl f => Sys2Proof.Machine.execSetbl f s
  | .wait d => Sys2Proof.Machine.execWait d s

end Sys2Proof.Machine
end

