-- ==== Sys2Proof/Machine/Flags.lean ====
section
/-! DEFINITION. The flag bytes of the host driver: what each accumulator byte is, and the payload that re-transmits it (spec/10_state.md R17, R18; spec/42_host_driver.md R117 to R120). -/

namespace Sys2Proof.Machine

/-- One flag in its place. -/
def flagBit (on : Bool) (mask : Byte) : Byte := if on then mask else 0#8

/-- The byte of `DC`: the flags currently on (R17, conflict C6). -/
def displayControlByte (dc : DisplayControl) : Byte :=
  flagBit dc.display Codes.dcDisplay ||| flagBit dc.cursor Codes.dcCursor ||| flagBit dc.blink Codes.dcBlink

/-- The byte of `EM`: the flags currently on (R18). -/
def entryModeByte (em : EntryMode) : Byte :=
  flagBit em.leftToRight Codes.emLeftToRight ||| flagBit em.autoShift Codes.emShift

/-- The payload of a display-control operation: `CMD_DISPLAY | DC` (R119). -/
def displayPayload (dc : DisplayControl) : Byte := Codes.cmdDisplay ||| displayControlByte dc

/-- The payload of an entry-mode operation: `CMD_ENTRY | EM` (R120). -/
def entryPayload (em : EntryMode) : Byte := Codes.cmdEntry ||| entryModeByte em

/-- `BL_REFRESH_PAYLOAD(f)`: the payload that follows a backlight change (R118). -/
def refreshPayload (r : BlRefresh) (f : Bool) : Byte := if f then r.whenOn else r.whenOff

end Sys2Proof.Machine
end

