-- ==== Sys2Proof/Machine/HostDriver.lean ====
section
/-! DEFINITION. The host driver: construction, the initialization sequencer, the lifecycle gate and the Command API, each operation as its expansion into command words (spec/42_host_driver.md; spec/60_exceptions.md section 7). -/

namespace Sys2Proof.Machine

/-- Offer the command word of an operation. -/
def issueOp (i : Instr) : HostTask := .issue (encode i)

/-- `gap_k`: empty, or a WAIT (R114). -/
def gapTasks : Option WaitCount → List HostTask
  | none => []
  | some d => [issueOp (.wait d)]

/-- One data-framed byte per unit, in order (R130). -/
def dataTasks (bs : List Byte) : List HostTask := bs.map fun b => issueOp (.sendD b)

/-- The expansion of `enable` (R112): the power-on wait, three reset nibbles, the nibble that commits 4-bit mode, one
function-set, the tag, then the default configuration; no return-home of its own (conflict C3). -/
def enableTasks (p : Params) (rows : RowCount) (cell : CellSize) : List HostTask :=
  [issueOp (.wait p.tPowerOnMs)] ++
  [issueOp (.nib Codes.nibReset)] ++ gapTasks p.initGaps.gap1 ++
  [issueOp (.nib Codes.nibReset)] ++ gapTasks p.initGaps.gap2 ++
  [issueOp (.nib Codes.nibReset)] ++ gapTasks p.initGaps.gap3 ++
  [issueOp (.nib Codes.nib4Bit)] ++ gapTasks p.initGaps.gap4 ++
  [issueOp (.sendC (functionSetByte rows cell))] ++ gapTasks p.initGaps.gap5 ++
  [.markInitialized, .call .leftToRight, .call .backlightOn, .call .renderingOn, .call .clear]

/-- The accumulator update of an operation, made before its send (R117): the flag named is set or cleared, the others stay
(R119, R120). Every other operation changes no accumulator. -/
def updateAccumulators (o : HostOp) (s : State) : State :=
  match o with
  | .renderingOn => { s with dc := { s.dc with display := true } }
  | .renderingOff => { s with dc := { s.dc with display := false } }
  | .cursorOn => { s with dc := { s.dc with cursor := true } }
  | .cursorOff => { s with dc := { s.dc with cursor := false } }
  | .cursorBlinkOn => { s with dc := { s.dc with blink := true } }
  | .cursorBlinkOff => { s with dc := { s.dc with blink := false } }
  | .leftToRight => { s with em := { s.em with leftToRight := true } }
  | .rightToLeft => { s with em := { s.em with leftToRight := false } }
  | .enable | .backlightOn | .backlightOff | .sleep | .wakeup | .moveCursorTo _ _ | .clear
  | .scrollLeft | .scrollRight | .scrollReset | .writeU8 _ | .writeBytes _ | .writeStr _
  | .registerCustomChar _ _ => s

/-- The expansion of an operation (R59), with the accumulators already updated. -/
def expansion (o : HostOp) (s : State) : List HostTask :=
  match o with
  | .enable => enableTasks s.params s.rows s.cell
  | .backlightOn => [issueOp (.setbl true), issueOp (.sendC (refreshPayload s.params.blRefresh true))]
  | .backlightOff => [issueOp (.setbl false), issueOp (.sendC (refreshPayload s.params.blRefresh false))]
  | .renderingOn | .renderingOff | .cursorOn | .cursorOff | .cursorBlinkOn | .cursorBlinkOff =>
      [issueOp (.sendC (displayPayload s.dc))]
  | .leftToRight | .rightToLeft => [issueOp (.sendC (entryPayload s.em))]
  | .sleep => [.call .backlightOff, .call .renderingOff]
  | .wakeup => [.call .backlightOn, .call .renderingOn]
  | .moveCursorTo row col => [issueOp (.sendC (cursorByte s.rows row col))]
  | .clear => [issueOp (.sendC Codes.cmdClear), .call (.moveCursorTo 0 0)]
  | .scrollLeft => [issueOp (.sendC Codes.cmdShiftLeft)]
  | .scrollRight => [issueOp (.sendC Codes.cmdShiftRight)]
  | .scrollReset => [issueOp (.sendC Codes.cmdHome)]
  | .writeU8 b => dataTasks [b]
  | .writeBytes bs => dataTasks bs
  | .writeStr stored => dataTasks stored
  | .registerCustomChar slot rows => issueOp (.sendC (cgramByte slot)) :: dataTasks rows

/-- Why an operation whose operands are out of range is refused. -/
def operandRefusal : HostOp → Refusal
  | .registerCustomChar _ _ => .slotOutOfRange
  | .moveCursorTo _ _ | .enable | .backlightOn | .backlightOff | .renderingOn | .renderingOff | .cursorOn | .cursorOff
  | .cursorBlinkOn | .cursorBlinkOff | .leftToRight | .rightToLeft | .sleep | .wakeup | .clear
  | .scrollLeft | .scrollRight | .scrollReset | .writeU8 _ | .writeBytes _ | .writeStr _ => .cursorOutOfRange

/-- The host begins an operation: the accumulator first, then the expansion in front of what the call still has to do
(R117, R141). Operands out of range are refused (D22, D24). -/
def beginOp (o : HostOp) (s : State) : Host.Outcome State Fault Refusal :=
  if o.wellFormed s.rows then
    .next { updateAccumulators o s with program := expansion o (updateAccumulators o s) ++ s.program }
  else .refused (operandRefusal o)

/-- The value a completed call returns: the slot index used, for the operation that returns one (R135). -/
def returnValue : HostCall → Option Nat
  | .op (.registerCustomChar slot _) => some (glyphSlot slot)
  | .op .enable | .op .backlightOn | .op .backlightOff | .op .renderingOn | .op .renderingOff | .op .cursorOn
  | .op .cursorOff | .op .cursorBlinkOn | .op .cursorBlinkOff | .op .leftToRight | .op .rightToLeft | .op .sleep
  | .op .wakeup | .op (.moveCursorTo _ _) | .op .clear | .op .scrollLeft | .op .scrollRight | .op .scrollReset
  | .op (.writeU8 _) | .op (.writeBytes _) | .op (.writeStr _)
  | .construct _ | .commandWords _ | .drop => none

/-- A call with nothing left to do returns `ok` (R141). -/
def finishCall (c : HostCall) (s : State) : State :=
  { s with current := none, results := s.results ++ [.ok (returnValue c)] }

/-- The lifecycle after a call failed: a failed `enable` leaves the caller without a handle (R113). -/
def lifecycleAfterFailure (c : Option HostCall) (l : Lifecycle) : Lifecycle :=
  if c = some (.op .enable) then .gone else l

/-- The result a failed call returns: the error unchanged (R141). Command words issued outside a call have no caller. -/
def failureResult (c : Option HostCall) (e : ErrorValue) : List HostResult :=
  match c with
  | none => []
  | some _ => [.err e]

/-- An operation answered `err(e)`: the call stops there, what it still had to do is never issued, nothing is undone
(R99, R141). -/
def failCall (e : ErrorValue) (s : State) : State :=
  { s with
    program := []
    current := none
    results := s.results ++ failureResult s.current e
    lifecycle := lifecycleAfterFailure s.current s.lifecycle }

/-- The host takes the block's latest answer (R80, R141). -/
def takeAnswer (s : State) : State :=
  match s.answers.getLast? with
  | some (.err e) => failCall e s
  | some .ok => s
  | none => s

/-- The devices behind an address: those of the Handle before keep what the earlier traffic left in them (R170). DESIGN
CHOICE: the spec is silent on another address, whose devices are not those the earlier traffic went to; what stands in
them is free, and nothing is known of how long they have been powered (R30; log entry 28). -/
def devicesAt (addr : BusAddr) (s : State) : State :=
  if addr = s.addr then s
  else
    { s with
      p := Config.pAtAddress s.opsEnded addr
      controller := Config.controllerAtAddress s.opsEnded addr
      waited := 0 }

/-- Construction of a Handle: the reset of the block and of the host's state. It does nothing to the devices behind the
address, and the trace is empty (R170, R171; log entries 21 and 28). -/
def constructed (addr : BusAddr) (rows : RowCount) (cell : CellSize) (s : State) : State :=
  { State.reset with
    addr := addr
    rows := rows
    cell := cell
    p := (devicesAt addr s).p
    controller := (devicesAt addr s).controller
    latches := Config.latchesWhileIdle s.opsEnded s.latches
    results := s.results ++ [.ok none]
    calls := s.calls
    params := s.params
    env := s.env
    busCalls := s.busCalls
    opsEnded := s.opsEnded + 1
    waited := (devicesAt addr s).waited }

/-- The configured address, `0x27` when not configured (R11). -/
def configuredAddr : Option Nat → Option BusAddr
  | none => some defaultAddr
  | some a => busAddrOfNat a

/-- The configured row count, 1 when not configured (R19). -/
def configuredRows : Option Nat → Option RowCount
  | none => some .one
  | some r => rowCountOfNat r

/-- Construct and configure; a value out of range is refused (R11, R19, D30). -/
def construct (c : Configuration) (s : State) : Host.Outcome State Fault Refusal :=
  match configuredAddr c.addr, configuredRows c.rows with
  | some a, some r => .next (constructed a r (c.cell.getD .dots5x8) s)
  | some _, none | none, some _ | none, none => .refused .badConfiguration

/-- The first reserved word of a host program, if there is one (R57, R100). -/
def firstReserved : List Word → Option Reserved
  | [] => none
  | w :: rest =>
    match decode w with
    | .instr _ => firstReserved rest
    | .reserved why => some why

/-- A host program of command words: refused as a whole if it holds a reserved word (R100), else issued in order (R58). -/
def loadWords (ws : List Word) (s : State) : Host.Outcome State Fault Refusal :=
  match firstReserved ws with
  | some why => .refused (.reservedWord why)
  | none => .next { s with program := ws.map .issue, current := some (.commandWords ws) }

/-- The Handle is dropped: no primitive call, and `P` and the display keep whatever the last write left (R140). -/
def dropped (s : State) : State := { s with lifecycle := .gone, results := s.results ++ [.ok none] }

/-- The application makes its next call on the driver. A call the lifecycle state does not admit is a build-time error in
the source and has no meaning here (R158); without a handle nothing can be issued to the block but a new construction
(R113). -/
def startCall (c : HostCall) (s : State) : Host.Outcome State Fault Refusal :=
  match c with
  | .construct cfg => construct cfg s
  | .op o =>
    if s.lifecycle.admits o then .next { s with program := [.call o], current := some (.op o) }
    else .refused .lifecycleGate
  | .commandWords ws => if s.lifecycle = .gone then .refused .lifecycleGate else loadWords ws s
  | .drop => if s.lifecycle = .gone then .refused .lifecycleGate else .next (dropped s)

/-- The host's move when the block is idle and the call in progress has nothing left to issue: it returns to the
application, or the application makes its next call, or the block waits in `IDLE` (R24). -/
def nextCall (s : State) : Host.Outcome State Fault Refusal :=
  match s.current with
  | some c => .next (finishCall c s)
  | none =>
    match s.calls with
    | c :: rest => startCall c { s with calls := rest }
    | [] => .next s

end Sys2Proof.Machine
end

