-- ==== Sys2Proof/Machine/Issue.lean ====
section
/-! DEFINITION. How an operation comes to the block: the host offers a command word, the block decodes it and carries it out (spec/20_memory.md R47; spec/40_primitives.md R80). -/

namespace Sys2Proof.Machine

/-- The host takes the answer of an operation that has ended. -/
def answered : Host.Outcome State Fault Refusal → Host.Outcome State Fault Refusal
  | .next s => .next (takeAnswer s)
  | .fault r => .fault r
  | .refused r => .refused r

/-- One command word offered to the idle block: the operation it decodes to is carried out and its answer goes to the host;
a reserved word is refused (R57). -/
def offerWord (w : Word) (s : State) : Host.Outcome State Fault Refusal :=
  match decode w with
  | .instr i => answered (exec i s)
  | .reserved why => .refused (.reservedWord why)

/-- One task of the host call in progress. -/
def runTask (t : HostTask) (s : State) : Host.Outcome State Fault Refusal :=
  match t with
  | .issue w => offerWord w s
  | .call o => beginOp o s
  | .markInitialized => .next { s with lifecycle := .initialized }

/-- The step of an idle block: the next task of the call in progress, or the host's next move. -/
def idleStep (s : State) : Host.Outcome State Fault Refusal :=
  match s.program with
  | t :: rest => runTask t { s with program := rest }
  | [] => nextCall s

/-- The position and kind for which R13's table has no row. -/
def noRow (s : State) : Bool := s.phase = .hTS && s.latches.opk = .wait

/-- What the host does after one primitive call of the sequencer: it takes the answer if the operation has ended. -/
def afterAdvance (s : State) : State := if s.phase = .idle then takeAnswer s else s

/-- The step of a busy block: one primitive call of the operation in progress (R13); the host's next operation waits
(R94). -/
def busyStep (s : State) : Host.Outcome State Fault Refusal :=
  if noRow s then .fault .noTransition else .next (afterAdvance (advance s))

/-- The state with one more command word in front of what the host offers next, and the block idle, so that it is accepted
now. -/
def offerNext (w : Word) (s : State) : State := { s with program := .issue w :: s.program, phase := .idle }

end Sys2Proof.Machine
end

