-- ==== Sys2Proof/Machine/Step.lean ====
section
/-! DEFINITION. One step of the machine, and the placing of a command word where the next step takes it. -/

namespace Sys2Proof.Machine

/-- One step: in `IDLE` one move of the host, which is a whole operation of the block when it offers a command word (R47,
R94; log entry 1); in any other position one primitive call of the operation in progress (R13). -/
def step (s : State) : Host.Outcome State Fault Refusal :=
  if s.phase = .idle then idleStep s else busyStep s

/-- `s` with the instruction whose bits are `w` as the command word the host offers next (log entry 12). The table's numbering is
the command word's own (R50); bits above `nbits` are 0. -/
def State.withFetchWord (s : State) (nbits w : Nat) : State := offerNext (BitVec.ofNat 16 (w % 2 ^ nbits)) s

end Sys2Proof.Machine
end

