-- ==== Sys2Proof/Machine/Assembler.lean ====
section
/-! DEFINITION. The assembler text of spec/30_encoding.md R58: one operation a line, a mnemonic and one operand, decimal or hexadecimal, and a comment after a semicolon. -/

namespace Sys2Proof.Machine

/-- A line of assembler text as written: a mnemonic and an operand, before the operand's range is checked. -/
structure AsmLine where
  mnemonic : String
  operand  : Nat
  deriving DecidableEq, Repr

/-- The line's operation, if its mnemonic is one of the five and its operand in range (R58). DESIGN CHOICE: the spec says
nothing of letter case, and a mnemonic is admitted as R58 writes it only (log entry 25). -/
def assembleLine (l : AsmLine) : Option Instr :=
  if l.mnemonic = "SEND.C" then if l.operand ≤ 255 then some (.sendC (BitVec.ofNat 8 l.operand)) else none
  else if l.mnemonic = "SEND.D" then if l.operand ≤ 255 then some (.sendD (BitVec.ofNat 8 l.operand)) else none
  else if l.mnemonic = "NIB" then if l.operand ≤ 15 then some (.nib (BitVec.ofNat 4 l.operand)) else none
  else if l.mnemonic = "SETBL" then if l.operand ≤ 1 then some (.setbl (l.operand == 1)) else none
  else if l.mnemonic = "WAIT" then if l.operand ≤ 4095 then some (.wait (BitVec.ofNat 12 l.operand)) else none
  else none

/-- The value of a digit in a base of at most 16. DESIGN CHOICE: the spec says nothing of letter case, and a hexadecimal
digit is admitted in either (log entry 25). -/
def digitValue (base : Nat) (c : Char) : Option Nat :=
  let v := if '0' ≤ c ∧ c ≤ '9' then c.toNat - '0'.toNat
    else if 'a' ≤ c ∧ c ≤ 'f' then c.toNat - 'a'.toNat + 10
    else if 'A' ≤ c ∧ c ≤ 'F' then c.toNat - 'A'.toNat + 10
    else 16
  if v < base then some v else none

/-- A number's digits, first digit first, on from a value read so far. -/
def digitsFrom (base acc : Nat) : List Char → Option Nat
  | [] => some acc
  | c :: rest =>
    match digitValue base c with
    | some d => digitsFrom base (acc * base + d) rest
    | none => none

/-- A number: decimal, or hexadecimal after `0x`; at least one digit. DESIGN CHOICE: the `x` of the mark in lower case only,
and leading zeros admitted (log entry 25). -/
def parseNumber : List Char → Option Nat
  | [] => none
  | ['0', 'x'] => none
  | '0' :: 'x' :: c :: rest => digitsFrom 16 0 (c :: rest)
  | c :: rest => digitsFrom 10 0 (c :: rest)

/-- A line's text before the comment. -/
def stripComment : List Char → List Char
  | [] => []
  | c :: rest => if c = ';' then [] else c :: stripComment rest

/-- The words of a text, split at every character the test holds of; `word` is the word read so far, last character
first. -/
def splitAt (sep : Char → Bool) (word : List Char) : List Char → List (List Char)
  | [] => [word.reverse]
  | c :: rest => if sep c then word.reverse :: splitAt sep [] rest else splitAt sep (c :: word) rest

/-- The words of a line: between spaces and tabs, empty ones left out. DESIGN CHOICE: the spec does not say what separates a
mnemonic from its operand (log entry 25). -/
def lineWords (cs : List Char) : List (List Char) :=
  (splitAt (fun c => c = ' ' || c = '\t') [] (stripComment cs)).filter fun w => !w.isEmpty

/-- What a line of text holds: nothing, an operation, or text the syntax does not admit. -/
inductive ParsedLine where
  | blank
  | operation (i : Instr)
  | malformed
  deriving DecidableEq, Repr

/-- One line of assembler text (R58). DESIGN CHOICE: the operand of WAIT may be hexadecimal as any other; the spec calls it
"decimal milliseconds" and admits both bases for numbers in general (log entry 25). -/
def parseLine (cs : List Char) : ParsedLine :=
  match lineWords cs with
  | [] => .blank
  | [m, n] =>
    match (parseNumber n).bind fun k => assembleLine ⟨String.ofList m, k⟩ with
    | some i => .operation i
    | none => .malformed
  | _ => .malformed

/-- The operations of the lines, in order; none if a line is malformed. -/
def collectOps : List ParsedLine → Option (List Instr)
  | [] => some []
  | .blank :: rest => collectOps rest
  | .operation i :: rest => (collectOps rest).map (i :: ·)
  | .malformed :: _ => none

/-- A program text: a finite list of operations, one a line, with no label, branch or directive (R58). DESIGN CHOICE: the
spec does not say what ends a line; here a line feed does and nothing else, so that a carriage return before it belongs to
the line (log entry 25). -/
def parseProgram (text : String) : Option (List Instr) :=
  collectOps ((splitAt (fun c => c = '\n') [] text.toList).map parseLine)

/-- The command words of a program text. -/
def assemble (text : String) : Option (List Word) := (parseProgram text).map (·.map encode)

end Sys2Proof.Machine
end

