-- ==== Sys2Proof/Machine/Observe.lean ====
section
/-! DEFINITION. What an observer reads off a trace: the successful writes, the nibbles the controller was given, the requested delay, and the pacing of the two-phase write (spec/20_memory.md R38; spec/70_reset_and_hazards.md R180, R191). -/

namespace Sys2Proof.Machine

/-- The bytes of the successful writes to an address, in order. -/
def successfulWrites (a : BusAddr) : List Event → List Byte
  | [] => []
  | .write a' v .ok :: rest => if a' = a then v :: successfulWrites a rest else successfulWrites a rest
  | .write _ _ (.err _) :: rest => successfulWrites a rest
  | .delay _ :: rest => successfulWrites a rest

/-- The items `(rs, n)` the successful writes deliver (R38). -/
def nibbleItems (L : Layout) : List Byte → List (Mode × Nibble)
  | [] => []
  | [_] => []
  | v :: w :: rest =>
    if deliversNibble L v w then (modeOf L w, nibbleOf L w) :: nibbleItems L (w :: rest) else nibbleItems L (w :: rest)

/-- The nibble stream of a trace (R38). -/
def nibbleStream (L : Layout) (a : BusAddr) (t : List Event) : List (Mode × Nibble) :=
  nibbleItems L (successfulWrites a t)

/-- Items `2k` and `2k+1` as one byte and the register it is addressed to, the controller being in 4-bit mode with its
pairing aligned (R38). A pair whose two mode bits differ is given no register by the spec and is `none` (log entry 22). -/
def receivedBytes : List (Mode × Nibble) → List (Option (Mode × Byte))
  | [] => []
  | [_] => []
  | (m, hi) :: (m', lo) :: rest => (if m = m' then some (m, hi ++ lo) else none) :: receivedBytes rest

/-- The requested delay of a trace, in milliseconds: a lower bound of the time it took (R76, R191). -/
def requestedDelay : List Event → Nat
  | [] => 0
  | .delay n :: rest => n + requestedDelay rest
  | .write _ _ _ :: rest => requestedDelay rest

/-- The number of bus writes of a trace. -/
def writeCount : List Event → Nat
  | [] => 0
  | .write _ _ _ :: rest => writeCount rest + 1
  | .delay _ :: rest => writeCount rest

/-- The number of delay calls of a trace. -/
def delayCount : List Event → Nat
  | [] => 0
  | .delay _ :: rest => delayCount rest + 1
  | .write _ _ _ :: rest => delayCount rest

/-- The delay requested before the first bus write of a trace, `none` if it holds no write (R172). -/
def delayBeforeTraffic : List Event → Option Nat
  | [] => none
  | .delay n :: rest => (delayBeforeTraffic rest).map (n + ·)
  | .write _ _ _ :: _ => some 0

/-- Where a trace stands in the two-phase write. -/
inductive Pace where
  /-- Between nibbles. -/
  | ready
  /-- The enable-set write of this byte was answered `ok`; its delay is due. -/
  | enableWritten (v : Byte)
  /-- The enable delay has passed; the enable-clear write of the same byte is due. -/
  | enableHeld (v : Byte)
  /-- The enable-clear write was answered `ok`; the settle delay is due. -/
  | clearWritten
  deriving DecidableEq, Repr

/-- The event the two-phase write admits next (R81, R85, R86): an enable-set write or a WAIT's delay between nibbles; after
each write answered `ok` its own delay; after the enable delay the same byte with enable clear; after a failed write
the operation has ended. -/
def paceStep (p : Params) (at_ : Pace) (ev : Event) : Option Pace :=
  match at_, ev with
  | .ready, .delay _ => some .ready
  | .ready, .write _ v .ok => if enableSet p.layout v then some (.enableWritten v) else none
  | .ready, .write _ v (.err _) => if enableSet p.layout v then some .ready else none
  | .enableWritten v, .delay n => if n = p.tEnMs then some (.enableHeld v) else none
  | .enableWritten _, .write _ _ _ => none
  | .enableHeld v, .write _ w .ok => if w = v &&& ~~~p.layout.enMask then some .clearWritten else none
  | .enableHeld v, .write _ w (.err _) => if w = v &&& ~~~p.layout.enMask then some .ready else none
  | .enableHeld _, .delay _ => none
  | .clearWritten, .delay n => if n = p.tSettleMs then some .ready else none
  | .clearWritten, .write _ _ _ => none

/-- The pace of a whole trace, `none` if some event was not admitted (R180). -/
def tracePace (p : Params) (t : List Event) : Option Pace :=
  t.foldl (fun at_ ev => at_.bind fun q => paceStep p q ev) (some .ready)

end Sys2Proof.Machine
end

