-- ==== Sys2Proof/Safety.lean ====
section
/-! DEFINITION. The terms claims use: what an operation leaves alone, the events it appends, the invariants of the machine, and the rendering of an operation as acceptance followed by the sequencer. -/

namespace Sys2Proof.Machine

/-- Everything the host and the construction own is as before: no operation of the block writes it (spec/10_state.md R11,
R25). -/
structure HostSideUnchanged (s t : State) : Prop where
  addr : t.addr = s.addr
  dc : t.dc = s.dc
  em : t.em = s.em
  rows : t.rows = s.rows
  cell : t.cell = s.cell
  lifecycle : t.lifecycle = s.lifecycle
  results : t.results = s.results
  program : t.program = s.program
  current : t.current = s.current
  calls : t.calls = s.calls
  params : t.params = s.params

/-- Nothing on the bus side has changed: `P`, the controller, and the environment's replies still to come. -/
structure BusSideUnchanged (s t : State) : Prop where
  p : t.p = s.p
  controller : t.controller = s.controller
  env : t.env = s.env
  busCalls : t.busCalls = s.busCalls

/-- The four events of a pulse whose two writes are answered `ok` (R85). -/
def pulseEvents (s : State) (f : Byte) : List Event :=
  [.write s.addr (withEnable s.params.layout f) .ok, .delay s.params.tEnMs, .write s.addr f .ok,
   .delay s.params.tSettleMs]

/-- The events of a pulse that fails at its first write (`second = false`) or at its second (R86). -/
def failedPulseEvents (s : State) (f : Byte) (second : Bool) (e : ErrorValue) : List Event :=
  if second then
    [.write s.addr (withEnable s.params.layout f) .ok, .delay s.params.tEnMs, .write s.addr f (.err e)]
  else [.write s.addr (withEnable s.params.layout f) (.err e)]

/-- `frame(b[7:4], m, BL)` under the state's flags (R91's `h`). -/
def highFrame (s : State) (b : Byte) (m : Mode) : Byte := frame s.params.layout (highNibble b) m s.bl

/-- `frame(b[3:0], m, BL)` under the state's flags (R91's `l`). -/
def lowFrame (s : State) (b : Byte) (m : Mode) : Byte := frame s.params.layout (lowNibble b) m s.bl

/-- The eight events of a SEND that returns `ok` (R90). -/
def sendEvents (s : State) (b : Byte) (m : Mode) : List Event :=
  pulseEvents s (highFrame s b m) ++ pulseEvents s (lowFrame s b m)

/-- The events of a SEND that fails at write `k + 1` (R91's table). -/
def failedSendEvents (s : State) (b : Byte) (m : Mode) (k : Fin 4) (e : ErrorValue) : List Event :=
  match k with
  | 0 => failedPulseEvents s (highFrame s b m) false e
  | 1 => failedPulseEvents s (highFrame s b m) true e
  | 2 => pulseEvents s (highFrame s b m) ++ failedPulseEvents s (lowFrame s b m) false e
  | 3 => pulseEvents s (highFrame s b m) ++ failedPulseEvents s (lowFrame s b m) true e

/-- The next `n` bus writes are answered `ok`. -/
abbrev RepliesOk (s : State) (n : Nat) : Prop := ∀ k : Fin n, nextReply s k = .ok

/-- Bus writes 1 to `k` from now are answered `ok` and the next one `err(e)`. -/
abbrev FailsAt (s : State) (k : Nat) (e : ErrorValue) : Prop :=
  (∀ j : Fin k, nextReply s j = .ok) ∧ nextReply s k = .err e

/-- A byte the block may put on the lines: a frame, or a frame with the enable bit set (R71). -/
def IsFrameByte (L : Layout) (v : Byte) : Prop :=
  ∃ n m bl, v = frame L n m bl ∨ v = withEnable L (frame L n m bl)

/-- Every bus write of the trace went to `ADDR` and carried a frame (R71). -/
def TraceFramed (s : State) : Prop := ∀ a v r, Event.write a v r ∈ s.trace → a = s.addr ∧ IsFrameByte s.params.layout v

/-- Where the trace must stand in each position of the sequencer. -/
def paceAt (s : State) : Pace :=
  match s.phase with
  | .idle | .hWE | .lWE | .wt => .ready
  | .hTE => .enableWritten (withEnable s.params.layout (latchedFrame .high s))
  | .hWC => .enableHeld (withEnable s.params.layout (latchedFrame .high s))
  | .lTE => .enableWritten (withEnable s.params.layout (latchedFrame .low s))
  | .lWC => .enableHeld (withEnable s.params.layout (latchedFrame .low s))
  | .hTS | .lTS => .clearWritten

/-- The trace is paced as the two-phase write demands, and stands where the sequencer stands (R180); the layout is one R4
admits. -/
def Paced (s : State) : Prop := s.params.layout.Valid ∧ tracePace s.params s.trace = some (paceAt s)

/-- The kind of the operation in progress fits its position: the combinations R13's table covers. -/
def Coherent (s : State) : Prop :=
  match s.phase with
  | .idle => True
  | .hWE | .hTE | .hWC | .hTS => s.latches.opk = .send ∨ s.latches.opk = .nib
  | .lWE | .lTE | .lWC | .lTS => s.latches.opk = .send
  | .wt => s.latches.opk = .wait

/-- The acceptance of an operation by an idle block (R14, R94): the latches are loaded and the sequencer stands before the
operation's first primitive call; SETBL has none and is answered at once. -/
def accept (i : Instr) (s : State) : State :=
  match i with
  | .sendC b => acceptSend b .command s
  | .sendD b => acceptSend b .data s
  | .nib n => acceptNib n s
  | .setbl f => setBacklight f s
  | .wait d => acceptWait d s

/-- How many bus writes an operation makes when none fails (R191). -/
def busWritesOf : Instr → Nat
  | .sendC _ => 4
  | .sendD _ => 4
  | .nib _ => 2
  | .setbl _ => 0
  | .wait _ => 0

/-- How many delay calls an operation makes when no write fails (R191). -/
def delayCallsOf : Instr → Nat
  | .sendC _ => 4
  | .sendD _ => 4
  | .nib _ => 2
  | .setbl _ => 0
  | .wait _ => 1

/-- The requested delay of an operation when no write fails (R191). -/
def requestedDelayOf (p : Params) : Instr → Nat
  | .sendC _ => 2 * (p.tEnMs + p.tSettleMs)
  | .sendD _ => 2 * (p.tEnMs + p.tSettleMs)
  | .nib _ => p.tEnMs + p.tSettleMs
  | .setbl _ => 0
  | .wait d => d.toNat

/-- A reply with its error value renamed. -/
def renameReply (f : ErrorValue → ErrorValue) : Reply → Reply
  | .ok => .ok
  | .err e => .err (f e)

/-- An event with its error value renamed. -/
def renameEvent (f : ErrorValue → ErrorValue) : Event → Event
  | .write a v r => .write a v (renameReply f r)
  | .delay n => .delay n

/-- The block is idle and the application makes this call next. -/
abbrev CallsNext (s : State) (c : HostCall) (rest : List HostCall) : Prop :=
  s.phase = .idle ∧ s.program = [] ∧ s.current = none ∧ s.calls = c :: rest

/-- The step the machine takes next is a construction. -/
def ConstructsNext (s : State) : Prop := ∃ c rest, CallsNext s (.construct c) rest

/-- The block is idle and the host offers this command word next. -/
abbrev OffersNext (s : State) (w : Word) (rest : List HostTask) : Prop :=
  s.phase = .idle ∧ s.program = .issue w :: rest

/-- The block is idle and the call in progress carries out this operation of the driver next. -/
abbrev BeginsNext (s : State) (o : HostOp) (rest : List HostTask) : Prop :=
  s.phase = .idle ∧ s.program = .call o :: rest

/-- `h` is the list of operations the driver issued on the way from `s` to `t`, each with its answer, in order. The only
calls of the application on the way are operations of the driver. -/
inductive Issues : State → List (Instr × Reply) → State → Prop where
  | none (s : State) : Issues s [] s
  /-- A step that offers no command word, and begins no call but an operation of the driver. -/
  | quiet (s t u : State) (h : List (Instr × Reply)) (first : step s = .next t)
      (offersNothing : ∀ w rest, ¬OffersNext s w rest) (driver : ∀ c rest, CallsNext s c rest → ∃ o, c = .op o)
      (others : Issues t h u) : Issues s h u
  /-- A step that offers the command word of `i`, answered `r`. -/
  | issued (s t u : State) (w : Word) (rest : List HostTask) (i : Instr) (r : Reply) (h : List (Instr × Reply))
      (offers : OffersNext s w rest) (word : decode w = .instr i) (first : step s = .next t)
      (answer : t.answers = s.answers ++ [r]) (others : Issues t h u) : Issues s ((i, r) :: h) u

/-- A Handle has just been constructed with this configuration and nothing has been done with it (R24, R158). -/
structure FreshHandle (p : Params) (rows : RowCount) (cell : CellSize) (s : State) : Prop where
  phase : s.phase = .idle
  program : s.program = []
  current : s.current = none
  lifecycle : s.lifecycle = .uninitialized
  bl : s.bl = false
  dc : s.dc = ⟨false, false, false⟩
  em : s.em = ⟨false, false⟩
  trace : s.trace = []
  answers : s.answers = []
  params : s.params = p
  rows : s.rows = rows
  cell : s.cell = cell

/-- A well-formed sequence of operations since reset, with their answers (R159): one that the driver issues on a new Handle
when it is called with operations only. The gate lets `enable` through first and once, the driver issues the expansion of
each call and cuts it at the first `err(e)` (R141), and stopping anywhere gives a prefix. It is a condition on the
operations: whether the driver or a list of raw command words issued them makes no difference (log entry 26). -/
def WellFormedHistory (p : Params) (rows : RowCount) (cell : CellSize) (h : List (Instr × Reply)) : Prop :=
  ∃ s t, FreshHandle p rows cell s ∧ Issues s h t

/-- The operations issued since reset are a well-formed sequence, and the driver issued them, so that `s` is where the
driver stands after them. This is the premise of every claim about what a call of the driver comes to (R159; log entry
26). -/
def WellFormedSoFar (s : State) : Prop := ∃ f h, FreshHandle s.params s.rows s.cell f ∧ Issues f h s

/-- The gap of R114 as operations: none, or one WAIT. -/
def gapOps : Option WaitCount → List Instr
  | none => []
  | some d => [.wait d]

/-- The whole expansion of `enable` on a new Handle as operations (R112, R118 to R120, R126). -/
def enableOps (p : Params) (rows : RowCount) (cell : CellSize) : List Instr :=
  [.wait p.tPowerOnMs] ++
  [.nib 0x3#4] ++ gapOps p.initGaps.gap1 ++ [.nib 0x3#4] ++ gapOps p.initGaps.gap2 ++
  [.nib 0x3#4] ++ gapOps p.initGaps.gap3 ++ [.nib 0x2#4] ++ gapOps p.initGaps.gap4 ++
  [.sendC (functionSetByte rows cell)] ++ gapOps p.initGaps.gap5 ++
  [.sendC 0x06#8, .setbl true, .sendC p.blRefresh.whenOn, .sendC 0x0C#8, .sendC 0x01#8, .sendC 0x80#8]

end Sys2Proof.Machine
end

