-- ==== Sys2Proof/Certificates/Slice0/Obligations.lean ====
section
/-! DEFINITION. The statements about the machine, each from the numbered rules of spec/. -/

open Sys2Proof Sys2Proof.Machine

/-! ### Encoding and decoding -/

/-- R56, R51: words written out bit by bit from the opcode map decode to the operations they stand for, and words with a
bit set in a zero field, or with another major opcode, are reserved (the words of spec/95_test_vectors.md V-DEC). -/
def Obligations.WrittenOutWordsDecode : Prop :=
  decode 0b0001000001000001#16 = .instr (.sendC 0x41#8) ∧
  decode 0b0001000111111111#16 = .instr (.sendD 0xFF#8) ∧
  decode 0b0010000000001111#16 = .instr (.nib 0xF#4) ∧
  decode 0b0011000000000001#16 = .instr (.setbl true) ∧
  decode 0b0100000000110010#16 = .instr (.wait 50#12) ∧
  decode 0b0001001001000001#16 = .reserved .formatB ∧
  decode 0b0010000000010011#16 = .reserved .formatN ∧
  decode 0b0011000000000010#16 = .reserved .formatF ∧
  decode 0b0101000000000000#16 = .reserved .opcode

/-- R51, R56, R61: decoding the command word of any well-formed operation gives it back, with every operand at every value
its field admits. -/
def Obligations.DecodeOfEncode : Prop :=
  ∀ i : Instr, i.wellFormed = true → decode (encode i) = .instr i

/-- R62: decoding is unambiguous: a word that decodes to an operation is that operation's one command word. -/
def Obligations.EncodeOfDecode : Prop :=
  ∀ (w : Word) (i : Instr), decode w = .instr i → encode i = w

/-- R56, R62: for every word exactly one row of the opcode map matches and it is the row of the operation decoded, or none
matches and the word is reserved. -/
def Obligations.ExactlyOneRowMatchesOrReserved : Prop :=
  ∀ w : Word,
    (∃ i, decode w = .instr i ∧ opcodeMap.filter (fun r => r.selects w) = [opcodeRowOf i]) ∨
    (∃ why, decode w = .reserved why ∧ opcodeMap.filter (fun r => r.selects w) = [])

/-- R57: which words are reserved, each case by its field, and that offering one is refused: no outcome with a next
state, so no primitive call and no state change. The refusal is log entry 19. -/
def Obligations.ReservedWordsAreRefused : Prop :=
  (∀ w : Word, (∃ why, decode w = .reserved why) ↔ opcodeMap.filter (fun r => r.selects w) = []) ∧
  (∀ w : Word, decode w = .reserved .opcode ↔ opcodeField w = 0#4 ∨ 5#4 ≤ opcodeField w) ∧
  (∀ w : Word, decode w = .reserved .formatB ↔ opcodeField w = 1#4 ∧ w.extractLsb' 9 3 ≠ 0#3) ∧
  (∀ w : Word, decode w = .reserved .formatN ↔ opcodeField w = 2#4 ∧ w.extractLsb' 4 8 ≠ 0#8) ∧
  (∀ w : Word, decode w = .reserved .formatF ↔ opcodeField w = 3#4 ∧ w.extractLsb' 1 11 ≠ 0#11) ∧
  (∀ (s : State) (w : Word) (rest : List HostTask) (why : Reserved),
    OffersNext s w rest → decode w = .reserved why → step s = .refused (.reservedWord why))

/-- R61: the operands are the unsigned fields of the word, and the count of a WAIT is the number of milliseconds it asks
for. -/
def Obligations.OperandsAreTheWordsFields : Prop :=
  (∀ (w : Word) (b : Byte), decode w = .instr (.sendC b) → b = w.extractLsb' 0 8 ∧ w.getLsbD 8 = false) ∧
  (∀ (w : Word) (b : Byte), decode w = .instr (.sendD b) → b = w.extractLsb' 0 8 ∧ w.getLsbD 8 = true) ∧
  (∀ (w : Word) (n : Nibble), decode w = .instr (.nib n) → n = w.extractLsb' 0 4) ∧
  (∀ (w : Word) (f : Bool), decode w = .instr (.setbl f) → f = w.getLsbD 0) ∧
  (∀ (w : Word) (d : WaitCount), decode w = .instr (.wait d) → d = w.extractLsb' 0 12) ∧
  (∀ (w : Word) (d : WaitCount) (s : State), decode w = .instr (.wait d) → s.phase = .idle →
    ∃ t, exec (.wait d) s = .next t ∧ t.trace = s.trace ++ [.delay (w.toNat % 4096)])

/-! ### The output byte -/

/-- R53: the two nibbles of a byte and their contribution to a frame, with the nibble in bits 7:4 as this layout has
it. The position of the nibble in the byte is the presumed layout of log entry 2. -/
def Obligations.NibblesSplitAndPlaced : Prop :=
  ∀ b : Byte,
    highNibble b ++ lowNibble b = b ∧
    placeNibble tableLayout (highNibble b) = b &&& 0xF0#8 ∧
    placeNibble tableLayout (lowNibble b) = (b <<< 4) &&& 0xF0#8

/-- R54: the frame function, for every layout R4 admits: the OR of the placed nibble, the mode bit and the backlight
bit; enable and RW are clear; the first write adds the enable bit, clearing it gives the second write, and the two
differ in exactly that bit. At the table's layout the frame is `(n << 4) | (bl << 3) | m` and the first write is that
plus 4. The second part is about the presumed layout of log entry 2. -/
def Obligations.FrameComposition : Prop :=
  (∀ L : Layout, L.Valid → ∀ (n : Nibble) (m : Mode) (bl : Bool),
    frame L n m bl =
      (n.setWidth 8 <<< L.nibShift) ||| (if m = .data then L.rsMask else 0#8) ||| (if bl then L.blMask else 0#8) ∧
    frame L n m bl &&& L.enMask = 0#8 ∧
    frame L n m bl &&& L.rwMask = 0#8 ∧
    withEnable L (frame L n m bl) &&& ~~~L.enMask = frame L n m bl ∧
    withEnable L (frame L n m bl) ^^^ frame L n m bl = L.enMask) ∧
  (∀ (n : Nibble) (m : Mode) (bl : Bool),
    frame tableLayout n m bl =
      (n.setWidth 8 <<< 4) ||| ((BitVec.ofBool bl).setWidth 8 <<< 3) ||| (if m = .data then 1#8 else 0#8) ∧
    withEnable tableLayout (frame tableLayout n m bl) = frame tableLayout n m bl + 4#8)

/-- R55: two frames of one layout are equal only with the same nibble, mode and backlight, and no frame equals a frame with
enable set: so no two of the 128 bytes a layout gives are equal. -/
def Obligations.FramesAreDistinct : Prop :=
  ∀ L : Layout, L.Valid → ∀ (n n' : Nibble) (m m' : Mode) (bl bl' : Bool),
    (frame L n m bl = frame L n' m' bl' → n = n' ∧ m = m' ∧ bl = bl') ∧
    (withEnable L (frame L n m bl) = withEnable L (frame L n' m' bl') → n = n' ∧ m = m' ∧ bl = bl') ∧
    frame L n m bl ≠ withEnable L (frame L n' m' bl')

/-- R55, R71: every bus write an operation makes goes to `ADDR`, has RW clear, carries the backlight register, and the
mode bit of the operation: set for SEND.D alone. That the eighth line RW is held 0 and that mode 1 selects the data
register are presumed (log entry 2). -/
def Obligations.EveryWriteCarriesTheFlags : Prop :=
  ∀ (i : Instr) (s t : State), s.phase = .idle → s.params.layout.Valid → exec i s = .next t →
    ∃ evs, t.trace = s.trace ++ evs ∧
      ∀ a v r, Event.write a v r ∈ evs →
        a = s.addr ∧ v &&& s.params.layout.rwMask = 0#8 ∧
        (v &&& s.params.layout.blMask ≠ 0#8 ↔ s.bl = true) ∧
        (v &&& s.params.layout.rsMask ≠ 0#8 ↔ ∃ b, i = .sendD b)

/-! ### The primitives and the exception -/

/-- R70: what a bus write does: the event; on `ok` the byte in `P`; on `err(e)` the exception with that `e` (and `P` is then
a free value, so nothing is said of it). Nothing of the block or the host changes, nor the delay requested so far. -/
def Obligations.BusWriteAnswersAndRecords : Prop :=
  ∀ (a : BusAddr) (v : Byte) (s : State),
    (nextReply s 0 = .ok → ∃ t, busWrite a v s = .returned t ∧ t.trace = s.trace ++ [.write a v .ok] ∧ t.p = v ∧
      HostSideUnchanged s t ∧ t.bl = s.bl ∧ t.phase = s.phase ∧ t.latches = s.latches ∧ t.answers = s.answers ∧
      t.waited = s.waited) ∧
    (∀ e, nextReply s 0 = .err e → ∃ t, busWrite a v s = .raised e t ∧ t.trace = s.trace ++ [.write a v (.err e)] ∧
      HostSideUnchanged s t ∧ t.bl = s.bl ∧ t.phase = s.phase ∧ t.latches = s.latches ∧ t.answers = s.answers ∧
      t.waited = s.waited)

/-- R152: taking the exception: `PHASE` is `IDLE`, the operation answers `err(e)` with the value unchanged, and `ADDR`, `BL`,
the trace and everything of the host are as they were. -/
def Obligations.TransportErrorEntry : Prop :=
  ∀ (e : ErrorValue) (s : State),
    (takeTransportError e s).phase = .idle ∧
    (takeTransportError e s).answers = s.answers ++ [.err e] ∧
    (takeTransportError e s).bl = s.bl ∧
    (takeTransportError e s).trace = s.trace ∧
    (takeTransportError e s).waited = s.waited ∧
    HostSideUnchanged s (takeTransportError e s) ∧ BusSideUnchanged s (takeTransportError e s)

/-! ### The operations -/

/-- R90, R87 to R89: a SEND whose four writes are answered `ok` appends its eight events and answers `ok`; `P` holds
the last byte written, `BL` is unchanged, and nothing of the host changes. A SEND that has answered `ok` has appended
exactly those events. The figure 12 is of the exact delays of log entry 3. -/
def Obligations.SendReturnsOkAfterEightEvents : Prop :=
  ∀ (i : Instr) (m : Mode) (b : Byte) (s : State),
    (i = .sendC b ∧ m = .command ∨ i = .sendD b ∧ m = .data) → s.phase = .idle →
    (RepliesOk s 4 → ∃ t, exec i s = .next t ∧ t.trace = s.trace ++ sendEvents s b m ∧
      t.answers = s.answers ++ [.ok] ∧ t.phase = .idle ∧ t.p = lowFrame s b m ∧ t.bl = s.bl ∧
      HostSideUnchanged s t ∧ t.env = s.env.drop 4 ∧ t.busCalls = s.busCalls + 4) ∧
    (∀ t, exec i s = .next t → t.answers = s.answers ++ [.ok] → t.trace = s.trace ++ sendEvents s b m) ∧
    (sendEvents s b m).length = 8 ∧ writeCount (sendEvents s b m) = 4 ∧ delayCount (sendEvents s b m) = 4 ∧
    requestedDelay (sendEvents s b m) = 2 * (s.params.tEnMs + s.params.tSettleMs) ∧
    (s.params = tableParams → requestedDelay (sendEvents s b m) = 12)

/-- R91, R152: a SEND whose write `k + 1` is the first to fail answers that error, has appended the events of its row of the
table, is idle again, and leaves `BL` and everything of the host as it was. `P` and the latches are free values. -/
def Obligations.SendFailsAtEachOfItsWrites : Prop :=
  ∀ (i : Instr) (m : Mode) (b : Byte) (s : State) (k : Fin 4) (e : ErrorValue),
    (i = .sendC b ∧ m = .command ∨ i = .sendD b ∧ m = .data) → s.phase = .idle → FailsAt s k e →
    ∃ t, exec i s = .next t ∧ t.trace = s.trace ++ failedSendEvents s b m k e ∧
      t.answers = s.answers ++ [.err e] ∧ t.phase = .idle ∧ t.bl = s.bl ∧ HostSideUnchanged s t ∧
      t.env = s.env.drop (k + 1) ∧ t.busCalls = s.busCalls + (k + 1)

/-- R92: a NIB whose two writes are answered `ok` appends the four events of one pulse, command framing and the current
backlight, and answers `ok`. -/
def Obligations.NibReturnsOkAfterOnePulse : Prop :=
  ∀ (n : Nibble) (s : State), s.phase = .idle → RepliesOk s 2 →
    ∃ t, exec (.nib n) s = .next t ∧ t.trace = s.trace ++ pulseEvents s (frame s.params.layout n .command s.bl) ∧
      t.answers = s.answers ++ [.ok] ∧ t.phase = .idle ∧ t.p = frame s.params.layout n .command s.bl ∧ t.bl = s.bl ∧
      HostSideUnchanged s t ∧ t.env = s.env.drop 2 ∧ t.busCalls = s.busCalls + 2

/-- R92, R86, R152: a NIB fails at each of its two writes, with the events up to and including the failed one. -/
def Obligations.NibFailsAtEachOfItsWrites : Prop :=
  ∀ (n : Nibble) (s : State) (k : Fin 2) (e : ErrorValue), s.phase = .idle → FailsAt s k e →
    ∃ t, exec (.nib n) s = .next t ∧
      t.trace = s.trace ++ failedPulseEvents s (frame s.params.layout n .command s.bl) (k == 1) e ∧
      t.answers = s.answers ++ [.err e] ∧ t.phase = .idle ∧ t.bl = s.bl ∧ HostSideUnchanged s t ∧
      t.env = s.env.drop (k + 1) ∧ t.busCalls = s.busCalls + (k + 1)

/-- R95: SETBL sets `BL` and answers `ok`, whatever the environment; nothing else changes: no event, no latch, not `P`. -/
def Obligations.SetblWritesTheFlagAlone : Prop :=
  ∀ (f : Bool) (s : State), s.phase = .idle →
    exec (.setbl f) s = .next { s with bl := f, answers := s.answers ++ [.ok] }

/-- R97, R78: WAIT appends one delay event with its count, `WAIT 0` too, and answers `ok`, whatever the environment;
it does not touch the bus, `BL` or anything of the host. That every primitive call answers is log entry 4. -/
def Obligations.WaitMakesOneDelayCall : Prop :=
  ∀ (d : WaitCount) (s : State), s.phase = .idle →
    ∃ t, exec (.wait d) s = .next t ∧ t.trace = s.trace ++ [.delay d.toNat] ∧ t.answers = s.answers ++ [.ok] ∧
      t.phase = .idle ∧ t.bl = s.bl ∧ HostSideUnchanged s t ∧ BusSideUnchanged s t ∧ t.waited = s.waited + d.toNat

/-- R94: an idle block carries out every operation and answers it exactly once, and is idle again. That every
operation ends rests on log entry 4: every call of a primitive answers. -/
def Obligations.EveryOperationIsAnsweredOnce : Prop :=
  ∀ (i : Instr) (s : State), s.phase = .idle →
    ∃ t r, exec i s = .next t ∧ t.answers = s.answers ++ [r] ∧ t.phase = .idle

/-- R94: an operation offered while another is in progress is carried out once that one has run to its answer; until then
a step of the machine makes one primitive call of the one in progress, and the offer stays where it is unless that call
ended it with an error (R141). That `exec` drains the operation in progress is the model's rendering of the wait (log
entries 1 and 13), and that it runs to its answer rests on log entry 4: every call of a primitive answers. -/
def Obligations.OfferWaitsWhileBusy : Prop :=
  ∀ s : State, s.phase ≠ .idle → Coherent s →
    (runToIdle s).phase = .idle ∧
    (∃ r, (runToIdle s).answers = s.answers ++ [r]) ∧
    (∀ i, exec i s = exec i (runToIdle s)) ∧
    (∃ t call, step s = .next t ∧ t.trace = s.trace ++ [call] ∧
      (t.program = s.program ∨ (t.program = [] ∧ ∃ e, t.answers = s.answers ++ [.err e])))

/-- R151, R150: an idle block's operation answers `err(e)` exactly when one of the bus writes it gets to is answered
`err(e)`; SETBL and WAIT, which make none, never. -/
def Obligations.ErrorAnswersComeFromBusWrites : Prop :=
  ∀ (i : Instr) (s t : State) (e : ErrorValue), s.phase = .idle → exec i s = .next t →
    (t.answers = s.answers ++ [.err e] ↔ ∃ k, k < busWritesOf i ∧ FailsAt s k e)

/-- R152, R153: the failed write is the last event of the operation that answers `err(e)`, and every write before it was
answered `ok`; an operation that answers `ok` has no failed write. -/
def Obligations.FailedWriteIsTheLastEvent : Prop :=
  ∀ (i : Instr) (s t : State), s.phase = .idle → exec i s = .next t →
    ∃ evs, (∀ a v r, Event.write a v r ∈ evs → r = .ok) ∧
      ((t.answers = s.answers ++ [.ok] ∧ t.trace = s.trace ++ evs) ∨
       (∃ a v e, t.answers = s.answers ++ [.err e] ∧ t.trace = s.trace ++ evs ++ [.write a v (.err e)]))

/-- R25, R11, R12: no operation writes anything of the host or of the construction; only SETBL writes `BL`; SETBL and WAIT do
not touch the bus side. -/
def Obligations.OperationFrame : Prop :=
  ∀ (i : Instr) (s t : State), s.phase = .idle → exec i s = .next t →
    HostSideUnchanged s t ∧
    (t.bl = s.bl ∨ ∃ f, i = .setbl f ∧ t.bl = f) ∧
    (busWritesOf i = 0 → BusSideUnchanged s t) ∧
    ((∃ f, i = .setbl f) → t.trace = s.trace ∧ t.latches = s.latches ∧ t.waited = s.waited)

/-- R191, R81: when no write fails, the bus writes, the delay calls and the requested delay of each operation. -/
def Obligations.RequestedDelaysOfOperations : Prop :=
  ∀ (i : Instr) (s : State), s.phase = .idle → RepliesOk s (busWritesOf i) →
    ∃ t evs, exec i s = .next t ∧ t.answers = s.answers ++ [.ok] ∧ t.trace = s.trace ++ evs ∧
      writeCount evs = busWritesOf i ∧ delayCount evs = delayCallsOf i ∧
      requestedDelay evs = requestedDelayOf s.params i

/-- R96, R188: SETBL alone leaves `P` as it is; the new flag is on the line with the first bus write of the next operation
that makes one. -/
def Obligations.BacklightReachesTheLineAtTheNextWrite : Prop :=
  ∀ (f : Bool) (i : Instr) (s t u : State), s.phase = .idle → s.params.layout.Valid → busWritesOf i ≠ 0 →
    exec (.setbl f) s = .next t → exec i t = .next u →
    t.p = s.p ∧ ∃ v r rest, u.trace = s.trace ++ .write s.addr v r :: rest ∧
      (v &&& s.params.layout.blMask ≠ 0#8 ↔ f = true)

/-- R38, R37, R91, R187: what the controller is given. A SEND that returned `ok` adds its two nibbles, high first and with
its mode, to the nibble stream of the trace, and the pair is the byte sent. With the controller in 4-bit mode, enable
clear, and the 40 ms after power-on over by the delays requested (log entry 27): such a SEND leaves an aligned pairing
aligned; a NIB that returned `ok`, and a SEND whose third write failed, add one nibble to the stream and leave the pairing
shifted by one; an operation whose first write failed gives no nibble and leaves the controller as it was. Of traffic that
may come earlier nothing is said but the stream. The reading of the lines is log entry 22, the controller's state is log
entry 9. -/
def Obligations.NibbleStreamOfASend : Prop :=
  (∀ (i : Instr) (m : Mode) (b : Byte) (s t : State),
    (i = .sendC b ∧ m = .command ∨ i = .sendD b ∧ m = .data) → s.phase = .idle → s.params.layout.Valid →
    exec i s = .next t → t.answers = s.answers ++ [.ok] →
    nibbleStream t.params.layout t.addr t.trace =
      nibbleStream s.params.layout s.addr s.trace ++ [(m, highNibble b), (m, lowNibble b)] ∧
    receivedBytes [(m, highNibble b), (m, lowNibble b)] = [some (m, b)]) ∧
  (∀ (i : Instr) (m : Mode) (b : Byte) (n : Nibble) (s : State),
    (i = .sendC b ∧ m = .command ∨ i = .sendD b ∧ m = .data) → s.phase = .idle → s.params.layout.Valid →
    tPowerOnMinMs ≤ s.waited → enableSet s.params.layout s.p = false → s.controller.width = .fourBit →
    (RepliesOk s 4 → s.controller.nextHalf = .first → ∃ t, exec i s = .next t ∧ t.controller.nextHalf = .first) ∧
    (∀ e, FailsAt s 2 e → ∃ t, exec i s = .next t ∧ t.controller.nextHalf = s.controller.nextHalf.other ∧
      nibbleStream t.params.layout t.addr t.trace =
        nibbleStream s.params.layout s.addr s.trace ++ [(m, highNibble b)]) ∧
    (RepliesOk s 2 → ∃ t, exec (.nib n) s = .next t ∧ t.controller.nextHalf = s.controller.nextHalf.other ∧
      nibbleStream t.params.layout t.addr t.trace =
        nibbleStream s.params.layout s.addr s.trace ++ [(.command, n)]) ∧
    (∀ e, FailsAt s 0 e → (∃ t, exec i s = .next t ∧ t.controller = s.controller) ∧
      (∃ t, exec (.nib n) s = .next t ∧ t.controller = s.controller)))

/-- R15, R155, R14, R33: what an operation of an idle block appends and answers depends only on `ADDR`, `BL`, the parameters
and the environment: not on earlier answers, on the trace, on `P`, on the controller or on the latches left over. -/
def Obligations.OperationsKeepNoMemoryOfThePast : Prop :=
  ∀ (i : Instr) (s u t : State), s.phase = .idle → u.phase = .idle →
    u.addr = s.addr → u.bl = s.bl → u.params = s.params → u.env = s.env → u.busCalls = s.busCalls →
    exec i s = .next t →
    ∃ t' evs r, exec i u = .next t' ∧ t.trace = s.trace ++ evs ∧ t'.trace = u.trace ++ evs ∧
      t.answers = s.answers ++ [r] ∧ t'.answers = u.answers ++ [r] ∧ t'.bl = t.bl ∧ t'.phase = t.phase

/-- R72, R150: the block copies the error value and never inspects it: with every error value the environment will give
renamed, the events and the answer are the same with the error renamed. -/
def Obligations.ErrorValueIsCopiedNotInspected : Prop :=
  ∀ (f : ErrorValue → ErrorValue) (i : Instr) (s t : State), s.phase = .idle → busWritesOf i ≤ s.env.length →
    exec i s = .next t →
    ∃ u evs r, exec i { s with env := s.env.map (renameReply f) } = .next u ∧
      t.trace = s.trace ++ evs ∧ u.trace = s.trace ++ evs.map (renameEvent f) ∧
      t.answers = s.answers ++ [r] ∧ u.answers = s.answers ++ [renameReply f r] ∧ u.bl = t.bl ∧ u.phase = t.phase

/-! ### The sequencer -/

/-- R13: the transition table of `PHASE`. A write row goes on at the position after it, or, on `err(e)`, to `IDLE` with that
answer; a delay row cannot fail; `H_TS` goes on to the low nibble for a SEND and ends a NIB. Acceptance puts `PHASE` before
the operation's first primitive call, and leaves it in `IDLE` for SETBL. -/
def Obligations.SequencerFollowsTheTable : Prop :=
  (∀ (s : State) (v : Byte) (after : Phase),
    (s.phase = .hWE ∧ v = withEnable s.params.layout (latchedFrame .high s) ∧ after = .hTE ∨
     s.phase = .hWC ∧ v = latchedFrame .high s ∧ after = .hTS ∨
     s.phase = .lWE ∧ v = withEnable s.params.layout (latchedFrame .low s) ∧ after = .lTE ∨
     s.phase = .lWC ∧ v = latchedFrame .low s ∧ after = .lTS) →
    (nextReply s 0 = .ok → ∃ t, step s = .next t ∧ t.phase = after ∧ t.trace = s.trace ++ [.write s.addr v .ok] ∧
      t.p = v ∧ t.latches = s.latches ∧ t.answers = s.answers) ∧
    (∀ e, nextReply s 0 = .err e → ∃ t, step s = .next t ∧ t.phase = .idle ∧
      t.trace = s.trace ++ [.write s.addr v (.err e)] ∧ t.answers = s.answers ++ [.err e])) ∧
  (∀ (s : State) (n : Nat) (after : Phase),
    (s.phase = .hTE ∧ n = s.params.tEnMs ∧ after = .hWC ∨
     s.phase = .hTS ∧ s.latches.opk = .send ∧ n = s.params.tSettleMs ∧ after = .lWE ∨
     s.phase = .lTE ∧ n = s.params.tEnMs ∧ after = .lWC) →
    ∃ t, step s = .next t ∧ t.phase = after ∧ t.trace = s.trace ++ [.delay n] ∧ t.latches = s.latches ∧
      t.answers = s.answers) ∧
  (∀ (s : State) (n : Nat),
    (s.phase = .hTS ∧ s.latches.opk = .nib ∧ n = s.params.tSettleMs ∨
     s.phase = .lTS ∧ n = s.params.tSettleMs ∨
     s.phase = .wt ∧ n = s.latches.wcnt.toNat) →
    ∃ t, step s = .next t ∧ t.phase = .idle ∧ t.trace = s.trace ++ [.delay n] ∧ t.answers = s.answers ++ [.ok]) ∧
  (∀ (s : State) (b : Byte) (n : Nibble) (d : WaitCount) (f : Bool), s.phase = .idle →
    (accept (.sendC b) s).phase = .hWE ∧ (accept (.sendD b) s).phase = .hWE ∧ (accept (.nib n) s).phase = .hWE ∧
    (accept (.wait d) s).phase = .wt ∧ (accept (.setbl f) s).phase = .idle)

/-- R14: what acceptance latches: kind, byte and mode for a SEND, the nibble in bits 7:4 and mode command for a NIB, kind
and count for a WAIT, nothing for SETBL; every other latch is kept. -/
def Obligations.AcceptanceLoadsTheLatches : Prop :=
  ∀ (s : State) (b : Byte) (n : Nibble) (d : WaitCount) (f : Bool),
    (accept (.sendC b) s).latches = ⟨.send, b, .command, s.latches.wcnt⟩ ∧
    (accept (.sendD b) s).latches = ⟨.send, b, .data, s.latches.wcnt⟩ ∧
    (accept (.nib n) s).latches = ⟨.nib, n ++ 0#4, .command, s.latches.wcnt⟩ ∧
    (accept (.wait d) s).latches = ⟨.wait, s.latches.byte, s.latches.mode, d⟩ ∧
    (accept (.setbl f) s).latches = s.latches

/-- R13, R87, R92, R97: an operation as its pseudocode has it is its acceptance followed by the sequencer's primitive
calls, one by one, until it is idle again: the two descriptions give the same state. Both renderings are the model's
(log entry 1). That the operation ends rests on log entry 4. -/
def Obligations.OperationIsAcceptanceThenSequencer : Prop :=
  ∀ (i : Instr) (s : State), s.phase = .idle → exec i s = .next (runToIdle (accept i s))

/-- R13, R94: in every state whose operation fits its position no step faults, and the state after it fits again. A busy
machine faults exactly where R13's table has no row (the model's choice, log entry 14). -/
def Obligations.CoherentStatesNeverFault : Prop :=
  (∀ s : State, Coherent s → (∀ r, step s ≠ .fault r) ∧ (∀ t, step s = .next t → Coherent t)) ∧
  (∀ s : State, s.phase ≠ .idle → (step s = .fault .noTransition ↔ s.phase = .hTS ∧ s.latches.opk = .wait))

/-! ### The step -/

/-- R47, R80: when the block is idle and the host offers a command word that decodes to an operation, the step is that
operation at that state, with the word taken from the host's list before it and the host taking the answer after it. A
word placed by `withFetchWord` is offered next. That one step carries out the whole operation, and how a word is placed,
are log entries 1 and 12. -/
def Obligations.StepRunsTheOfferedOperation : Prop :=
  (∀ (s : State) (w : Word) (rest : List HostTask) (i : Instr), OffersNext s w rest → decode w = .instr i →
    ∃ t, exec i { s with program := rest } = .next t ∧ step s = .next (takeAnswer t)) ∧
  (∀ (s : State) (w : Word), OffersNext (s.withFetchWord 16 w.toNat) w s.program)

/-- R141, R99: the host goes on after an operation that answered `ok`. After one that answered `err(e)` the call stops there:
what it still had to do is dropped, it returns that error unchanged, the events already made stand, and the accumulators
keep their values. A call with nothing left to do returns `ok`. -/
def Obligations.HostStopsAtTheFirstError : Prop :=
  (∀ (s u : State) (w : Word) (rest : List HostTask) (i : Instr), OffersNext s w rest → decode w = .instr i →
    exec i { s with program := rest } = .next u →
    (u.answers = s.answers ++ [.ok] → step s = .next u ∧ u.program = rest ∧ u.current = s.current) ∧
    (∀ e, u.answers = s.answers ++ [.err e] → ∃ t, step s = .next t ∧ t.program = [] ∧ t.current = none ∧
      (∀ c, s.current = some c → t.results = s.results ++ [.err e]) ∧
      t.trace = u.trace ∧ t.answers = u.answers ∧ t.bl = s.bl ∧ t.dc = s.dc ∧ t.em = s.em ∧ t.calls = s.calls)) ∧
  (∀ (s : State) (c : HostCall), s.phase = .idle → s.program = [] → s.current = some c →
    step s = .next { s with current := none, results := s.results ++ [.ok (returnValue c)] })

/-- R113, R159: called after a well-formed sequence of operations, `enable` returns the error of whichever of its writes
fails and leaves no handle, whatever the gaps; without a handle every operation and every list of command words is
refused. `gone` is the model's name for no handle, and its refusals are the model's (log entry 18). How a well-formed
sequence is read is log entry 26. That every primitive call answers is log entry 4. -/
def Obligations.FailedEnableLeavesNoHandle : Prop :=
  (∀ (s : State) (rest : List HostCall) (k : Nat) (e : ErrorValue),
    WellFormedSoFar s → CallsNext s (.op .enable) rest → s.lifecycle = .uninitialized → k < 32 → FailsAt s k e →
    ∃ t issued, Issues s issued t ∧ t.lifecycle = .gone ∧ t.results = s.results ++ [.err e] ∧ t.phase = .idle ∧
      t.program = [] ∧ t.current = none ∧ t.calls = rest) ∧
  (∀ (s : State) (o : HostOp) (ws : List Word) (rest : List HostCall), s.lifecycle = .gone →
    (CallsNext s (.op o) rest → step s = .refused .lifecycleGate) ∧
    (CallsNext s (.commandWords ws) rest → step s = .refused .lifecycleGate))

/-- R158, R140, R58, R100, R159: the lifecycle gate. On the calls of the application: `enable` begins on an uninitialized
handle only, every other operation on an initialized one only, and what the gate forbids is refused; dropping the handle
makes no primitive call; a list of command words on a live handle is refused as a whole if it holds a reserved word and
is otherwise issued in order; a sequence of calls that is well formed is never stopped at its next call. As a condition
on the operations issued: a well-formed history is a beginning of the expansion of `enable`, or goes on from the whole of
it, and an error inside that expansion is its end. The refusals, and the run-time tag, are the model's rendering of a
build-time error (log entries 18 and 19); how a history is read off a run is log entry 26; the codes are log entry 16,
the accumulators at reset log entry 11. -/
def Obligations.LifecycleGateOnCalls : Prop :=
  (∀ (s : State) (o : HostOp) (rest : List HostCall), CallsNext s (.op o) rest →
    ((o = .enable ∧ s.lifecycle = .uninitialized ∨ o ≠ .enable ∧ s.lifecycle = .initialized) →
      step s = .next { s with calls := rest, program := [.call o], current := some (.op o) }) ∧
    (¬(o = .enable ∧ s.lifecycle = .uninitialized ∨ o ≠ .enable ∧ s.lifecycle = .initialized) →
      step s = .refused .lifecycleGate)) ∧
  (∀ (s : State) (rest : List HostCall), CallsNext s .drop rest →
    (s.lifecycle ≠ .gone →
      step s = .next { s with calls := rest, lifecycle := .gone, results := s.results ++ [.ok none] }) ∧
    (s.lifecycle = .gone → step s = .refused .lifecycleGate)) ∧
  (∀ (s : State) (ws : List Word) (rest : List HostCall), CallsNext s (.commandWords ws) rest → s.lifecycle ≠ .gone →
    ((∃ w ∈ ws, ∃ why, decode w = .reserved why) → ∃ why, step s = .refused (.reservedWord why)) ∧
    ((∀ w ∈ ws, ∃ i, decode w = .instr i) →
      step s = .next { s with calls := rest, program := ws.map .issue, current := some (.commandWords ws) })) ∧
  (∀ s : State, s.phase = .idle → s.program = [] → s.current = none → wellFormedCalls s.lifecycle s.calls = true →
    ∃ t, step s = .next t) ∧
  (∀ (p : Params) (rows : RowCount) (cell : CellSize) (h : List (Instr × Reply)), WellFormedHistory p rows cell h →
    (h.map Prod.fst <+: enableOps p rows cell ∨ enableOps p rows cell <+: h.map Prod.fst) ∧
    (∀ before i e after, h = before ++ (i, .err e) :: after → before.length < (enableOps p rows cell).length →
      after = []))

/-- R158, R113, R140: how the lifecycle state changes in a step: to uninitialized by construction only, to initialized by
step 5 of `enable` only, and to `gone` only when the handle is dropped or when an operation of `enable` answered an error,
which always does so. `gone` is the model's name for no handle (log entry 18); a construction may replace an initialized
handle (log entry 21). -/
def Obligations.LifecycleHasNoWayBack : Prop :=
  ∀ s t : State, step s = .next t →
    (t.lifecycle = s.lifecycle ∨
      (t.lifecycle = .gone ∧ ((∃ rest, CallsNext s .drop rest) ∨
        (s.current = some (.op .enable) ∧ ∃ e, t.answers = s.answers ++ [.err e]))) ∨
      (t.lifecycle = .uninitialized ∧ ConstructsNext s) ∨
      (t.lifecycle = .initialized ∧ s.phase = .idle ∧ ∃ rest, s.program = .markInitialized :: rest)) ∧
    (s.current = some (.op .enable) → (∃ e, t.answers = s.answers ++ [.err e]) → t.lifecycle = .gone)

/-! ### The host driver -/

/-- R119, R17: each display-control operation sets or clears its one flag, keeps the other two, and sends one command
byte `0x08 | DC` with the new flags, whether or not the flag changed. The codes are the presumed ones of log entry 16.
-/
def Obligations.DisplayControlOperations : Prop :=
  ∀ (s : State) (o : HostOp) (rest : List HostTask) (dc : DisplayControl), BeginsNext s o rest →
    (o = .renderingOn ∧ dc = ⟨true, s.dc.cursor, s.dc.blink⟩ ∨ o = .renderingOff ∧ dc = ⟨false, s.dc.cursor, s.dc.blink⟩ ∨
     o = .cursorOn ∧ dc = ⟨s.dc.display, true, s.dc.blink⟩ ∨ o = .cursorOff ∧ dc = ⟨s.dc.display, false, s.dc.blink⟩ ∨
     o = .cursorBlinkOn ∧ dc = ⟨s.dc.display, s.dc.cursor, true⟩ ∨
     o = .cursorBlinkOff ∧ dc = ⟨s.dc.display, s.dc.cursor, false⟩) →
    step s = .next { s with
      dc := dc
      program := .issue (encode (.sendC (0x08#8 ||| (if dc.display then 0x04#8 else 0#8) |||
        (if dc.cursor then 0x02#8 else 0#8) ||| (if dc.blink then 0x01#8 else 0#8)))) :: rest }

/-- R120, R18: each entry-mode operation sets or clears the left-to-right flag, never the auto-shift flag, and sends
one command byte `0x04 | EM`. The codes are the presumed ones of log entry 16. -/
def Obligations.EntryModeOperations : Prop :=
  ∀ (s : State) (o : HostOp) (rest : List HostTask) (ltr : Bool), BeginsNext s o rest →
    (o = .leftToRight ∧ ltr = true ∨ o = .rightToLeft ∧ ltr = false) →
    step s = .next { s with
      em := ⟨ltr, s.em.autoShift⟩
      program := .issue (encode (.sendC (0x04#8 ||| (if ltr then 0x02#8 else 0#8) |||
        (if s.em.autoShift then 0x01#8 else 0#8)))) :: rest }

/-- R118, R121: the backlight operations are a SETBL and one command-framed write of the open payload; `sleep` and
`wakeup` are two operations each, backlight first. The payload is the open value of log entry 17. -/
def Obligations.BacklightAndSleepExpansions : Prop :=
  ∀ (s : State) (rest : List HostTask),
    (BeginsNext s .backlightOn rest → step s = .next { s with program := (
      .issue (encode (.setbl true)) :: .issue (encode (.sendC s.params.blRefresh.whenOn)) :: rest) }) ∧
    (BeginsNext s .backlightOff rest → step s = .next { s with program := (
      .issue (encode (.setbl false)) :: .issue (encode (.sendC s.params.blRefresh.whenOff)) :: rest) }) ∧
    (BeginsNext s .sleep rest → step s = .next { s with program := (
      .call .backlightOff :: .call .renderingOff :: rest) }) ∧
    (BeginsNext s .wakeup rest → step s = .next { s with program := (
      .call .backlightOn :: .call .renderingOn :: rest) })

/-- R125: `move_cursor_to` issues exactly one command byte, `0x80` OR'd with the offset of the clamped row plus the
column, and is refused when that sum exceeds `0x7F`; where it is issued, the byte is the sum plus `0x80`. The offsets
and the code are the presumed ones of log entry 16, the refusal is log entry 19. -/
def Obligations.MoveCursorIssuesOneByte : Prop :=
  ∀ (s : State) (row col off : Nat) (rest : List HostTask), BeginsNext s (.moveCursorTo row col) rest →
    [0x00, 0x40, 0x14, 0x54][min row (rowCountNat s.rows - 1)]? = some off →
    (off + col ≤ 0x7F → step s = .next { s with program := (
      .issue (encode (.sendC (0x80#8 ||| BitVec.ofNat 8 (off + col)))) :: rest) } ∧
      (0x80#8 ||| BitVec.ofNat 8 (off + col)).toNat = 0x80 + (off + col)) ∧
    (0x7F < off + col → step s = .refused .cursorOutOfRange)

/-- R126, R127: `clear` is clear-display followed immediately by the cursor to (0,0), which is `SEND.C 0x80` whatever
the row count; the scroll operations are one send each. The codes are the presumed ones of log entry 16. -/
def Obligations.ClearAndScrollExpansions : Prop :=
  ∀ (s : State) (rest : List HostTask),
    (BeginsNext s .clear rest → step s = .next { s with program := (
      .issue (encode (.sendC 0x01#8)) :: .call (.moveCursorTo 0 0) :: rest) }) ∧
    (BeginsNext s (.moveCursorTo 0 0) rest → step s = .next { s with program := (
      .issue (encode (.sendC 0x80#8)) :: rest) }) ∧
    (BeginsNext s .scrollLeft rest → step s = .next { s with program := .issue (encode (.sendC 0x18#8)) :: rest }) ∧
    (BeginsNext s .scrollRight rest → step s = .next { s with program := .issue (encode (.sendC 0x1C#8)) :: rest }) ∧
    (BeginsNext s .scrollReset rest → step s = .next { s with program := .issue (encode (.sendC 0x02#8)) :: rest })

/-- R126, R141, R159: called after a well-formed sequence of operations, `clear` with every write answered `ok` issues its
two sends, in that order, makes their sixteen events, returns `ok`, and changes neither the accumulators nor `BL`. The
codes are the presumed ones of log entry 16. How a well-formed sequence is read is log entry 26. That every primitive call
answers is log entry 4. -/
def Obligations.ClearSendsClearThenHome : Prop :=
  ∀ (s : State) (rest : List HostCall),
    WellFormedSoFar s → CallsNext s (.op .clear) rest → s.lifecycle = .initialized → RepliesOk s 8 →
    ∃ t, Issues s [(.sendC 0x01#8, .ok), (.sendC 0x80#8, .ok)] t ∧
      t.trace = s.trace ++ sendEvents s 0x01#8 .command ++ sendEvents s 0x80#8 .command ∧
      t.results = s.results ++ [.ok none] ∧ t.calls = rest ∧ t.current = none ∧ t.program = [] ∧ t.phase = .idle ∧
      t.bl = s.bl ∧ t.dc = s.dc ∧ t.em = s.em

/-- R130, R159: called after a well-formed sequence of operations, the write operations issue one data-framed byte per
unit, in order, for every byte, and return `ok`; with no bytes they issue nothing. A string is given as its stored bytes
(log entry 20). How a well-formed sequence is read is log entry 26. That every primitive call answers is log entry 4. -/
def Obligations.WritesSendEveryByteInOrder : Prop :=
  ∀ (s : State) (o : HostOp) (bs : List Byte) (rest : List HostCall),
    (o = .writeBytes bs ∨ o = .writeStr bs ∨ ∃ b, o = .writeU8 b ∧ bs = [b]) →
    WellFormedSoFar s → CallsNext s (.op o) rest → s.lifecycle = .initialized → RepliesOk s (4 * bs.length) →
    ∃ t, Issues s (bs.map fun b => (.sendD b, .ok)) t ∧ t.trace = s.trace ++ bs.flatMap (fun b => sendEvents s b .data) ∧
      t.results = s.results ++ [.ok none] ∧ t.calls = rest ∧ t.current = none ∧ t.program = [] ∧ t.phase = .idle ∧
      t.bl = s.bl ∧ t.dc = s.dc ∧ t.em = s.em

/-- R130, R141, R159: called after a well-formed sequence of operations, each of the three write operations stops at the
byte that failed: the bytes before it stay written, its own events end at the failed write, nothing after it is issued,
and the error is returned unchanged. A string is given as its stored bytes (log entry 20). How a well-formed sequence is
read is log entry 26. That every primitive call answers is log entry 4. -/
def Obligations.WriteStopsAtTheFailedByte : Prop :=
  ∀ (s : State) (o : HostOp) (before after : List Byte) (b : Byte) (k : Fin 4) (e : ErrorValue) (rest : List HostCall),
    (o = .writeBytes (before ++ b :: after) ∨ o = .writeStr (before ++ b :: after) ∨
      o = .writeU8 b ∧ before = [] ∧ after = []) →
    WellFormedSoFar s → CallsNext s (.op o) rest → s.lifecycle = .initialized →
    FailsAt s (4 * before.length + k) e →
    ∃ t, Issues s ((before.map fun b => (.sendD b, .ok)) ++ [(.sendD b, .err e)]) t ∧
      t.trace = s.trace ++ before.flatMap (fun b => sendEvents s b .data) ++ failedSendEvents s b .data k e ∧
      t.results = s.results ++ [.err e] ∧ t.calls = rest ∧ t.current = none ∧ t.program = [] ∧ t.phase = .idle ∧
      t.bl = s.bl ∧ t.lifecycle = .initialized

/-- R135, R190: `register_custom_char` targets slot 7 for every slot of 0..7: it sends `0x78`, then one data-framed
byte per row in order, and the call returns 7; a slot above 7 is refused. The code is the presumed one of log entry
16, the refusal is log entry 19. -/
def Obligations.CustomCharAlwaysTargetsSlotSeven : Prop :=
  ∀ (s : State) (slot : Nat) (rows : List Byte) (rest : List HostTask),
    BeginsNext s (.registerCustomChar slot rows) rest →
    (slot ≤ 7 → step s = .next { s with program := (
        .issue (encode (.sendC 0x78#8)) :: (rows.map fun d => HostTask.issue (encode (.sendD d))) ++ rest) } ∧
      returnValue (.op (.registerCustomChar slot rows)) = some 7) ∧
    (7 < slot → step s = .refused .slotOutOfRange)

/-- R115: the function-set payload for each row count and cell size. The codes are the presumed ones of log entry 16.
-/
def Obligations.FunctionSetPayload : Prop :=
  functionSetByte .one .dots5x8 = 0x20#8 ∧ functionSetByte .one .dots5x10 = 0x24#8 ∧
  (∀ rows, rowCountNat rows > 1 → functionSetByte rows .dots5x8 = 0x28#8 ∧ functionSetByte rows .dots5x10 = 0x2C#8)

/-- R112, R114, R172: the expansion of `enable`: the power-on wait first, three reset nibbles, the nibble that commits
4-bit mode and one function-set, each followed by its gap if that is not empty, then the tag and the defaults; at the
table's parameters the wait is 50 ms, at least the required 40. The nibbles are the presumed ones of log entry 16, the
50 ms are log entry 3, the gaps are the open values of log entry 17. -/
def Obligations.EnableExpansion : Prop :=
  (∀ (s : State) (rest : List HostTask), BeginsNext s .enable rest →
    step s = .next { s with program := (
      .issue (encode (.wait s.params.tPowerOnMs)) ::
      .issue (encode (.nib 0x3#4)) :: (gapTasks s.params.initGaps.gap1 ++
      .issue (encode (.nib 0x3#4)) :: (gapTasks s.params.initGaps.gap2 ++
      .issue (encode (.nib 0x3#4)) :: (gapTasks s.params.initGaps.gap3 ++
      .issue (encode (.nib 0x2#4)) :: (gapTasks s.params.initGaps.gap4 ++
      .issue (encode (.sendC (functionSetByte s.rows s.cell))) :: (gapTasks s.params.initGaps.gap5 ++
      .markInitialized :: .call .leftToRight :: .call .backlightOn :: .call .renderingOn :: .call .clear :: rest)))))) }) ∧
  gapTasks none = [] ∧ (∀ d, gapTasks (some d) = [.issue (encode (.wait d))]) ∧
  tableParams.tPowerOnMs = 50#12 ∧ tPowerOnMinMs ≤ tableParams.tPowerOnMs.toNat

/-- R173, R159: called on an uninitialized handle after a well-formed sequence of operations, `enable` with every write
answered `ok` and with any gaps issues its whole expansion, makes 32 bus writes and ends initialized with `BL` set,
display-on alone in `DC`, left-to-right alone in `EM`, and `P` the last byte of the final cursor move. That `DC` and `EM`
are clear before it is the accumulators at reset (log entry 11). The codes of the expansion are log entry 16. How a
well-formed sequence is read is log entry 26. That every primitive call answers is log entry 4. -/
def Obligations.EnableEndsInTheDefaultConfiguration : Prop :=
  ∀ (s : State) (rest : List HostCall),
    WellFormedSoFar s → CallsNext s (.op .enable) rest → s.lifecycle = .uninitialized → RepliesOk s 32 →
    ∃ t evs, Issues s ((enableOps s.params s.rows s.cell).map fun i => (i, .ok)) t ∧
      t.lifecycle = .initialized ∧ t.bl = true ∧ t.dc = ⟨true, false, false⟩ ∧ t.em = ⟨true, false⟩ ∧
      t.phase = .idle ∧ t.p = frame s.params.layout 0x0#4 .command true ∧ t.results = s.results ++ [.ok none] ∧
      t.trace = s.trace ++ evs ∧ writeCount evs = 32 ∧ t.calls = rest ∧ t.current = none ∧ t.program = []

/-! ### Reset and construction -/

/-- R24: the state after reset, for everything the rule gives a value. `BL`, `DC` and `EM` clear at reset are inferred
by the spec itself (log entry 11). -/
def Obligations.ResetValues : Prop :=
  State.reset.addr = 0x27#7 ∧ State.reset.rows = .one ∧ State.reset.cell = .dots5x8 ∧ State.reset.bl = false ∧
  State.reset.dc = ⟨false, false, false⟩ ∧ State.reset.em = ⟨false, false⟩ ∧ State.reset.phase = .idle ∧
  State.reset.lifecycle = .uninitialized ∧ State.reset.trace = []

/-- R170, R11, R19: construction resets the block and the host with the configured values, and with `0x27`, one row and 5x8
for what is not configured; it does nothing to the environment, and for the address of the Handle before it leaves the
expander and the controller as they were; a row count outside 1..4 or an address above `0x7F` is refused. What
construction keeps is log entry 21, the devices behind another address are log entry 28, the refusal log entry 19, `BL`,
`DC` and `EM` log entry 11. -/
def Obligations.ConstructionResetsTheBlockAlone : Prop :=
  ∀ (s : State) (a r : Option Nat) (c : Option CellSize) (rest : List HostCall),
    CallsNext s (.construct ⟨a, r, c⟩) rest →
    (a.getD 0x27 ≤ 0x7F → 1 ≤ r.getD 1 → r.getD 1 ≤ 4 → ∃ t, step s = .next t ∧ t.addr.toNat = a.getD 0x27 ∧
      rowCountNat t.rows = r.getD 1 ∧ t.cell = c.getD .dots5x8 ∧
      t.bl = false ∧ t.dc = ⟨false, false, false⟩ ∧ t.em = ⟨false, false⟩ ∧ t.phase = .idle ∧
      t.lifecycle = .uninitialized ∧ t.trace = [] ∧ t.env = s.env ∧ t.busCalls = s.busCalls ∧
      (t.addr = s.addr → BusSideUnchanged s t ∧ t.waited = s.waited) ∧ t.calls = rest) ∧
    (0x7F < a.getD 0x27 ∨ r.getD 1 = 0 ∨ 4 < r.getD 1 → step s = .refused .badConfiguration)

/-! ### Invariants of every step -/

/-- R44, R81, R85, R180: every step keeps the pacing of the two-phase write: each write answered `ok` is followed by its own
delay before anything else, the second write of a nibble is the first with the enable bit cleared, and no delay is
dropped. -/
def Obligations.EveryStepKeepsThePacing : Prop :=
  ∀ s t : State, Paced s → step s = .next t → Paced t

/-- R71, R11, R55: every step keeps this: each bus write of the trace went to `ADDR` and carried a frame or a frame with
enable set. -/
def Obligations.EveryStepKeepsTheTraceFramed : Prop :=
  ∀ s t : State, TraceFramed s → step s = .next t → TraceFramed t

/-- The invariants of every step hold at reset: the pacing, the frames of the trace, and an operation that fits its
position. -/
def Obligations.ResetMeetsTheInvariants : Prop :=
  Paced State.reset ∧ TraceFramed State.reset ∧ Coherent State.reset

/-- R94: a step that finds the block idle leaves it idle: an operation is carried out to its answer. That one step is
a whole operation is the model's choice (log entry 1). That every primitive call answers is log entry 4. -/
def Obligations.IdleStaysIdle : Prop :=
  ∀ s t : State, s.phase = .idle → step s = .next t → t.phase = .idle

/-- R22, R35, R41: the trace only grows: a step appends to it and never drops, merges or reorders an event; only a new
construction starts an empty one. The delay requested since reset grows by what the new events request; a new
construction for the same address keeps it (log entries 27, 28). -/
def Obligations.TraceOnlyGrows : Prop :=
  ∀ s t : State, step s = .next t →
    (∃ evs, t.trace = s.trace ++ evs ∧ t.waited = s.waited + requestedDelay evs) ∨
    (ConstructsNext s ∧ t.trace = [] ∧ (t.addr = s.addr → t.waited = s.waited))

/-- R11, R19, R4: `ADDR`, `ROWS` and `CELL` change by construction only, and the parameters never. -/
def Obligations.ConfigurationIsFixed : Prop :=
  ∀ s t : State, step s = .next t →
    t.params = s.params ∧ ((t.addr = s.addr ∧ t.rows = s.rows ∧ t.cell = s.cell) ∨ ConstructsNext s)

/-- R12: `BL` is written by SETBL only, and set to its reset value by construction. The reset value 0 is log entry 11.
-/
def Obligations.BacklightWrittenBySetblOnly : Prop :=
  ∀ s t : State, step s = .next t →
    t.bl = s.bl ∨
    (∃ w rest f, OffersNext s w rest ∧ decode w = .instr (.setbl f) ∧ t.bl = f) ∨
    (ConstructsNext s ∧ t.bl = false)

/-- R23, R117, R17, R18: when a step changes a flag of `DC` or `EM`, the next thing the host does is to re-transmit the whole
accumulator byte as it now stands; only construction changes them otherwise. -/
def Obligations.ChangedAccumulatorIsRetransmitted : Prop :=
  ∀ s t : State, step s = .next t →
    (t.dc = s.dc ∨ (∃ rest, t.program = .issue (encode (.sendC (displayPayload t.dc))) :: rest) ∨ ConstructsNext s) ∧
    (t.em = s.em ∨ (∃ rest, t.program = .issue (encode (.sendC (entryPayload t.em))) :: rest) ∨ ConstructsNext s)

/-- R18: a step from a state with the auto-shift flag of `EM` clear leaves it clear. -/
def Obligations.AutoShiftStaysClear : Prop :=
  ∀ s t : State, s.em.autoShift = false → step s = .next t → t.em.autoShift = false
end

