-- ==== Sys2Proof/Laws/Frame.lean ====
section
/-! SUPPORT. The bits of the output byte, for every layout R4 admits: what each signal's mask reads from a frame and from a frame with enable set. -/

namespace Sys2Proof.Machine

/-- The eight single bits of a byte. -/
theorem singleBit_cases : ∀ a : Byte, SingleBit a →
    a = 1#8 ∨ a = 2#8 ∨ a = 4#8 ∨ a = 8#8 ∨ a = 16#8 ∨ a = 32#8 ∨ a = 64#8 ∨ a = 128#8 := by decide

/-- Two different single bits share none. -/
theorem singleBit_disjoint (a b : Byte) (ha : SingleBit a) (hb : SingleBit b) (h : a ≠ b) : a &&& b = 0#8 := by
  rcases singleBit_cases a ha with rfl | rfl | rfl | rfl | rfl | rfl | rfl | rfl <;>
    rcases singleBit_cases b hb with rfl | rfl | rfl | rfl | rfl | rfl | rfl | rfl <;>
    first | rfl | exact absurd rfl h

theorem or_and_byte (a b c : Byte) : (a ||| b) &&& c = (a &&& c) ||| (b &&& c) := by
  ext i hi
  simp [Bool.and_or_distrib_right]

/-- Adding a disjoint bit and clearing it again changes nothing. -/
theorem or_and_not_of_disjoint (a b : Byte) (h : a &&& b = 0#8) : (a ||| b) &&& ~~~b = a := by
  ext i hi
  have hbit := congrArg (fun v => v.getLsbD i) h
  simp only [BitVec.getLsbD_and, BitVec.getLsbD_zero] at hbit
  simp only [← BitVec.getLsbD_eq_getElem]
  cases ha : a.getLsbD i <;> cases hb : b.getLsbD i <;> simp_all

/-- Adding a disjoint bit changes exactly that bit. -/
theorem or_xor_of_disjoint (a b : Byte) (h : a &&& b = 0#8) : (a ||| b) ^^^ a = b := by
  ext i hi
  have hbit := congrArg (fun v => v.getLsbD i) h
  simp only [BitVec.getLsbD_and, BitVec.getLsbD_zero] at hbit
  simp only [← BitVec.getLsbD_eq_getElem]
  cases ha : a.getLsbD i <;> cases hb : b.getLsbD i <;> simp_all

section Masks

variable {L : Layout} {x : Byte}

/-- A placed nibble lies in the nibble field. -/
theorem placeNibble_and (n : Nibble) (h : x &&& nibbleField L = 0#8) : placeNibble L n &&& x = 0#8 := by
  have hin : placeNibble L n = placeNibble L n &&& nibbleField L := by
    unfold placeNibble nibbleField
    rw [← BitVec.shiftLeft_and_distrib]
    congr 1
    revert n
    decide
  rw [hin, BitVec.and_assoc, BitVec.and_comm (nibbleField L), h]
  simp

theorem modeBits_and (m : Mode) (h : L.rsMask &&& x = 0#8) : modeBits L m &&& x = 0#8 := by
  cases m <;> simp [modeBits, h]

theorem backlightBits_and (bl : Bool) (h : L.blMask &&& x = 0#8) : backlightBits L bl &&& x = 0#8 := by
  cases bl <;> simp [backlightBits, h]

/-- A frame has no bit outside the nibble field, the mode bit and the backlight bit. -/
theorem frame_and_outside (n : Nibble) (m : Mode) (bl : Bool) (h1 : x &&& nibbleField L = 0#8)
    (h2 : L.rsMask &&& x = 0#8) (h3 : L.blMask &&& x = 0#8) : frame L n m bl &&& x = 0#8 := by
  simp [frame, or_and_byte, placeNibble_and n h1, modeBits_and m h2, backlightBits_and bl h3]

end Masks

section Valid

variable {L : Layout} (v : L.Valid)
include v

/-- The enable bit of a frame is clear. -/
theorem frame_and_enMask (n : Nibble) (m : Mode) (bl : Bool) : frame L n m bl &&& L.enMask = 0#8 := by
  obtain ⟨_, e, r, b, _, er, eb, _, _, _, _, fe, _, _, _⟩ := v
  exact frame_and_outside n m bl fe (singleBit_disjoint _ _ r e er.symm) (singleBit_disjoint _ _ b e eb.symm)

/-- The eighth line of a frame is clear. -/
theorem frame_and_rwMask (n : Nibble) (m : Mode) (bl : Bool) : frame L n m bl &&& L.rwMask = 0#8 := by
  obtain ⟨_, _, r, b, w, _, _, _, _, rw', bw, _, _, _, fw⟩ := v
  exact frame_and_outside n m bl fw (singleBit_disjoint _ _ r w rw') (singleBit_disjoint _ _ b w bw)

/-- The backlight bit of a frame is the backlight flag. -/
theorem frame_and_blMask (n : Nibble) (m : Mode) (bl : Bool) :
    frame L n m bl &&& L.blMask = if bl then L.blMask else 0#8 := by
  obtain ⟨_, _, r, b, _, _, _, _, rb, _, _, _, _, fb, _⟩ := v
  cases bl <;>
    simp [frame, or_and_byte, placeNibble_and n fb, modeBits_and m (singleBit_disjoint _ _ r b rb), backlightBits]

/-- The mode bit of a frame is the mode. -/
theorem frame_and_rsMask (n : Nibble) (m : Mode) (bl : Bool) :
    frame L n m bl &&& L.rsMask = if m = .data then L.rsMask else 0#8 := by
  obtain ⟨_, _, r, b, _, _, _, _, rb, _, _, _, fr, _, _⟩ := v
  cases m <;>
    simp [frame, or_and_byte, placeNibble_and n fr, modeBits, backlightBits_and bl (singleBit_disjoint _ _ b r rb.symm)]

/-- A bit of the nibble field is in no mask. -/
theorem getLsbD_field_of_and (x : Byte) (hx : x &&& nibbleField L = 0#8) (i : Nat) (hi : i < 4) :
    x.getLsbD (L.nibShift + i) = false := by
  have h8 : L.nibShift + i < 8 := by have := v.1; omega
  have hbit := congrArg (fun w => w.getLsbD (L.nibShift + i)) hx
  have h0F : (0x0F#8).getLsbD i = true := by interval_cases i <;> rfl
  have hf : (nibbleField L).getLsbD (L.nibShift + i) = true := by
    simp only [nibbleField, BitVec.getLsbD_shiftLeft, h8, decide_true, Bool.true_and]
    simpa using h0F
  simpa only [BitVec.getLsbD_and, hf, Bool.and_true, BitVec.getLsbD_zero] using hbit

/-- The nibble field of a frame is its nibble. -/
theorem nibbleOf_frame (n : Nibble) (m : Mode) (bl : Bool) : nibbleOf L (frame L n m bl) = n := by
  have hs := v.1
  have fr := v.2.2.2.2.2.2.2.2.2.2.2.2.1
  have fb := v.2.2.2.2.2.2.2.2.2.2.2.2.2.1
  apply BitVec.eq_of_getLsbD_eq
  intro i hi
  have e1 : (modeBits L m).getLsbD (L.nibShift + i) = false := by
    cases m
    · simp [modeBits]
    · exact getLsbD_field_of_and v _ fr i hi
  have e2 : (backlightBits L bl).getLsbD (L.nibShift + i) = false := by
    cases bl
    · simp [backlightBits]
    · exact getLsbD_field_of_and v _ fb i hi
  have h8 : L.nibShift + i < 8 := by omega
  have h4 : i < 8 := by omega
  simp only [nibbleOf, BitVec.getLsbD_setWidth, hi, decide_true, Bool.true_and, BitVec.getLsbD_ushiftRight, frame,
    BitVec.getLsbD_or, e1, e2, Bool.or_false, placeNibble, BitVec.getLsbD_shiftLeft, h8]
  simp [h4]

/-- Clearing the enable bit of a nibble's first write gives its second. -/
theorem withEnable_and_not_enMask (n : Nibble) (m : Mode) (bl : Bool) :
    withEnable L (frame L n m bl) &&& ~~~L.enMask = frame L n m bl :=
  or_and_not_of_disjoint _ _ (frame_and_enMask v n m bl)

/-- The two writes of a nibble differ in the enable bit alone. -/
theorem withEnable_xor_frame (n : Nibble) (m : Mode) (bl : Bool) :
    withEnable L (frame L n m bl) ^^^ frame L n m bl = L.enMask :=
  or_xor_of_disjoint _ _ (frame_and_enMask v n m bl)

/-- The enable line is set in a nibble's first write. -/
theorem enableSet_withEnable (n : Nibble) (m : Mode) (bl : Bool) :
    enableSet L (withEnable L (frame L n m bl)) = true := by
  simp [enableSet, withEnable, or_and_byte, frame_and_enMask v, v.2.1.1]

/-- The enable line is clear in a nibble's second write. -/
theorem enableSet_frame (n : Nibble) (m : Mode) (bl : Bool) : enableSet L (frame L n m bl) = false := by
  simp [enableSet, frame_and_enMask v]

/-- A frame with enable set, then the frame itself: the two writes that give the controller a nibble. -/
theorem deliversNibble_frame (n : Nibble) (m : Mode) (bl : Bool) :
    deliversNibble L (withEnable L (frame L n m bl)) (frame L n m bl) = true := by
  simp [deliversNibble, enableSet_withEnable v, enableSet_frame v, withEnable_xor_frame v]

/-- The mode line of a frame is its mode. -/
theorem modeOf_frame (n : Nibble) (m : Mode) (bl : Bool) : modeOf L (frame L n m bl) = m := by
  have hr : L.rsMask ≠ 0#8 := v.2.2.1.1
  cases m <;> simp [modeOf, frame_and_rsMask v, hr]

end Valid

end Sys2Proof.Machine
end

