-- ==== Sys2Proof/Laws/State.lean ====
section
/-! SUPPORT. One lemma per field per update of the state, true by rfl. -/

namespace Sys2Proof.Machine

@[simp] theorem setPhase_addr (ph : Phase) (s : State) : (setPhase ph s).addr = s.addr := rfl
@[simp] theorem setPhase_bl (ph : Phase) (s : State) : (setPhase ph s).bl = s.bl := rfl
@[simp] theorem setPhase_phase (ph : Phase) (s : State) : (setPhase ph s).phase = ph := rfl
@[simp] theorem setPhase_latches (ph : Phase) (s : State) : (setPhase ph s).latches = s.latches := rfl
@[simp] theorem setPhase_dc (ph : Phase) (s : State) : (setPhase ph s).dc = s.dc := rfl
@[simp] theorem setPhase_em (ph : Phase) (s : State) : (setPhase ph s).em = s.em := rfl
@[simp] theorem setPhase_rows (ph : Phase) (s : State) : (setPhase ph s).rows = s.rows := rfl
@[simp] theorem setPhase_cell (ph : Phase) (s : State) : (setPhase ph s).cell = s.cell := rfl
@[simp] theorem setPhase_lifecycle (ph : Phase) (s : State) : (setPhase ph s).lifecycle = s.lifecycle := rfl
@[simp] theorem setPhase_p (ph : Phase) (s : State) : (setPhase ph s).p = s.p := rfl
@[simp] theorem setPhase_controller (ph : Phase) (s : State) : (setPhase ph s).controller = s.controller := rfl
@[simp] theorem setPhase_trace (ph : Phase) (s : State) : (setPhase ph s).trace = s.trace := rfl
@[simp] theorem setPhase_answers (ph : Phase) (s : State) : (setPhase ph s).answers = s.answers := rfl
@[simp] theorem setPhase_results (ph : Phase) (s : State) : (setPhase ph s).results = s.results := rfl
@[simp] theorem setPhase_program (ph : Phase) (s : State) : (setPhase ph s).program = s.program := rfl
@[simp] theorem setPhase_current (ph : Phase) (s : State) : (setPhase ph s).current = s.current := rfl
@[simp] theorem setPhase_calls (ph : Phase) (s : State) : (setPhase ph s).calls = s.calls := rfl
@[simp] theorem setPhase_params (ph : Phase) (s : State) : (setPhase ph s).params = s.params := rfl
@[simp] theorem setPhase_env (ph : Phase) (s : State) : (setPhase ph s).env = s.env := rfl
@[simp] theorem setPhase_busCalls (ph : Phase) (s : State) : (setPhase ph s).busCalls = s.busCalls := rfl
@[simp] theorem setPhase_opsEnded (ph : Phase) (s : State) : (setPhase ph s).opsEnded = s.opsEnded := rfl
@[simp] theorem setPhase_waited (ph : Phase) (s : State) : (setPhase ph s).waited = s.waited := rfl

@[simp] theorem delay_addr (n : Nat) (s : State) : (delay n s).addr = s.addr := rfl
@[simp] theorem delay_bl (n : Nat) (s : State) : (delay n s).bl = s.bl := rfl
@[simp] theorem delay_phase (n : Nat) (s : State) : (delay n s).phase = s.phase := rfl
@[simp] theorem delay_latches (n : Nat) (s : State) : (delay n s).latches = s.latches := rfl
@[simp] theorem delay_dc (n : Nat) (s : State) : (delay n s).dc = s.dc := rfl
@[simp] theorem delay_em (n : Nat) (s : State) : (delay n s).em = s.em := rfl
@[simp] theorem delay_rows (n : Nat) (s : State) : (delay n s).rows = s.rows := rfl
@[simp] theorem delay_cell (n : Nat) (s : State) : (delay n s).cell = s.cell := rfl
@[simp] theorem delay_lifecycle (n : Nat) (s : State) : (delay n s).lifecycle = s.lifecycle := rfl
@[simp] theorem delay_p (n : Nat) (s : State) : (delay n s).p = s.p := rfl
@[simp] theorem delay_controller (n : Nat) (s : State) : (delay n s).controller = s.controller := rfl
@[simp] theorem delay_trace (n : Nat) (s : State) : (delay n s).trace = s.trace ++ [.delay n] := rfl
@[simp] theorem delay_answers (n : Nat) (s : State) : (delay n s).answers = s.answers := rfl
@[simp] theorem delay_results (n : Nat) (s : State) : (delay n s).results = s.results := rfl
@[simp] theorem delay_program (n : Nat) (s : State) : (delay n s).program = s.program := rfl
@[simp] theorem delay_current (n : Nat) (s : State) : (delay n s).current = s.current := rfl
@[simp] theorem delay_calls (n : Nat) (s : State) : (delay n s).calls = s.calls := rfl
@[simp] theorem delay_params (n : Nat) (s : State) : (delay n s).params = s.params := rfl
@[simp] theorem delay_env (n : Nat) (s : State) : (delay n s).env = s.env := rfl
@[simp] theorem delay_busCalls (n : Nat) (s : State) : (delay n s).busCalls = s.busCalls := rfl
@[simp] theorem delay_opsEnded (n : Nat) (s : State) : (delay n s).opsEnded = s.opsEnded := rfl
@[simp] theorem delay_waited (n : Nat) (s : State) : (delay n s).waited = s.waited + n := rfl

@[simp] theorem respond_addr (r : Reply) (s : State) : (respond r s).addr = s.addr := rfl
@[simp] theorem respond_bl (r : Reply) (s : State) : (respond r s).bl = s.bl := rfl
@[simp] theorem respond_phase (r : Reply) (s : State) : (respond r s).phase = s.phase := rfl
@[simp] theorem respond_latches (r : Reply) (s : State) : (respond r s).latches = s.latches := rfl
@[simp] theorem respond_dc (r : Reply) (s : State) : (respond r s).dc = s.dc := rfl
@[simp] theorem respond_em (r : Reply) (s : State) : (respond r s).em = s.em := rfl
@[simp] theorem respond_rows (r : Reply) (s : State) : (respond r s).rows = s.rows := rfl
@[simp] theorem respond_cell (r : Reply) (s : State) : (respond r s).cell = s.cell := rfl
@[simp] theorem respond_lifecycle (r : Reply) (s : State) : (respond r s).lifecycle = s.lifecycle := rfl
@[simp] theorem respond_p (r : Reply) (s : State) : (respond r s).p = s.p := rfl
@[simp] theorem respond_controller (r : Reply) (s : State) : (respond r s).controller = s.controller := rfl
@[simp] theorem respond_trace (r : Reply) (s : State) : (respond r s).trace = s.trace := rfl
@[simp] theorem respond_answers (r : Reply) (s : State) : (respond r s).answers = s.answers ++ [r] := rfl
@[simp] theorem respond_results (r : Reply) (s : State) : (respond r s).results = s.results := rfl
@[simp] theorem respond_program (r : Reply) (s : State) : (respond r s).program = s.program := rfl
@[simp] theorem respond_current (r : Reply) (s : State) : (respond r s).current = s.current := rfl
@[simp] theorem respond_calls (r : Reply) (s : State) : (respond r s).calls = s.calls := rfl
@[simp] theorem respond_params (r : Reply) (s : State) : (respond r s).params = s.params := rfl
@[simp] theorem respond_env (r : Reply) (s : State) : (respond r s).env = s.env := rfl
@[simp] theorem respond_busCalls (r : Reply) (s : State) : (respond r s).busCalls = s.busCalls := rfl
@[simp] theorem respond_opsEnded (r : Reply) (s : State) : (respond r s).opsEnded = s.opsEnded := rfl
@[simp] theorem respond_waited (r : Reply) (s : State) : (respond r s).waited = s.waited := rfl

@[simp] theorem recordWrite_addr (a : BusAddr) (v : Byte) (r : Reply) (s : State) : (recordWrite a v r s).addr = s.addr := rfl
@[simp] theorem recordWrite_bl (a : BusAddr) (v : Byte) (r : Reply) (s : State) : (recordWrite a v r s).bl = s.bl := rfl
@[simp] theorem recordWrite_phase (a : BusAddr) (v : Byte) (r : Reply) (s : State) : (recordWrite a v r s).phase = s.phase := rfl
@[simp] theorem recordWrite_latches (a : BusAddr) (v : Byte) (r : Reply) (s : State) : (recordWrite a v r s).latches = s.latches := rfl
@[simp] theorem recordWrite_dc (a : BusAddr) (v : Byte) (r : Reply) (s : State) : (recordWrite a v r s).dc = s.dc := rfl
@[simp] theorem recordWrite_em (a : BusAddr) (v : Byte) (r : Reply) (s : State) : (recordWrite a v r s).em = s.em := rfl
@[simp] theorem recordWrite_rows (a : BusAddr) (v : Byte) (r : Reply) (s : State) : (recordWrite a v r s).rows = s.rows := rfl
@[simp] theorem recordWrite_cell (a : BusAddr) (v : Byte) (r : Reply) (s : State) : (recordWrite a v r s).cell = s.cell := rfl
@[simp] theorem recordWrite_lifecycle (a : BusAddr) (v : Byte) (r : Reply) (s : State) : (recordWrite a v r s).lifecycle = s.lifecycle := rfl
@[simp] theorem recordWrite_p (a : BusAddr) (v : Byte) (r : Reply) (s : State) : (recordWrite a v r s).p = s.p := rfl
@[simp] theorem recordWrite_controller (a : BusAddr) (v : Byte) (r : Reply) (s : State) : (recordWrite a v r s).controller = controllerStep s.params.layout s.busCalls (earlyTraffic s) s.p v r s.controller := rfl
@[simp] theorem recordWrite_trace (a : BusAddr) (v : Byte) (r : Reply) (s : State) : (recordWrite a v r s).trace = s.trace ++ [.write a v r] := rfl
@[simp] theorem recordWrite_answers (a : BusAddr) (v : Byte) (r : Reply) (s : State) : (recordWrite a v r s).answers = s.answers := rfl
@[simp] theorem recordWrite_results (a : BusAddr) (v : Byte) (r : Reply) (s : State) : (recordWrite a v r s).results = s.results := rfl
@[simp] theorem recordWrite_program (a : BusAddr) (v : Byte) (r : Reply) (s : State) : (recordWrite a v r s).program = s.program := rfl
@[simp] theorem recordWrite_current (a : BusAddr) (v : Byte) (r : Reply) (s : State) : (recordWrite a v r s).current = s.current := rfl
@[simp] theorem recordWrite_calls (a : BusAddr) (v : Byte) (r : Reply) (s : State) : (recordWrite a v r s).calls = s.calls := rfl
@[simp] theorem recordWrite_params (a : BusAddr) (v : Byte) (r : Reply) (s : State) : (recordWrite a v r s).params = s.params := rfl
@[simp] theorem recordWrite_env (a : BusAddr) (v : Byte) (r : Reply) (s : State) : (recordWrite a v r s).env = s.env.tail := rfl
@[simp] theorem recordWrite_busCalls (a : BusAddr) (v : Byte) (r : Reply) (s : State) : (recordWrite a v r s).busCalls = s.busCalls + 1 := rfl
@[simp] theorem recordWrite_opsEnded (a : BusAddr) (v : Byte) (r : Reply) (s : State) : (recordWrite a v r s).opsEnded = s.opsEnded := rfl
@[simp] theorem recordWrite_waited (a : BusAddr) (v : Byte) (r : Reply) (s : State) : (recordWrite a v r s).waited = s.waited := rfl

@[simp] theorem endOperation_addr (r : Reply) (s : State) : (endOperation r s).addr = s.addr := rfl
@[simp] theorem endOperation_bl (r : Reply) (s : State) : (endOperation r s).bl = s.bl := rfl
@[simp] theorem endOperation_phase (r : Reply) (s : State) : (endOperation r s).phase = .idle := rfl
@[simp] theorem endOperation_latches (r : Reply) (s : State) : (endOperation r s).latches = Config.latchesWhileIdle s.opsEnded s.latches := rfl
@[simp] theorem endOperation_dc (r : Reply) (s : State) : (endOperation r s).dc = s.dc := rfl
@[simp] theorem endOperation_em (r : Reply) (s : State) : (endOperation r s).em = s.em := rfl
@[simp] theorem endOperation_rows (r : Reply) (s : State) : (endOperation r s).rows = s.rows := rfl
@[simp] theorem endOperation_cell (r : Reply) (s : State) : (endOperation r s).cell = s.cell := rfl
@[simp] theorem endOperation_lifecycle (r : Reply) (s : State) : (endOperation r s).lifecycle = s.lifecycle := rfl
@[simp] theorem endOperation_p (r : Reply) (s : State) : (endOperation r s).p = s.p := rfl
@[simp] theorem endOperation_controller (r : Reply) (s : State) : (endOperation r s).controller = s.controller := rfl
@[simp] theorem endOperation_trace (r : Reply) (s : State) : (endOperation r s).trace = s.trace := rfl
@[simp] theorem endOperation_answers (r : Reply) (s : State) : (endOperation r s).answers = s.answers ++ [r] := rfl
@[simp] theorem endOperation_results (r : Reply) (s : State) : (endOperation r s).results = s.results := rfl
@[simp] theorem endOperation_program (r : Reply) (s : State) : (endOperation r s).program = s.program := rfl
@[simp] theorem endOperation_current (r : Reply) (s : State) : (endOperation r s).current = s.current := rfl
@[simp] theorem endOperation_calls (r : Reply) (s : State) : (endOperation r s).calls = s.calls := rfl
@[simp] theorem endOperation_params (r : Reply) (s : State) : (endOperation r s).params = s.params := rfl
@[simp] theorem endOperation_env (r : Reply) (s : State) : (endOperation r s).env = s.env := rfl
@[simp] theorem endOperation_busCalls (r : Reply) (s : State) : (endOperation r s).busCalls = s.busCalls := rfl
@[simp] theorem endOperation_opsEnded (r : Reply) (s : State) : (endOperation r s).opsEnded = s.opsEnded + 1 := rfl
@[simp] theorem endOperation_waited (r : Reply) (s : State) : (endOperation r s).waited = s.waited := rfl

@[simp] theorem acceptSend_addr (b : Byte) (m : Mode) (s : State) : (acceptSend b m s).addr = s.addr := rfl
@[simp] theorem acceptSend_bl (b : Byte) (m : Mode) (s : State) : (acceptSend b m s).bl = s.bl := rfl
@[simp] theorem acceptSend_phase (b : Byte) (m : Mode) (s : State) : (acceptSend b m s).phase = .hWE := rfl
@[simp] theorem acceptSend_latches (b : Byte) (m : Mode) (s : State) : (acceptSend b m s).latches = { s.latches with opk := .send, byte := b, mode := m } := rfl
@[simp] theorem acceptSend_dc (b : Byte) (m : Mode) (s : State) : (acceptSend b m s).dc = s.dc := rfl
@[simp] theorem acceptSend_em (b : Byte) (m : Mode) (s : State) : (acceptSend b m s).em = s.em := rfl
@[simp] theorem acceptSend_rows (b : Byte) (m : Mode) (s : State) : (acceptSend b m s).rows = s.rows := rfl
@[simp] theorem acceptSend_cell (b : Byte) (m : Mode) (s : State) : (acceptSend b m s).cell = s.cell := rfl
@[simp] theorem acceptSend_lifecycle (b : Byte) (m : Mode) (s : State) : (acceptSend b m s).lifecycle = s.lifecycle := rfl
@[simp] theorem acceptSend_p (b : Byte) (m : Mode) (s : State) : (acceptSend b m s).p = s.p := rfl
@[simp] theorem acceptSend_controller (b : Byte) (m : Mode) (s : State) : (acceptSend b m s).controller = s.controller := rfl
@[simp] theorem acceptSend_trace (b : Byte) (m : Mode) (s : State) : (acceptSend b m s).trace = s.trace := rfl
@[simp] theorem acceptSend_answers (b : Byte) (m : Mode) (s : State) : (acceptSend b m s).answers = s.answers := rfl
@[simp] theorem acceptSend_results (b : Byte) (m : Mode) (s : State) : (acceptSend b m s).results = s.results := rfl
@[simp] theorem acceptSend_program (b : Byte) (m : Mode) (s : State) : (acceptSend b m s).program = s.program := rfl
@[simp] theorem acceptSend_current (b : Byte) (m : Mode) (s : State) : (acceptSend b m s).current = s.current := rfl
@[simp] theorem acceptSend_calls (b : Byte) (m : Mode) (s : State) : (acceptSend b m s).calls = s.calls := rfl
@[simp] theorem acceptSend_params (b : Byte) (m : Mode) (s : State) : (acceptSend b m s).params = s.params := rfl
@[simp] theorem acceptSend_env (b : Byte) (m : Mode) (s : State) : (acceptSend b m s).env = s.env := rfl
@[simp] theorem acceptSend_busCalls (b : Byte) (m : Mode) (s : State) : (acceptSend b m s).busCalls = s.busCalls := rfl
@[simp] theorem acceptSend_opsEnded (b : Byte) (m : Mode) (s : State) : (acceptSend b m s).opsEnded = s.opsEnded := rfl
@[simp] theorem acceptSend_waited (b : Byte) (m : Mode) (s : State) : (acceptSend b m s).waited = s.waited := rfl

@[simp] theorem acceptNib_addr (n : Nibble) (s : State) : (acceptNib n s).addr = s.addr := rfl
@[simp] theorem acceptNib_bl (n : Nibble) (s : State) : (acceptNib n s).bl = s.bl := rfl
@[simp] theorem acceptNib_phase (n : Nibble) (s : State) : (acceptNib n s).phase = .hWE := rfl
@[simp] theorem acceptNib_latches (n : Nibble) (s : State) : (acceptNib n s).latches = { s.latches with opk := .nib, byte := nibbleAsByte n, mode := .command } := rfl
@[simp] theorem acceptNib_dc (n : Nibble) (s : State) : (acceptNib n s).dc = s.dc := rfl
@[simp] theorem acceptNib_em (n : Nibble) (s : State) : (acceptNib n s).em = s.em := rfl
@[simp] theorem acceptNib_rows (n : Nibble) (s : State) : (acceptNib n s).rows = s.rows := rfl
@[simp] theorem acceptNib_cell (n : Nibble) (s : State) : (acceptNib n s).cell = s.cell := rfl
@[simp] theorem acceptNib_lifecycle (n : Nibble) (s : State) : (acceptNib n s).lifecycle = s.lifecycle := rfl
@[simp] theorem acceptNib_p (n : Nibble) (s : State) : (acceptNib n s).p = s.p := rfl
@[simp] theorem acceptNib_controller (n : Nibble) (s : State) : (acceptNib n s).controller = s.controller := rfl
@[simp] theorem acceptNib_trace (n : Nibble) (s : State) : (acceptNib n s).trace = s.trace := rfl
@[simp] theorem acceptNib_answers (n : Nibble) (s : State) : (acceptNib n s).answers = s.answers := rfl
@[simp] theorem acceptNib_results (n : Nibble) (s : State) : (acceptNib n s).results = s.results := rfl
@[simp] theorem acceptNib_program (n : Nibble) (s : State) : (acceptNib n s).program = s.program := rfl
@[simp] theorem acceptNib_current (n : Nibble) (s : State) : (acceptNib n s).current = s.current := rfl
@[simp] theorem acceptNib_calls (n : Nibble) (s : State) : (acceptNib n s).calls = s.calls := rfl
@[simp] theorem acceptNib_params (n : Nibble) (s : State) : (acceptNib n s).params = s.params := rfl
@[simp] theorem acceptNib_env (n : Nibble) (s : State) : (acceptNib n s).env = s.env := rfl
@[simp] theorem acceptNib_busCalls (n : Nibble) (s : State) : (acceptNib n s).busCalls = s.busCalls := rfl
@[simp] theorem acceptNib_opsEnded (n : Nibble) (s : State) : (acceptNib n s).opsEnded = s.opsEnded := rfl
@[simp] theorem acceptNib_waited (n : Nibble) (s : State) : (acceptNib n s).waited = s.waited := rfl

@[simp] theorem acceptWait_addr (d : WaitCount) (s : State) : (acceptWait d s).addr = s.addr := rfl
@[simp] theorem acceptWait_bl (d : WaitCount) (s : State) : (acceptWait d s).bl = s.bl := rfl
@[simp] theorem acceptWait_phase (d : WaitCount) (s : State) : (acceptWait d s).phase = .wt := rfl
@[simp] theorem acceptWait_latches (d : WaitCount) (s : State) : (acceptWait d s).latches = { s.latches with opk := .wait, wcnt := d } := rfl
@[simp] theorem acceptWait_dc (d : WaitCount) (s : State) : (acceptWait d s).dc = s.dc := rfl
@[simp] theorem acceptWait_em (d : WaitCount) (s : State) : (acceptWait d s).em = s.em := rfl
@[simp] theorem acceptWait_rows (d : WaitCount) (s : State) : (acceptWait d s).rows = s.rows := rfl
@[simp] theorem acceptWait_cell (d : WaitCount) (s : State) : (acceptWait d s).cell = s.cell := rfl
@[simp] theorem acceptWait_lifecycle (d : WaitCount) (s : State) : (acceptWait d s).lifecycle = s.lifecycle := rfl
@[simp] theorem acceptWait_p (d : WaitCount) (s : State) : (acceptWait d s).p = s.p := rfl
@[simp] theorem acceptWait_controller (d : WaitCount) (s : State) : (acceptWait d s).controller = s.controller := rfl
@[simp] theorem acceptWait_trace (d : WaitCount) (s : State) : (acceptWait d s).trace = s.trace := rfl
@[simp] theorem acceptWait_answers (d : WaitCount) (s : State) : (acceptWait d s).answers = s.answers := rfl
@[simp] theorem acceptWait_results (d : WaitCount) (s : State) : (acceptWait d s).results = s.results := rfl
@[simp] theorem acceptWait_program (d : WaitCount) (s : State) : (acceptWait d s).program = s.program := rfl
@[simp] theorem acceptWait_current (d : WaitCount) (s : State) : (acceptWait d s).current = s.current := rfl
@[simp] theorem acceptWait_calls (d : WaitCount) (s : State) : (acceptWait d s).calls = s.calls := rfl
@[simp] theorem acceptWait_params (d : WaitCount) (s : State) : (acceptWait d s).params = s.params := rfl
@[simp] theorem acceptWait_env (d : WaitCount) (s : State) : (acceptWait d s).env = s.env := rfl
@[simp] theorem acceptWait_busCalls (d : WaitCount) (s : State) : (acceptWait d s).busCalls = s.busCalls := rfl
@[simp] theorem acceptWait_opsEnded (d : WaitCount) (s : State) : (acceptWait d s).opsEnded = s.opsEnded := rfl
@[simp] theorem acceptWait_waited (d : WaitCount) (s : State) : (acceptWait d s).waited = s.waited := rfl

@[simp] theorem setBacklight_addr (f : Bool) (s : State) : (setBacklight f s).addr = s.addr := rfl
@[simp] theorem setBacklight_bl (f : Bool) (s : State) : (setBacklight f s).bl = f := rfl
@[simp] theorem setBacklight_phase (f : Bool) (s : State) : (setBacklight f s).phase = s.phase := rfl
@[simp] theorem setBacklight_latches (f : Bool) (s : State) : (setBacklight f s).latches = s.latches := rfl
@[simp] theorem setBacklight_dc (f : Bool) (s : State) : (setBacklight f s).dc = s.dc := rfl
@[simp] theorem setBacklight_em (f : Bool) (s : State) : (setBacklight f s).em = s.em := rfl
@[simp] theorem setBacklight_rows (f : Bool) (s : State) : (setBacklight f s).rows = s.rows := rfl
@[simp] theorem setBacklight_cell (f : Bool) (s : State) : (setBacklight f s).cell = s.cell := rfl
@[simp] theorem setBacklight_lifecycle (f : Bool) (s : State) : (setBacklight f s).lifecycle = s.lifecycle := rfl
@[simp] theorem setBacklight_p (f : Bool) (s : State) : (setBacklight f s).p = s.p := rfl
@[simp] theorem setBacklight_controller (f : Bool) (s : State) : (setBacklight f s).controller = s.controller := rfl
@[simp] theorem setBacklight_trace (f : Bool) (s : State) : (setBacklight f s).trace = s.trace := rfl
@[simp] theorem setBacklight_answers (f : Bool) (s : State) : (setBacklight f s).answers = s.answers ++ [.ok] := rfl
@[simp] theorem setBacklight_results (f : Bool) (s : State) : (setBacklight f s).results = s.results := rfl
@[simp] theorem setBacklight_program (f : Bool) (s : State) : (setBacklight f s).program = s.program := rfl
@[simp] theorem setBacklight_current (f : Bool) (s : State) : (setBacklight f s).current = s.current := rfl
@[simp] theorem setBacklight_calls (f : Bool) (s : State) : (setBacklight f s).calls = s.calls := rfl
@[simp] theorem setBacklight_params (f : Bool) (s : State) : (setBacklight f s).params = s.params := rfl
@[simp] theorem setBacklight_env (f : Bool) (s : State) : (setBacklight f s).env = s.env := rfl
@[simp] theorem setBacklight_busCalls (f : Bool) (s : State) : (setBacklight f s).busCalls = s.busCalls := rfl
@[simp] theorem setBacklight_opsEnded (f : Bool) (s : State) : (setBacklight f s).opsEnded = s.opsEnded := rfl
@[simp] theorem setBacklight_waited (f : Bool) (s : State) : (setBacklight f s).waited = s.waited := rfl

@[simp] theorem failCall_addr (e : ErrorValue) (s : State) : (failCall e s).addr = s.addr := rfl
@[simp] theorem failCall_bl (e : ErrorValue) (s : State) : (failCall e s).bl = s.bl := rfl
@[simp] theorem failCall_phase (e : ErrorValue) (s : State) : (failCall e s).phase = s.phase := rfl
@[simp] theorem failCall_latches (e : ErrorValue) (s : State) : (failCall e s).latches = s.latches := rfl
@[simp] theorem failCall_dc (e : ErrorValue) (s : State) : (failCall e s).dc = s.dc := rfl
@[simp] theorem failCall_em (e : ErrorValue) (s : State) : (failCall e s).em = s.em := rfl
@[simp] theorem failCall_rows (e : ErrorValue) (s : State) : (failCall e s).rows = s.rows := rfl
@[simp] theorem failCall_cell (e : ErrorValue) (s : State) : (failCall e s).cell = s.cell := rfl
@[simp] theorem failCall_lifecycle (e : ErrorValue) (s : State) : (failCall e s).lifecycle = lifecycleAfterFailure s.current s.lifecycle := rfl
@[simp] theorem failCall_p (e : ErrorValue) (s : State) : (failCall e s).p = s.p := rfl
@[simp] theorem failCall_controller (e : ErrorValue) (s : State) : (failCall e s).controller = s.controller := rfl
@[simp] theorem failCall_trace (e : ErrorValue) (s : State) : (failCall e s).trace = s.trace := rfl
@[simp] theorem failCall_answers (e : ErrorValue) (s : State) : (failCall e s).answers = s.answers := rfl
@[simp] theorem failCall_results (e : ErrorValue) (s : State) : (failCall e s).results = s.results ++ failureResult s.current e := rfl
@[simp] theorem failCall_program (e : ErrorValue) (s : State) : (failCall e s).program = [] := rfl
@[simp] theorem failCall_current (e : ErrorValue) (s : State) : (failCall e s).current = none := rfl
@[simp] theorem failCall_calls (e : ErrorValue) (s : State) : (failCall e s).calls = s.calls := rfl
@[simp] theorem failCall_params (e : ErrorValue) (s : State) : (failCall e s).params = s.params := rfl
@[simp] theorem failCall_env (e : ErrorValue) (s : State) : (failCall e s).env = s.env := rfl
@[simp] theorem failCall_busCalls (e : ErrorValue) (s : State) : (failCall e s).busCalls = s.busCalls := rfl
@[simp] theorem failCall_opsEnded (e : ErrorValue) (s : State) : (failCall e s).opsEnded = s.opsEnded := rfl
@[simp] theorem failCall_waited (e : ErrorValue) (s : State) : (failCall e s).waited = s.waited := rfl

@[simp] theorem finishCall_addr (c : HostCall) (s : State) : (finishCall c s).addr = s.addr := rfl
@[simp] theorem finishCall_bl (c : HostCall) (s : State) : (finishCall c s).bl = s.bl := rfl
@[simp] theorem finishCall_phase (c : HostCall) (s : State) : (finishCall c s).phase = s.phase := rfl
@[simp] theorem finishCall_latches (c : HostCall) (s : State) : (finishCall c s).latches = s.latches := rfl
@[simp] theorem finishCall_dc (c : HostCall) (s : State) : (finishCall c s).dc = s.dc := rfl
@[simp] theorem finishCall_em (c : HostCall) (s : State) : (finishCall c s).em = s.em := rfl
@[simp] theorem finishCall_rows (c : HostCall) (s : State) : (finishCall c s).rows = s.rows := rfl
@[simp] theorem finishCall_cell (c : HostCall) (s : State) : (finishCall c s).cell = s.cell := rfl
@[simp] theorem finishCall_lifecycle (c : HostCall) (s : State) : (finishCall c s).lifecycle = s.lifecycle := rfl
@[simp] theorem finishCall_p (c : HostCall) (s : State) : (finishCall c s).p = s.p := rfl
@[simp] theorem finishCall_controller (c : HostCall) (s : State) : (finishCall c s).controller = s.controller := rfl
@[simp] theorem finishCall_trace (c : HostCall) (s : State) : (finishCall c s).trace = s.trace := rfl
@[simp] theorem finishCall_answers (c : HostCall) (s : State) : (finishCall c s).answers = s.answers := rfl
@[simp] theorem finishCall_results (c : HostCall) (s : State) : (finishCall c s).results = s.results ++ [.ok (returnValue c)] := rfl
@[simp] theorem finishCall_program (c : HostCall) (s : State) : (finishCall c s).program = s.program := rfl
@[simp] theorem finishCall_current (c : HostCall) (s : State) : (finishCall c s).current = none := rfl
@[simp] theorem finishCall_calls (c : HostCall) (s : State) : (finishCall c s).calls = s.calls := rfl
@[simp] theorem finishCall_params (c : HostCall) (s : State) : (finishCall c s).params = s.params := rfl
@[simp] theorem finishCall_env (c : HostCall) (s : State) : (finishCall c s).env = s.env := rfl
@[simp] theorem finishCall_busCalls (c : HostCall) (s : State) : (finishCall c s).busCalls = s.busCalls := rfl
@[simp] theorem finishCall_opsEnded (c : HostCall) (s : State) : (finishCall c s).opsEnded = s.opsEnded := rfl
@[simp] theorem finishCall_waited (c : HostCall) (s : State) : (finishCall c s).waited = s.waited := rfl

/-- The devices of the same address are those of the Handle before. -/
@[simp] theorem devicesAt_same (s : State) : devicesAt s.addr s = s := by simp [devicesAt]

/-- Nothing is known of the devices behind another address. -/
theorem devicesAt_other {addr : BusAddr} {s : State} (h : addr ≠ s.addr) :
    devicesAt addr s =
      { s with p := Config.pAtAddress s.opsEnded addr, controller := Config.controllerAtAddress s.opsEnded addr,
               waited := 0 } := by simp [devicesAt, h]

end Sys2Proof.Machine
end

