-- ==== Sys2Proof/Laws/Ops.lean ====
section
/-! SUPPORT. One lemma per shared operation that says everything it can do. -/

namespace Sys2Proof.Machine

/-! ### The environment's replies -/

@[simp] theorem nextReply_setPhase (ph : Phase) (s : State) (k : Nat) :
    nextReply (setPhase ph s) k = nextReply s k := rfl

@[simp] theorem nextReply_delay (n : Nat) (s : State) (k : Nat) : nextReply (delay n s) k = nextReply s k := rfl

@[simp] theorem nextReply_endOperation (r : Reply) (s : State) (k : Nat) :
    nextReply (endOperation r s) k = nextReply s k := rfl

/-- A bus write uses up one reply. -/
theorem nextReply_recordWrite (a : BusAddr) (v : Byte) (r : Reply) (s : State) (k : Nat) :
    nextReply (recordWrite a v r s) k = nextReply s (k + 1) := by
  unfold nextReply recordWrite
  have h : s.env.tail[k]? = s.env[k + 1]? := by cases s.env <;> simp
  simp only [h]
  congr 2
  omega

/-- The replies depend on what the environment has decided and on the count of calls alone. -/
theorem nextReply_congr {s t : State} (he : t.env = s.env) (hc : t.busCalls = s.busCalls) (k : Nat) :
    nextReply t k = nextReply s k := by
  simp [nextReply, he, hc]

/-! ### The primitives -/

/-- The state after a bus write answered `ok`. -/
def afterWrite (a : BusAddr) (v : Byte) (s : State) : State := { recordWrite a v .ok s with p := v }

/-- The state after a bus write answered `err(e)`. -/
def afterFailedWrite (a : BusAddr) (v : Byte) (e : ErrorValue) (s : State) : State :=
  { recordWrite a v (.err e) s with p := Config.pAfterFailure s.busCalls s.p v }

@[simp] theorem afterWrite_addr (a : BusAddr) (v : Byte) (s : State) : (afterWrite a v s).addr = s.addr := rfl
@[simp] theorem afterWrite_bl (a : BusAddr) (v : Byte) (s : State) : (afterWrite a v s).bl = s.bl := rfl
@[simp] theorem afterWrite_phase (a : BusAddr) (v : Byte) (s : State) : (afterWrite a v s).phase = s.phase := rfl
@[simp] theorem afterWrite_latches (a : BusAddr) (v : Byte) (s : State) : (afterWrite a v s).latches = s.latches := rfl
@[simp] theorem afterWrite_dc (a : BusAddr) (v : Byte) (s : State) : (afterWrite a v s).dc = s.dc := rfl
@[simp] theorem afterWrite_em (a : BusAddr) (v : Byte) (s : State) : (afterWrite a v s).em = s.em := rfl
@[simp] theorem afterWrite_rows (a : BusAddr) (v : Byte) (s : State) : (afterWrite a v s).rows = s.rows := rfl
@[simp] theorem afterWrite_cell (a : BusAddr) (v : Byte) (s : State) : (afterWrite a v s).cell = s.cell := rfl
@[simp] theorem afterWrite_lifecycle (a : BusAddr) (v : Byte) (s : State) : (afterWrite a v s).lifecycle = s.lifecycle := rfl
@[simp] theorem afterWrite_p (a : BusAddr) (v : Byte) (s : State) : (afterWrite a v s).p = v := rfl
@[simp] theorem afterWrite_controller (a : BusAddr) (v : Byte) (s : State) : (afterWrite a v s).controller = controllerStep s.params.layout s.busCalls (earlyTraffic s) s.p v .ok s.controller := rfl
@[simp] theorem afterWrite_trace (a : BusAddr) (v : Byte) (s : State) : (afterWrite a v s).trace = s.trace ++ [.write a v .ok] := rfl
@[simp] theorem afterWrite_answers (a : BusAddr) (v : Byte) (s : State) : (afterWrite a v s).answers = s.answers := rfl
@[simp] theorem afterWrite_results (a : BusAddr) (v : Byte) (s : State) : (afterWrite a v s).results = s.results := rfl
@[simp] theorem afterWrite_program (a : BusAddr) (v : Byte) (s : State) : (afterWrite a v s).program = s.program := rfl
@[simp] theorem afterWrite_current (a : BusAddr) (v : Byte) (s : State) : (afterWrite a v s).current = s.current := rfl
@[simp] theorem afterWrite_calls (a : BusAddr) (v : Byte) (s : State) : (afterWrite a v s).calls = s.calls := rfl
@[simp] theorem afterWrite_params (a : BusAddr) (v : Byte) (s : State) : (afterWrite a v s).params = s.params := rfl
@[simp] theorem afterWrite_env (a : BusAddr) (v : Byte) (s : State) : (afterWrite a v s).env = s.env.tail := rfl
@[simp] theorem afterWrite_busCalls (a : BusAddr) (v : Byte) (s : State) : (afterWrite a v s).busCalls = s.busCalls + 1 := rfl
@[simp] theorem afterWrite_opsEnded (a : BusAddr) (v : Byte) (s : State) : (afterWrite a v s).opsEnded = s.opsEnded := rfl
@[simp] theorem afterWrite_waited (a : BusAddr) (v : Byte) (s : State) : (afterWrite a v s).waited = s.waited := rfl

@[simp] theorem afterFailedWrite_addr (a : BusAddr) (v : Byte) (e : ErrorValue) (s : State) : (afterFailedWrite a v e s).addr = s.addr := rfl
@[simp] theorem afterFailedWrite_bl (a : BusAddr) (v : Byte) (e : ErrorValue) (s : State) : (afterFailedWrite a v e s).bl = s.bl := rfl
@[simp] theorem afterFailedWrite_phase (a : BusAddr) (v : Byte) (e : ErrorValue) (s : State) : (afterFailedWrite a v e s).phase = s.phase := rfl
@[simp] theorem afterFailedWrite_latches (a : BusAddr) (v : Byte) (e : ErrorValue) (s : State) : (afterFailedWrite a v e s).latches = s.latches := rfl
@[simp] theorem afterFailedWrite_dc (a : BusAddr) (v : Byte) (e : ErrorValue) (s : State) : (afterFailedWrite a v e s).dc = s.dc := rfl
@[simp] theorem afterFailedWrite_em (a : BusAddr) (v : Byte) (e : ErrorValue) (s : State) : (afterFailedWrite a v e s).em = s.em := rfl
@[simp] theorem afterFailedWrite_rows (a : BusAddr) (v : Byte) (e : ErrorValue) (s : State) : (afterFailedWrite a v e s).rows = s.rows := rfl
@[simp] theorem afterFailedWrite_cell (a : BusAddr) (v : Byte) (e : ErrorValue) (s : State) : (afterFailedWrite a v e s).cell = s.cell := rfl
@[simp] theorem afterFailedWrite_lifecycle (a : BusAddr) (v : Byte) (e : ErrorValue) (s : State) : (afterFailedWrite a v e s).lifecycle = s.lifecycle := rfl
@[simp] theorem afterFailedWrite_p (a : BusAddr) (v : Byte) (e : ErrorValue) (s : State) : (afterFailedWrite a v e s).p = Config.pAfterFailure s.busCalls s.p v := rfl
@[simp] theorem afterFailedWrite_controller (a : BusAddr) (v : Byte) (e : ErrorValue) (s : State) : (afterFailedWrite a v e s).controller = controllerStep s.params.layout s.busCalls (earlyTraffic s) s.p v (.err e) s.controller := rfl
@[simp] theorem afterFailedWrite_trace (a : BusAddr) (v : Byte) (e : ErrorValue) (s : State) : (afterFailedWrite a v e s).trace = s.trace ++ [.write a v (.err e)] := rfl
@[simp] theorem afterFailedWrite_answers (a : BusAddr) (v : Byte) (e : ErrorValue) (s : State) : (afterFailedWrite a v e s).answers = s.answers := rfl
@[simp] theorem afterFailedWrite_results (a : BusAddr) (v : Byte) (e : ErrorValue) (s : State) : (afterFailedWrite a v e s).results = s.results := rfl
@[simp] theorem afterFailedWrite_program (a : BusAddr) (v : Byte) (e : ErrorValue) (s : State) : (afterFailedWrite a v e s).program = s.program := rfl
@[simp] theorem afterFailedWrite_current (a : BusAddr) (v : Byte) (e : ErrorValue) (s : State) : (afterFailedWrite a v e s).current = s.current := rfl
@[simp] theorem afterFailedWrite_calls (a : BusAddr) (v : Byte) (e : ErrorValue) (s : State) : (afterFailedWrite a v e s).calls = s.calls := rfl
@[simp] theorem afterFailedWrite_params (a : BusAddr) (v : Byte) (e : ErrorValue) (s : State) : (afterFailedWrite a v e s).params = s.params := rfl
@[simp] theorem afterFailedWrite_env (a : BusAddr) (v : Byte) (e : ErrorValue) (s : State) : (afterFailedWrite a v e s).env = s.env.tail := rfl
@[simp] theorem afterFailedWrite_busCalls (a : BusAddr) (v : Byte) (e : ErrorValue) (s : State) : (afterFailedWrite a v e s).busCalls = s.busCalls + 1 := rfl
@[simp] theorem afterFailedWrite_opsEnded (a : BusAddr) (v : Byte) (e : ErrorValue) (s : State) : (afterFailedWrite a v e s).opsEnded = s.opsEnded := rfl
@[simp] theorem afterFailedWrite_waited (a : BusAddr) (v : Byte) (e : ErrorValue) (s : State) : (afterFailedWrite a v e s).waited = s.waited := rfl

/-- Everything a bus write can do to the controller's interface state. -/
theorem controllerStep_cases (L : Layout) (k : Nat) (early : Bool) (p v : Byte) (r : Reply) (c : Controller) :
    (early = false ∧ r = .ok ∧ deliversNibble L p v = true ∧ controllerStep L k early p v r c = takeNibble k v c) ∨
    (early = false ∧ enableSet L p = false ∧ enableSet L v = true ∧ controllerStep L k early p v r c = c) ∨
    controllerStep L k early p v r c = Config.controllerAfter k c v := by
  unfold controllerStep
  split
  · exact .inr (.inr rfl)
  · rename_i he
    split
    · rename_i h
      exact .inl ⟨by simpa using he, h.1, h.2, rfl⟩
    · split
      · rename_i h
        exact .inr (.inl ⟨by simpa using he, by simpa using (Bool.and_eq_true_iff.mp h).1,
          (Bool.and_eq_true_iff.mp h).2, rfl⟩)
      · exact .inr (.inr rfl)

/-- What a write that may be early leaves of the controller's interface state is free. -/
theorem controllerStep_early (L : Layout) (k : Nat) (p v : Byte) (r : Reply) (c : Controller) :
    controllerStep L k true p v r c = Config.controllerAfter k c v := rfl

/-- Raising enable leaves the controller as it was, whatever the answer. -/
theorem controllerStep_raise {L : Layout} {p v : Byte} (k : Nat) (r : Reply) (c : Controller)
    (hp : enableSet L p = false) (hv : enableSet L v = true) : controllerStep L k false p v r c = c := by
  simp [controllerStep, deliversNibble, hp, hv]

/-- The second write of a nibble gives it to the controller. -/
theorem controllerStep_delivers {L : Layout} {p v : Byte} (k : Nat) (c : Controller)
    (h : deliversNibble L p v = true) : controllerStep L k false p v .ok c = takeNibble k v c := by
  simp [controllerStep, h]

theorem earlyTraffic_eq_false {s : State} (h : tPowerOnMinMs ≤ s.waited) : earlyTraffic s = false := by
  simpa [earlyTraffic] using h

/-- A nibble taken in 4-bit mode shifts the pairing by one. -/
theorem takeNibble_nextHalf {c : Controller} (k : Nat) (v : Byte) (h : c.width = .fourBit) :
    (takeNibble k v c).nextHalf = c.nextHalf.other := by
  obtain ⟨w, half⟩ := c
  cases h
  cases half <;> rfl

/-- Half a byte leaves the controller in 4-bit mode. -/
theorem takeNibble_width {c : Controller} (k : Nat) (v : Byte) (h : c.width = .fourBit) (hf : c.nextHalf = .first) :
    (takeNibble k v c).width = .fourBit := by
  obtain ⟨w, half⟩ := c
  cases h
  cases hf
  rfl

theorem busWrite_ok {a : BusAddr} {v : Byte} {s : State} (h : nextReply s 0 = .ok) :
    busWrite a v s = .returned (afterWrite a v s) := by
  simp [busWrite, h, afterWrite]

theorem busWrite_err {a : BusAddr} {v : Byte} {s : State} {e : ErrorValue} (h : nextReply s 0 = .err e) :
    busWrite a v s = .raised e (afterFailedWrite a v e s) := by
  simp [busWrite, h, afterFailedWrite]

/-- Everything a bus write can do. -/
theorem busWrite_cases (a : BusAddr) (v : Byte) (s : State) :
    (nextReply s 0 = .ok ∧ busWrite a v s = .returned (afterWrite a v s)) ∨
    (∃ e, nextReply s 0 = .err e ∧ busWrite a v s = .raised e (afterFailedWrite a v e s)) := by
  cases h : nextReply s 0 with
  | ok => exact .inl ⟨rfl, busWrite_ok h⟩
  | err e => exact .inr ⟨e, rfl, busWrite_err h⟩

theorem nextReply_afterWrite (a : BusAddr) (v : Byte) (s : State) (k : Nat) :
    nextReply (afterWrite a v s) k = nextReply s (k + 1) := nextReply_recordWrite a v .ok s k

/-! ### The sequencer at rest -/

theorem advanceN_idle {s : State} (h : s.phase = .idle) (n : Nat) : advanceN n s = s := by
  induction n with
  | zero => rfl
  | succ n ih => simpa [advanceN, advance, h] using ih

theorem runToIdle_idle {s : State} (h : s.phase = .idle) : runToIdle s = s := advanceN_idle h 8

/-- An idle block accepts what is offered. -/
theorem offer_idle {s : State} (h : s.phase = .idle) (f : State → State) : offer s f = .next (f s) := by
  simp [offer, runToIdle_idle h, h]

/-- Everything an offer can do: the operation in progress runs to its answer, then the offered one is carried out; or the
sequencer is where R13's table has no row. -/
theorem offer_cases (s : State) (f : State → State) :
    ((runToIdle s).phase = .idle ∧ offer s f = .next (f (runToIdle s))) ∨
    ((runToIdle s).phase ≠ .idle ∧ offer s f = .fault .noTransition) := by
  unfold offer
  cases h : (runToIdle s).phase <;> simp

/-! ### The two-phase write -/

/-- The state after the first write of a pulse and its delay, before the second write. -/
def pulseMid (h : Half) (f : Byte) (s : State) : State :=
  setPhase (phaseWC h) (delay s.params.tEnMs (setPhase (phaseTE h)
    (afterWrite s.addr (withEnable s.params.layout f) (setPhase (phaseWE h) s))))

/-- The state after a pulse whose two writes were answered `ok`. -/
def afterPulse (h : Half) (f : Byte) (s : State) : State :=
  delay s.params.tSettleMs (setPhase (phaseTS h) (afterWrite s.addr f (pulseMid h f s)))

theorem pulse_ok {h : Half} {f : Byte} {s : State} (h0 : nextReply s 0 = .ok) (h1 : nextReply s 1 = .ok) :
    pulse h f s = .returned (afterPulse h f s) := by
  have h2 : nextReply (pulseMid h f s) 0 = .ok := by simpa [pulseMid, nextReply_afterWrite] using h1
  unfold pulse
  rw [busWrite_ok (by simpa using h0)]
  show (busWrite s.addr f (pulseMid h f s)).andThen _ = _
  rw [busWrite_ok h2]
  rfl

theorem pulse_fails_first {h : Half} {f : Byte} {s : State} {e : ErrorValue} (h0 : nextReply s 0 = .err e) :
    pulse h f s = .raised e (afterFailedWrite s.addr (withEnable s.params.layout f) e (setPhase (phaseWE h) s)) := by
  unfold pulse
  rw [busWrite_err (e := e) (by simpa using h0)]
  rfl

theorem pulse_fails_second {h : Half} {f : Byte} {s : State} {e : ErrorValue} (h0 : nextReply s 0 = .ok)
    (h1 : nextReply s 1 = .err e) : pulse h f s = .raised e (afterFailedWrite s.addr f e (pulseMid h f s)) := by
  have h2 : nextReply (pulseMid h f s) 0 = .err e := by simpa [pulseMid, nextReply_afterWrite] using h1
  unfold pulse
  rw [busWrite_ok (by simpa using h0)]
  show (busWrite s.addr f (pulseMid h f s)).andThen _ = _
  rw [busWrite_err h2]
  rfl

/-- Everything a pulse can do (R86). -/
theorem pulse_cases (h : Half) (f : Byte) (s : State) :
    (nextReply s 0 = .ok ∧ nextReply s 1 = .ok ∧ pulse h f s = .returned (afterPulse h f s)) ∨
    (∃ e, nextReply s 0 = .err e ∧
      pulse h f s = .raised e (afterFailedWrite s.addr (withEnable s.params.layout f) e (setPhase (phaseWE h) s))) ∨
    (∃ e, nextReply s 0 = .ok ∧ nextReply s 1 = .err e ∧
      pulse h f s = .raised e (afterFailedWrite s.addr f e (pulseMid h f s))) := by
  cases h0 : nextReply s 0 with
  | err e => exact .inr (.inl ⟨e, rfl, pulse_fails_first h0⟩)
  | ok =>
    cases h1 : nextReply s 1 with
    | ok => exact .inl ⟨rfl, rfl, pulse_ok h0 h1⟩
    | err e => exact .inr (.inr ⟨e, rfl, rfl, pulse_fails_second h0 h1⟩)

theorem nextReply_afterPulse (h : Half) (f : Byte) (s : State) (k : Nat) :
    nextReply (afterPulse h f s) k = nextReply s (k + 2) := by
  simp [afterPulse, pulseMid, nextReply_afterWrite]

/-! ### What a stretch of an operation did -/

/-- Between `s` and `t` the block made the primitive calls `evs`, `n` of them bus writes, and nothing else happened: no
answer, no flag, nothing of the host. -/
structure Ran (s t : State) (n : Nat) (evs : List Event) : Prop where
  trace : t.trace = s.trace ++ evs
  bl : t.bl = s.bl
  answers : t.answers = s.answers
  host : HostSideUnchanged s t
  env : t.env = s.env.drop n
  busCalls : t.busCalls = s.busCalls + n
  opsEnded : t.opsEnded = s.opsEnded
  waited : t.waited = s.waited + requestedDelay evs

theorem HostSideUnchanged.refl (s : State) : HostSideUnchanged s s :=
  ⟨rfl, rfl, rfl, rfl, rfl, rfl, rfl, rfl, rfl, rfl, rfl⟩

theorem HostSideUnchanged.trans {s t u : State} (h : HostSideUnchanged s t) (k : HostSideUnchanged t u) :
    HostSideUnchanged s u :=
  ⟨k.addr.trans h.addr, k.dc.trans h.dc, k.em.trans h.em, k.rows.trans h.rows, k.cell.trans h.cell,
   k.lifecycle.trans h.lifecycle, k.results.trans h.results, k.program.trans h.program, k.current.trans h.current,
   k.calls.trans h.calls, k.params.trans h.params⟩

theorem requestedDelay_append (evs evs' : List Event) :
    requestedDelay (evs ++ evs') = requestedDelay evs + requestedDelay evs' := by
  induction evs with
  | nil => simp [requestedDelay]
  | cons e evs ih => cases e <;> simp [requestedDelay, ih, Nat.add_assoc]

/-- One stretch after another. -/
theorem Ran.trans {s t u : State} {n k : Nat} {evs evs' : List Event} (h : Ran s t n evs) (h' : Ran t u k evs') :
    Ran s u (n + k) (evs ++ evs') where
  trace := by rw [h'.trace, h.trace, List.append_assoc]
  bl := h'.bl.trans h.bl
  answers := h'.answers.trans h.answers
  host := h.host.trans h'.host
  env := by rw [h'.env, h.env, List.drop_drop]
  busCalls := by rw [h'.busCalls, h.busCalls, Nat.add_assoc]
  opsEnded := h'.opsEnded.trans h.opsEnded
  waited := by rw [h'.waited, h.waited, requestedDelay_append, Nat.add_assoc]

/-- The replies after a stretch with `n` bus writes are those from the `n`-th on. -/
theorem Ran.nextReply {s t : State} {n : Nat} {evs : List Event} (h : Ran s t n evs) (k : Nat) :
    nextReply t k = nextReply s (n + k) := by
  simp [Machine.nextReply, h.env, h.busCalls, Nat.add_assoc]

theorem ran_setPhase (ph : Phase) (s : State) : Ran s (setPhase ph s) 0 [] :=
  ⟨by simp, by simp, by simp, ⟨by simp, by simp, by simp, by simp, by simp, by simp, by simp, by simp, by simp, by simp, by simp⟩,
   by simp, by simp, by simp, by simp [requestedDelay]⟩

theorem ran_delay (n : Nat) (s : State) : Ran s (delay n s) 0 [.delay n] :=
  ⟨by simp, by simp, by simp, ⟨by simp, by simp, by simp, by simp, by simp, by simp, by simp, by simp, by simp, by simp, by simp⟩,
   by simp, by simp, by simp, by simp [requestedDelay]⟩

theorem ran_afterWrite (a : BusAddr) (v : Byte) (s : State) : Ran s (afterWrite a v s) 1 [.write a v .ok] :=
  ⟨by simp, by simp, by simp, ⟨by simp, by simp, by simp, by simp, by simp, by simp, by simp, by simp, by simp, by simp, by simp⟩,
   by simp, by simp, by simp, by simp [requestedDelay]⟩

theorem ran_afterFailedWrite (a : BusAddr) (v : Byte) (e : ErrorValue) (s : State) :
    Ran s (afterFailedWrite a v e s) 1 [.write a v (.err e)] :=
  ⟨by simp, by simp, by simp, ⟨by simp, by simp, by simp, by simp, by simp, by simp, by simp, by simp, by simp, by simp, by simp⟩,
   by simp, by simp, by simp, by simp [requestedDelay]⟩

theorem ran_pulseMid (h : Half) (f : Byte) (s : State) :
    Ran s (pulseMid h f s) 1 [.write s.addr (withEnable s.params.layout f) .ok, .delay s.params.tEnMs] :=
  (((((ran_setPhase (phaseWE h) s).trans (ran_afterWrite s.addr (withEnable s.params.layout f) _)).trans
    (ran_setPhase (phaseTE h) _)).trans (ran_delay s.params.tEnMs _)).trans (ran_setPhase (phaseWC h) _))

/-- A completed pulse made the four events of R85 and left the frame in `P`. -/
theorem ran_afterPulse (h : Half) (f : Byte) (s : State) : Ran s (afterPulse h f s) 2 (pulseEvents s f) :=
  ((ran_pulseMid h f s).trans (ran_afterWrite s.addr f _)).trans
    ((ran_setPhase (phaseTS h) _).trans (ran_delay s.params.tSettleMs _))

@[simp] theorem afterPulse_p (h : Half) (f : Byte) (s : State) : (afterPulse h f s).p = f := by simp [afterPulse]

@[simp] theorem pulseMid_latches (h : Half) (f : Byte) (s : State) : (pulseMid h f s).latches = s.latches := by
  simp [pulseMid]

@[simp] theorem afterPulse_latches (h : Half) (f : Byte) (s : State) : (afterPulse h f s).latches = s.latches := by
  simp [afterPulse]

/-- Everything a pulse can do (R86), with what it left in the trace. -/
theorem pulse_ran (h : Half) (f : Byte) (s : State) :
    (RepliesOk s 2 ∧ ∃ t, pulse h f s = .returned t ∧ Ran s t 2 (pulseEvents s f) ∧ t.p = f ∧ t.latches = s.latches) ∨
    (∃ e, FailsAt s 0 e ∧ ∃ t, pulse h f s = .raised e t ∧ Ran s t 1 (failedPulseEvents s f false e)) ∨
    (∃ e, FailsAt s 1 e ∧ ∃ t, pulse h f s = .raised e t ∧ Ran s t 2 (failedPulseEvents s f true e)) := by
  rcases pulse_cases h f s with ⟨h0, h1, hp⟩ | ⟨e, h0, hp⟩ | ⟨e, h0, h1, hp⟩
  · refine .inl ⟨fun k => ?_, _, hp, ran_afterPulse h f s, by simp, by simp⟩
    match k with
    | 0 => exact h0
    | 1 => exact h1
  · exact .inr (.inl ⟨e, ⟨fun j => j.elim0, h0⟩, _, hp, (ran_setPhase _ s).trans (ran_afterFailedWrite _ _ e _)⟩)
  · refine .inr (.inr ⟨e, ⟨fun j => ?_, h1⟩, _, hp, (ran_pulseMid h f s).trans (ran_afterFailedWrite _ _ e _)⟩)
    match j with
    | 0 => exact h0

/-! ### The step -/

/-- Everything a step can do, by what the machine is about to do. -/
theorem step_cases (s : State) :
    (∃ w rest, OffersNext s w rest ∧ step s = offerWord w { s with program := rest }) ∨
    (∃ o rest, BeginsNext s o rest ∧ step s = beginOp o { s with program := rest }) ∨
    (∃ rest, s.phase = .idle ∧ s.program = .markInitialized :: rest ∧
      step s = .next { s with lifecycle := .initialized, program := rest }) ∨
    (∃ c, s.phase = .idle ∧ s.program = [] ∧ s.current = some c ∧ step s = .next (finishCall c s)) ∨
    (∃ c rest, CallsNext s c rest ∧ step s = startCall c { s with calls := rest }) ∨
    (s.phase = .idle ∧ s.program = [] ∧ s.current = none ∧ s.calls = [] ∧ step s = .next s) ∨
    (s.phase ≠ .idle ∧ noRow s = true ∧ step s = .fault .noTransition) ∨
    (s.phase ≠ .idle ∧ noRow s = false ∧ step s = .next (afterAdvance (advance s))) := by
  by_cases hp : s.phase = .idle
  · cases hprog : s.program with
    | cons t rest =>
      cases t with
      | issue w => exact .inl ⟨w, rest, ⟨hp, hprog⟩, by simp [step, hp, idleStep, hprog, runTask]⟩
      | call o => exact .inr (.inl ⟨o, rest, ⟨hp, hprog⟩, by simp [step, hp, idleStep, hprog, runTask]⟩)
      | markInitialized =>
        exact .inr (.inr (.inl ⟨rest, hp, rfl, by simp [step, hp, idleStep, hprog, runTask]⟩))
    | nil =>
      cases hc : s.current with
      | some c => exact .inr (.inr (.inr (.inl ⟨c, hp, rfl, rfl, by simp [step, hp, idleStep, hprog, nextCall, hc]⟩)))
      | none =>
        cases hcalls : s.calls with
        | cons c rest =>
          exact .inr (.inr (.inr (.inr (.inl
            ⟨c, rest, ⟨hp, hprog, hc, hcalls⟩, by simp [step, hp, idleStep, hprog, nextCall, hc, hcalls]⟩))))
        | nil =>
          exact .inr (.inr (.inr (.inr (.inr (.inl
            ⟨hp, rfl, rfl, rfl, by simp [step, hp, idleStep, hprog, nextCall, hc, hcalls]⟩)))))
  · by_cases hn : noRow s = true
    · exact .inr (.inr (.inr (.inr (.inr (.inr (.inl ⟨hp, hn, by simp [step, hp, busyStep, hn]⟩))))))
    · exact .inr (.inr (.inr (.inr (.inr (.inr (.inr ⟨hp, by simpa using hn, by simp [step, hp, busyStep, hn]⟩))))))

end Sys2Proof.Machine
end

