-- ==== Sys2Proof/Laws/Operations.lean ====
section
/-! SUPPORT. Everything an operation of an idle block can do: it makes all its primitive calls and answers ok, or it stops at the first failing bus write and answers that error. -/

namespace Sys2Proof.Machine

theorem ran_acceptSend (b : Byte) (m : Mode) (s : State) : Ran s (acceptSend b m s) 0 [] :=
  ⟨by simp, by simp, by simp, ⟨by simp, by simp, by simp, by simp, by simp, by simp, by simp, by simp, by simp, by simp, by simp⟩,
   by simp, by simp, by simp, by simp [requestedDelay]⟩

theorem ran_acceptNib (n : Nibble) (s : State) : Ran s (acceptNib n s) 0 [] :=
  ⟨by simp, by simp, by simp, ⟨by simp, by simp, by simp, by simp, by simp, by simp, by simp, by simp, by simp, by simp, by simp⟩,
   by simp, by simp, by simp, by simp [requestedDelay]⟩

theorem ran_acceptWait (d : WaitCount) (s : State) : Ran s (acceptWait d s) 0 [] :=
  ⟨by simp, by simp, by simp, ⟨by simp, by simp, by simp, by simp, by simp, by simp, by simp, by simp, by simp, by simp, by simp⟩,
   by simp, by simp, by simp, by simp [requestedDelay]⟩

theorem hostSide_endOperation (r : Reply) (s : State) : HostSideUnchanged s (endOperation r s) :=
  ⟨by simp, by simp, by simp, by simp, by simp, by simp, by simp, by simp, by simp, by simp, by simp⟩

/-- A whole operation ran: the primitive calls `evs`, `n` of them bus writes, then the one answer `r`; the block is idle and
nothing of the host has changed. -/
structure Done (s t : State) (n : Nat) (evs : List Event) (r : Reply) : Prop where
  trace : t.trace = s.trace ++ evs
  answers : t.answers = s.answers ++ [r]
  phase : t.phase = .idle
  host : HostSideUnchanged s t
  env : t.env = s.env.drop n
  busCalls : t.busCalls = s.busCalls + n
  waited : t.waited = s.waited + requestedDelay evs

/-- The replies after an operation are those from the ones it used up on. -/
theorem Done.nextReply {s t : State} {n : Nat} {evs : List Event} {r : Reply} (h : Done s t n evs r) (k : Nat) :
    nextReply t k = nextReply s (n + k) := by
  simp [Machine.nextReply, h.env, h.busCalls, Nat.add_assoc]

/-- A stretch followed by the end of the operation. -/
theorem Ran.done {s t : State} {n : Nat} {evs : List Event} (h : Ran s t n evs) (r : Reply) :
    Done s (endOperation r t) n evs r :=
  ⟨by simp [h.trace], by simp [h.answers], by simp, h.host.trans (hostSide_endOperation r t), by simp [h.env],
   by simp [h.busCalls], by simp [h.waited]⟩

theorem pulseEvents_congr {s t : State} (h : HostSideUnchanged s t) (f : Byte) : pulseEvents t f = pulseEvents s f := by
  simp [pulseEvents, h.addr, h.params]

theorem failedPulseEvents_congr {s t : State} (h : HostSideUnchanged s t) (f : Byte) (second : Bool) (e : ErrorValue) :
    failedPulseEvents t f second e = failedPulseEvents s f second e := by
  simp [failedPulseEvents, h.addr, h.params]

theorem repliesOk_add {s : State} {n k : Nat} (h : RepliesOk s n) (h' : ∀ j : Fin k, nextReply s (n + j) = .ok) :
    RepliesOk s (n + k) := by
  intro j
  by_cases hj : (j : Nat) < n
  · exact h ⟨j, hj⟩
  · have hk : (j : Nat) - n < k := by have := j.2; omega
    have := h' ⟨j - n, hk⟩
    simpa [Nat.add_sub_cancel' (Nat.le_of_not_lt hj)] using this

/-- Everything a SEND can do (R90, R91). -/
theorem send_done (b : Byte) (m : Mode) (s : State) :
    (send b m s).bl = s.bl ∧
    ((RepliesOk s 4 ∧ Done s (send b m s) 4 (sendEvents s b m) .ok ∧ (send b m s).p = lowFrame s b m) ∨
     (∃ (k : Fin 4) (e : ErrorValue), FailsAt s k e ∧
       Done s (send b m s) (k + 1) (failedSendEvents s b m k e) (.err e))) := by
  have ha := ran_acceptSend b m s
  unfold send
  rcases pulse_ran .high (frame s.params.layout (highNibble b) m s.bl) (acceptSend b m s) with
    ⟨hr, t, hp, ht, -, -⟩ | ⟨e, hr, t, hp, ht⟩ | ⟨e, hr, t, hp, ht⟩
  · have h1 := ha.trans ht
    have hl : frame t.params.layout (lowNibble b) m t.bl = lowFrame s b m := by rw [h1.host.params, h1.bl]; rfl
    have hr' : RepliesOk s 2 := hr
    rw [hp]
    show (pulse .low _ t).answer.bl = _ ∧ ((_ ∧ Done s (pulse .low _ t).answer 4 _ _ ∧ (pulse .low _ t).answer.p = _) ∨
      (∃ (k : Fin 4) (e : ErrorValue), _ ∧ Done s (pulse .low _ t).answer _ _ _))
    rcases pulse_ran .low (frame t.params.layout (lowNibble b) m t.bl) t with
      ⟨hr2, u, hp', hu, hup, -⟩ | ⟨e, hr2, u, hp', hu⟩ | ⟨e, hr2, u, hp', hu⟩
    · have hd := (h1.trans hu).done .ok
      rw [hl, pulseEvents_congr ha.host, pulseEvents_congr h1.host] at hd
      rw [hp']
      refine ⟨(h1.trans hu).bl, .inl ⟨?_, hd, hup.trans hl⟩⟩
      exact repliesOk_add (n := 2) (k := 2) hr' fun j => by have := hr2 j; rwa [h1.nextReply] at this
    · have hd := (h1.trans hu).done (.err e)
      rw [hl, pulseEvents_congr ha.host, failedPulseEvents_congr h1.host] at hd
      rw [hp']
      refine ⟨(h1.trans hu).bl, .inr ⟨2, e, ⟨hr', ?_⟩, hd⟩⟩
      have := hr2.2
      rwa [h1.nextReply] at this
    · have hd := (h1.trans hu).done (.err e)
      rw [hl, pulseEvents_congr ha.host, failedPulseEvents_congr h1.host] at hd
      rw [hp']
      refine ⟨(h1.trans hu).bl, .inr ⟨3, e, ⟨?_, ?_⟩, hd⟩⟩
      · exact repliesOk_add (n := 2) (k := 1) hr' fun j => by have := hr2.1 j; rwa [h1.nextReply] at this
      · have := hr2.2
        rwa [h1.nextReply] at this
  · have hd := (ha.trans ht).done (.err e)
    rw [failedPulseEvents_congr ha.host] at hd
    rw [hp]
    exact ⟨(ha.trans ht).bl, .inr ⟨0, e, hr, hd⟩⟩
  · have hd := (ha.trans ht).done (.err e)
    rw [failedPulseEvents_congr ha.host] at hd
    rw [hp]
    exact ⟨(ha.trans ht).bl, .inr ⟨1, e, hr, hd⟩⟩

/-- Everything a NIB can do (R92, R86). -/
theorem sendNibble_done (n : Nibble) (s : State) :
    (sendNibble n s).bl = s.bl ∧
    ((RepliesOk s 2 ∧ Done s (sendNibble n s) 2 (pulseEvents s (frame s.params.layout n .command s.bl)) .ok ∧
       (sendNibble n s).p = frame s.params.layout n .command s.bl) ∨
     (∃ (k : Fin 2) (e : ErrorValue), FailsAt s k e ∧
       Done s (sendNibble n s) (k + 1)
         (failedPulseEvents s (frame s.params.layout n .command s.bl) (k == 1) e) (.err e))) := by
  have ha := ran_acceptNib n s
  unfold sendNibble
  rcases pulse_ran .high (frame s.params.layout n .command s.bl) (acceptNib n s) with
    ⟨hr, t, hp, ht, htp, -⟩ | ⟨e, hr, t, hp, ht⟩ | ⟨e, hr, t, hp, ht⟩
  · have hd := (ha.trans ht).done .ok
    rw [pulseEvents_congr ha.host] at hd
    rw [hp]
    exact ⟨(ha.trans ht).bl, .inl ⟨hr, hd, htp⟩⟩
  · have hd := (ha.trans ht).done (.err e)
    rw [failedPulseEvents_congr ha.host] at hd
    rw [hp]
    exact ⟨(ha.trans ht).bl, .inr ⟨0, e, hr, hd⟩⟩
  · have hd := (ha.trans ht).done (.err e)
    rw [failedPulseEvents_congr ha.host] at hd
    rw [hp]
    exact ⟨(ha.trans ht).bl, .inr ⟨1, e, hr, hd⟩⟩

/-- Everything a WAIT can do (R97). -/
theorem waitMs_done (d : WaitCount) (s : State) :
    (waitMs d s).bl = s.bl ∧ Done s (waitMs d s) 0 [.delay d.toNat] .ok ∧ BusSideUnchanged s (waitMs d s) :=
  ⟨rfl, ((ran_acceptWait d s).trans (ran_delay d.toNat _)).done .ok, ⟨rfl, rfl, rfl, rfl⟩⟩

/-- Everything a SETBL can do (R95), offered to an idle block. -/
theorem setBacklight_done (f : Bool) (s : State) (h : s.phase = .idle) :
    (setBacklight f s).bl = f ∧ Done s (setBacklight f s) 0 [] .ok ∧ BusSideUnchanged s (setBacklight f s) :=
  ⟨rfl, ⟨by simp, by simp, by simpa using h, ⟨rfl, rfl, rfl, rfl, rfl, rfl, rfl, rfl, rfl, rfl, rfl⟩, rfl, rfl, rfl⟩,
   ⟨rfl, rfl, rfl, rfl⟩⟩

/-! ### One inversion for all operations -/

/-- The body of an operation: what an idle block does when it accepts it. -/
def bodyOf (i : Instr) (s : State) : State :=
  match i with
  | .sendC b => send b .command s
  | .sendD b => send b .data s
  | .nib n => sendNibble n s
  | .setbl f => setBacklight f s
  | .wait d => waitMs d s

/-- `BL` after an operation: SETBL alone writes it. -/
def blAfter (i : Instr) (s : State) : Bool :=
  match i with
  | .setbl f => f
  | .sendC _ => s.bl
  | .sendD _ => s.bl
  | .nib _ => s.bl
  | .wait _ => s.bl

/-- The events of an operation none of whose writes fails. -/
def okEvents (i : Instr) (s : State) : List Event :=
  match i with
  | .sendC b => sendEvents s b .command
  | .sendD b => sendEvents s b .data
  | .nib n => pulseEvents s (frame s.params.layout n .command s.bl)
  | .setbl _ => []
  | .wait d => [.delay d.toNat]

/-- The events of an operation whose write `k + 1` is the first to fail. -/
def failedEvents (i : Instr) (s : State) (k : Nat) (e : ErrorValue) : List Event :=
  match i with
  | .sendC b => failedSendEvents s b .command (Fin.ofNat 4 k) e
  | .sendD b => failedSendEvents s b .data (Fin.ofNat 4 k) e
  | .nib n => failedPulseEvents s (frame s.params.layout n .command s.bl) (k == 1) e
  | .setbl _ => []
  | .wait _ => []

theorem exec_idle (i : Instr) {s : State} (h : s.phase = .idle) : exec i s = .next (bodyOf i s) := by
  cases i <;> exact offer_idle h _

/-- Everything an operation of an idle block can do. -/
theorem bodyOf_done (i : Instr) {s : State} (h : s.phase = .idle) :
    (bodyOf i s).bl = blAfter i s ∧
    ((RepliesOk s (busWritesOf i) ∧ Done s (bodyOf i s) (busWritesOf i) (okEvents i s) .ok) ∨
     (∃ k e, k < busWritesOf i ∧ FailsAt s k e ∧ Done s (bodyOf i s) (k + 1) (failedEvents i s k e) (.err e))) := by
  cases i with
  | sendC b =>
    refine ⟨(send_done b .command s).1, ?_⟩
    rcases (send_done b .command s).2 with ⟨hr, hd, -⟩ | ⟨k, e, hf, hd⟩
    · exact .inl ⟨hr, hd⟩
    · exact .inr ⟨k, e, k.2, hf, by simpa [failedEvents, bodyOf] using hd⟩
  | sendD b =>
    refine ⟨(send_done b .data s).1, ?_⟩
    rcases (send_done b .data s).2 with ⟨hr, hd, -⟩ | ⟨k, e, hf, hd⟩
    · exact .inl ⟨hr, hd⟩
    · exact .inr ⟨k, e, k.2, hf, by simpa [failedEvents, bodyOf] using hd⟩
  | nib n =>
    refine ⟨(sendNibble_done n s).1, ?_⟩
    rcases (sendNibble_done n s).2 with ⟨hr, hd, -⟩ | ⟨k, e, hf, hd⟩
    · exact .inl ⟨hr, hd⟩
    · refine .inr ⟨k, e, k.2, hf, ?_⟩
      match k with
      | 0 => exact hd
      | 1 => exact hd
  | setbl f => exact ⟨rfl, .inl ⟨fun k => k.elim0, (setBacklight_done f s h).2.1⟩⟩
  | wait d => exact ⟨rfl, .inl ⟨fun k => k.elim0, (waitMs_done d s).2.1⟩⟩

/-- The first failing write is one write with one error. -/
theorem failsAt_unique {s : State} {k k' : Nat} {e e' : ErrorValue} (h : FailsAt s k e) (h' : FailsAt s k' e') :
    k = k' ∧ e = e' := by
  rcases Nat.lt_trichotomy k k' with hk | hk | hk
  · have := h'.1 ⟨k, hk⟩
    rw [h.2] at this
    cases this
  · subst hk
    have := h.2.symm.trans h'.2
    cases this
    exact ⟨rfl, rfl⟩
  · have := h.1 ⟨k', hk⟩
    rw [h'.2] at this
    cases this

/-- A failing write among the next `n` is no run of `n` good ones. -/
theorem FailsAt.not_repliesOk {s : State} {k n : Nat} {e : ErrorValue} (h : FailsAt s k e) (hk : k < n) :
    ¬RepliesOk s n := by
  intro h'
  have := h' ⟨k, hk⟩
  rw [h.2] at this
  cases this

end Sys2Proof.Machine
end

