-- ==== Sys2Proof/Laws/Step.lean ====
section
/-! SUPPORT. Everything a step can do: one inversion for the idle block, one for the busy block, and what the host does with an answer. -/

namespace Sys2Proof.Machine

/-! ### The host takes an answer -/

theorem takeAnswer_ok {t : State} {l : List Reply} (h : t.answers = l ++ [.ok]) : takeAnswer t = t := by
  simp [takeAnswer, h]

theorem takeAnswer_err {t : State} {l : List Reply} {e : ErrorValue} (h : t.answers = l ++ [.err e]) :
    takeAnswer t = failCall e t := by
  simp [takeAnswer, h]

/-- Everything the host can do with an answer. -/
theorem takeAnswer_cases (t : State) : takeAnswer t = t ∨ ∃ e, takeAnswer t = failCall e t := by
  unfold takeAnswer
  split
  · exact .inr ⟨_, rfl⟩
  · exact .inl rfl
  · exact .inl rfl

@[simp] theorem takeAnswer_addr (t : State) : (takeAnswer t).addr = t.addr := by unfold takeAnswer; split <;> rfl
@[simp] theorem takeAnswer_bl (t : State) : (takeAnswer t).bl = t.bl := by unfold takeAnswer; split <;> rfl
@[simp] theorem takeAnswer_phase (t : State) : (takeAnswer t).phase = t.phase := by unfold takeAnswer; split <;> rfl
@[simp] theorem takeAnswer_latches (t : State) : (takeAnswer t).latches = t.latches := by unfold takeAnswer; split <;> rfl
@[simp] theorem takeAnswer_dc (t : State) : (takeAnswer t).dc = t.dc := by unfold takeAnswer; split <;> rfl
@[simp] theorem takeAnswer_em (t : State) : (takeAnswer t).em = t.em := by unfold takeAnswer; split <;> rfl
@[simp] theorem takeAnswer_rows (t : State) : (takeAnswer t).rows = t.rows := by unfold takeAnswer; split <;> rfl
@[simp] theorem takeAnswer_cell (t : State) : (takeAnswer t).cell = t.cell := by unfold takeAnswer; split <;> rfl
@[simp] theorem takeAnswer_p (t : State) : (takeAnswer t).p = t.p := by unfold takeAnswer; split <;> rfl
@[simp] theorem takeAnswer_trace (t : State) : (takeAnswer t).trace = t.trace := by unfold takeAnswer; split <;> rfl
@[simp] theorem takeAnswer_answers (t : State) : (takeAnswer t).answers = t.answers := by unfold takeAnswer; split <;> rfl
@[simp] theorem takeAnswer_calls (t : State) : (takeAnswer t).calls = t.calls := by unfold takeAnswer; split <;> rfl
@[simp] theorem takeAnswer_params (t : State) : (takeAnswer t).params = t.params := by unfold takeAnswer; split <;> rfl
@[simp] theorem takeAnswer_env (t : State) : (takeAnswer t).env = t.env := by unfold takeAnswer; split <;> rfl
@[simp] theorem takeAnswer_waited (t : State) : (takeAnswer t).waited = t.waited := by unfold takeAnswer; split <;> rfl
@[simp] theorem takeAnswer_busCalls (t : State) : (takeAnswer t).busCalls = t.busCalls := by
  unfold takeAnswer; split <;> rfl

theorem lifecycleAfterFailure_cases (c : Option HostCall) (l : Lifecycle) :
    lifecycleAfterFailure c l = l ∨ lifecycleAfterFailure c l = .gone := by
  unfold lifecycleAfterFailure
  split
  · exact .inr rfl
  · exact .inl rfl

/-! ### The idle block -/

theorem bodyOf_phase (i : Instr) {s : State} (h : s.phase = .idle) : (bodyOf i s).phase = .idle := by
  rcases (bodyOf_done i h).2 with ⟨_, hd⟩ | ⟨_, _, _, _, hd⟩ <;> exact hd.phase

theorem bodyOf_host (i : Instr) {s : State} (h : s.phase = .idle) : HostSideUnchanged s (bodyOf i s) := by
  rcases (bodyOf_done i h).2 with ⟨_, hd⟩ | ⟨_, _, _, _, hd⟩ <;> exact hd.host

theorem bodyOf_answers (i : Instr) {s : State} (h : s.phase = .idle) : ∃ r, (bodyOf i s).answers = s.answers ++ [r] := by
  rcases (bodyOf_done i h).2 with ⟨_, hd⟩ | ⟨_, _, _, _, hd⟩ <;> exact ⟨_, hd.answers⟩

theorem step_offers {s : State} {w : Word} {rest : List HostTask} {i : Instr} (h : OffersNext s w rest)
    (hd : decode w = .instr i) : step s = .next (takeAnswer (bodyOf i { s with program := rest })) := by
  have hp : s.phase = .idle := h.1
  have he : exec i { s with program := rest } = .next (bodyOf i { s with program := rest }) := exec_idle i hp
  have hs : step s = offerWord w { s with program := rest } := by unfold step idleStep; rw [if_pos hp, h.2]; rfl
  rw [hs]
  unfold offerWord
  rw [hd]
  show answered (exec i _) = _
  rw [he]
  rfl

theorem step_offers_reserved {s : State} {w : Word} {rest : List HostTask} {why : Reserved} (h : OffersNext s w rest)
    (hd : decode w = .reserved why) : step s = .refused (.reservedWord why) := by
  have hp : s.phase = .idle := h.1
  simp [step, hp, idleStep, h.2, runTask, offerWord, hd]

theorem step_begins {s : State} {o : HostOp} {rest : List HostTask} (h : BeginsNext s o rest) :
    step s = beginOp o { s with program := rest } := by
  simp [step, h.1, idleStep, h.2, runTask]

theorem step_calls {s : State} {c : HostCall} {rest : List HostCall} (h : CallsNext s c rest) :
    step s = startCall c { s with calls := rest } := by
  obtain ⟨h1, h2, h3, h4⟩ := h
  simp [step, h1, idleStep, h2, nextCall, h3, h4]

@[simp] theorem updateAccumulators_program (o : HostOp) (s : State) :
    (updateAccumulators o s).program = s.program := by cases o <;> rfl

@[simp] theorem updateAccumulators_phase (o : HostOp) (s : State) :
    (updateAccumulators o s).phase = s.phase := by cases o <;> rfl

@[simp] theorem updateAccumulators_trace (o : HostOp) (s : State) :
    (updateAccumulators o s).trace = s.trace := by cases o <;> rfl

@[simp] theorem updateAccumulators_bl (o : HostOp) (s : State) : (updateAccumulators o s).bl = s.bl := by
  cases o <;> rfl

@[simp] theorem updateAccumulators_addr (o : HostOp) (s : State) : (updateAccumulators o s).addr = s.addr := by
  cases o <;> rfl

@[simp] theorem updateAccumulators_rows (o : HostOp) (s : State) : (updateAccumulators o s).rows = s.rows := by
  cases o <;> rfl

@[simp] theorem updateAccumulators_cell (o : HostOp) (s : State) : (updateAccumulators o s).cell = s.cell := by
  cases o <;> rfl

@[simp] theorem updateAccumulators_params (o : HostOp) (s : State) :
    (updateAccumulators o s).params = s.params := by cases o <;> rfl

@[simp] theorem updateAccumulators_lifecycle (o : HostOp) (s : State) :
    (updateAccumulators o s).lifecycle = s.lifecycle := by cases o <;> rfl

@[simp] theorem updateAccumulators_latches (o : HostOp) (s : State) :
    (updateAccumulators o s).latches = s.latches := by cases o <;> rfl

@[simp] theorem updateAccumulators_env (o : HostOp) (s : State) : (updateAccumulators o s).env = s.env := by
  cases o <;> rfl

@[simp] theorem updateAccumulators_waited (o : HostOp) (s : State) :
    (updateAccumulators o s).waited = s.waited := by cases o <;> rfl

@[simp] theorem updateAccumulators_busCalls (o : HostOp) (s : State) :
    (updateAccumulators o s).busCalls = s.busCalls := by cases o <;> rfl

/-- The state after an operation of the driver has begun. -/
def begun (o : HostOp) (rest : List HostTask) (s : State) : State :=
  { updateAccumulators o { s with program := rest } with
    program := expansion o (updateAccumulators o { s with program := rest }) ++ rest }

theorem step_begins_wellFormed {s : State} {o : HostOp} {rest : List HostTask} (h : BeginsNext s o rest)
    (hw : o.wellFormed s.rows = true) : step s = .next (begun o rest s) := by
  rw [step_begins h]
  unfold beginOp
  rw [if_pos (show o.wellFormed s.rows = true from hw)]
  rfl

theorem step_begins_illFormed {s : State} {o : HostOp} {rest : List HostTask} (h : BeginsNext s o rest)
    (hw : o.wellFormed s.rows = false) : step s = .refused (operandRefusal o) := by
  rw [step_begins h]
  unfold beginOp
  rw [if_neg (by show ¬o.wellFormed s.rows = true; simp [hw])]

/-- The next states of an idle block. -/
inductive IdleNext (s : State) : State → Prop where
  /-- An offered command word was carried out and the host took the answer. -/
  | offered (w : Word) (rest : List HostTask) (i : Instr) (h : OffersNext s w rest) (hd : decode w = .instr i) :
      IdleNext s (takeAnswer (bodyOf i { s with program := rest }))
  /-- An operation of the driver was begun. -/
  | began (o : HostOp) (rest : List HostTask) (h : BeginsNext s o rest) (hw : o.wellFormed s.rows = true) :
      IdleNext s (begun o rest s)
  /-- `enable` marked the handle initialized. -/
  | marked (rest : List HostTask) (hp : s.phase = .idle) (h : s.program = .markInitialized :: rest) :
      IdleNext s { s with lifecycle := .initialized, program := rest }
  /-- The call in progress returned. -/
  | finished (c : HostCall) (hp : s.phase = .idle) (h : s.program = []) (hc : s.current = some c) :
      IdleNext s (finishCall c s)
  /-- A Handle was constructed. -/
  | constructs (c : Configuration) (rest : List HostCall) (a : BusAddr) (r : RowCount)
      (h : CallsNext s (.construct c) rest) (ha : configuredAddr c.addr = some a) (hr : configuredRows c.rows = some r) :
      IdleNext s (constructed a r (c.cell.getD .dots5x8) { s with calls := rest })
  /-- A call of an operation was begun. -/
  | called (o : HostOp) (rest : List HostCall) (h : CallsNext s (.op o) rest) (ha : s.lifecycle.admits o = true) :
      IdleNext s { s with calls := rest, program := [.call o], current := some (.op o) }
  /-- A list of command words was taken up. -/
  | words (ws : List Word) (rest : List HostCall) (h : CallsNext s (.commandWords ws) rest)
      (hl : s.lifecycle ≠ .gone) (hr : firstReserved ws = none) :
      IdleNext s { s with calls := rest, program := ws.map .issue, current := some (.commandWords ws) }
  /-- The Handle was dropped. -/
  | drops (rest : List HostCall) (h : CallsNext s .drop rest) (hl : s.lifecycle ≠ .gone) :
      IdleNext s (dropped { s with calls := rest })
  /-- Nothing to do. -/
  | waits (hp : s.phase = .idle) (h : s.program = []) (hc : s.current = none) (hn : s.calls = []) : IdleNext s s

/-- Everything a call of the application can do. -/
theorem startCall_next {s t : State} {c : HostCall} {rest : List HostCall} (h : CallsNext s c rest)
    (ht : startCall c { s with calls := rest } = .next t) : IdleNext s t := by
  cases c with
  | construct c =>
    simp only [startCall, construct] at ht
    split at ht
    · rename_i a r ha hr
      cases ht
      exact .constructs c rest a r h ha hr
    all_goals cases ht
  | op o =>
    simp only [startCall] at ht
    split at ht
    · rename_i ha
      cases ht
      exact .called o rest h ha
    · cases ht
  | commandWords ws =>
    simp only [startCall] at ht
    split at ht
    · cases ht
    · rename_i hl
      simp only [loadWords] at ht
      split at ht
      · cases ht
      · rename_i hr
        cases ht
        exact .words ws rest h hl hr
  | drop =>
    simp only [startCall] at ht
    split at ht
    · cases ht
    · rename_i hl
      cases ht
      exact .drops rest h hl

/-- A step of an idle block, inverted. -/
theorem idle_next {s t : State} (hp : s.phase = .idle) (h : step s = .next t) : IdleNext s t := by
  rcases step_cases s with ⟨w, rest, ho, hs⟩ | ⟨o, rest, hb, hs⟩ | ⟨rest, _, hm, hs⟩ | ⟨c, _, h1, h2, hs⟩ |
    ⟨c, rest, hc, hs⟩ | ⟨_, h1, h2, h3, hs⟩ | ⟨h1, _⟩ | ⟨h1, _⟩
  · cases hd : decode w with
    | instr i =>
      rw [step_offers ho hd] at h
      cases h
      exact .offered w rest i ho hd
    | reserved why =>
      rw [step_offers_reserved ho hd] at h
      cases h
  · cases hw : o.wellFormed s.rows with
    | true =>
      rw [step_begins_wellFormed hb hw] at h
      cases h
      exact .began o rest hb hw
    | false =>
      rw [step_begins_illFormed hb hw] at h
      cases h
  · rw [hs] at h
    cases h
    exact .marked rest hp hm
  · rw [hs] at h
    cases h
    exact .finished c hp h1 h2
  · exact startCall_next hc (hs ▸ h)
  · rw [hs] at h
    cases h
    exact .waits hp h1 h2 h3
  · exact absurd hp h1
  · exact absurd hp h1

/-! ### The busy block -/

theorem step_busy {s : State} (h : s.phase ≠ .idle) (hn : ¬(s.phase = .hTS ∧ s.latches.opk = .wait)) :
    step s = .next (afterAdvance (advance s)) := by
  have hr : noRow s = false := by
    simp only [noRow, Bool.and_eq_false_iff, decide_eq_false_iff_not]
    exact Decidable.not_and_iff_or_not.mp hn
  simp [step, h, busyStep, hr]

theorem afterAdvance_busy {t : State} (h : t.phase ≠ .idle) : afterAdvance t = t := by simp [afterAdvance, h]

theorem afterAdvance_idle {t : State} (h : t.phase = .idle) : afterAdvance t = takeAnswer t := by simp [afterAdvance, h]

/-- Everything a write row of the table can do: the next position, or the exception. -/
theorem writeStep_cases (v : Byte) (after : Phase) (s : State) :
    (nextReply s 0 = .ok ∧ writeStep v after s = setPhase after (afterWrite s.addr v s)) ∨
    (∃ e, nextReply s 0 = .err e ∧
      writeStep v after s = takeTransportError e (afterFailedWrite s.addr v e s)) := by
  unfold writeStep
  rcases busWrite_cases s.addr v s with ⟨h, hb⟩ | ⟨e, h, hb⟩ <;> rw [hb]
  · exact .inl ⟨h, rfl⟩
  · exact .inr ⟨e, h, rfl⟩

/-- The rows of the table: which write or delay each position makes and where it goes. -/
inductive BusyRow (s : State) : Prop where
  /-- A bus write. -/
  | writes (v : Byte) (after : Phase) (hv : advance s = writeStep v after s)
      (row : s.phase = .hWE ∧ v = withEnable s.params.layout (latchedFrame .high s) ∧ after = .hTE ∨
        s.phase = .hWC ∧ v = latchedFrame .high s ∧ after = .hTS ∨
        s.phase = .lWE ∧ v = withEnable s.params.layout (latchedFrame .low s) ∧ after = .lTE ∨
        s.phase = .lWC ∧ v = latchedFrame .low s ∧ after = .lTS)
  /-- A delay in the middle of an operation. -/
  | delays (n : Nat) (after : Phase) (hv : advance s = setPhase after (delay n s))
      (row : s.phase = .hTE ∧ n = s.params.tEnMs ∧ after = .hWC ∨
        s.phase = .hTS ∧ s.latches.opk = .send ∧ n = s.params.tSettleMs ∧ after = .lWE ∨
        s.phase = .lTE ∧ n = s.params.tEnMs ∧ after = .lWC)
  /-- The last delay of an operation. -/
  | ends (n : Nat) (hv : advance s = returnOk (delay n s))
      (row : s.phase = .hTS ∧ s.latches.opk = .nib ∧ n = s.params.tSettleMs ∨
        s.phase = .lTS ∧ n = s.params.tSettleMs ∨
        s.phase = .wt ∧ n = s.latches.wcnt.toNat)

/-- Everything one primitive call of the sequencer can do. -/
theorem busy_row {s : State} (h : s.phase ≠ .idle) (hn : ¬(s.phase = .hTS ∧ s.latches.opk = .wait)) : BusyRow s := by
  cases hp : s.phase with
  | idle => exact absurd hp h
  | hWE => exact .writes _ .hTE (by simp only [advance, hp]) (.inl ⟨hp, rfl, rfl⟩)
  | hTE => exact .delays _ .hWC (by simp only [advance, hp]) (.inl ⟨hp, rfl, rfl⟩)
  | hWC => exact .writes _ .hTS (by simp only [advance, hp]) (.inr (.inl ⟨hp, rfl, rfl⟩))
  | hTS =>
    cases hk : s.latches.opk with
    | send => exact .delays _ .lWE (by simp only [advance, hp, hk]) (.inr (.inl ⟨hp, hk, rfl, rfl⟩))
    | nib => exact .ends _ (by simp only [advance, hp, hk]) (.inl ⟨hp, hk, rfl⟩)
    | wait => exact absurd ⟨hp, hk⟩ hn
  | lWE => exact .writes _ .lTE (by simp only [advance, hp]) (.inr (.inr (.inl ⟨hp, rfl, rfl⟩)))
  | lTE => exact .delays _ .lWC (by simp only [advance, hp]) (.inr (.inr ⟨hp, rfl, rfl⟩))
  | lWC => exact .writes _ .lTS (by simp only [advance, hp]) (.inr (.inr (.inr ⟨hp, rfl, rfl⟩)))
  | lTS => exact .ends _ (by simp only [advance, hp]) (.inr (.inl ⟨hp, rfl⟩))
  | wt => exact .ends _ (by simp only [advance, hp]) (.inr (.inr ⟨hp, rfl⟩))

/-- A step that answers a next state, inverted. -/
theorem step_next {s t : State} (h : step s = .next t) :
    (s.phase = .idle ∧ IdleNext s t) ∨
    (s.phase ≠ .idle ∧ ¬(s.phase = .hTS ∧ s.latches.opk = .wait) ∧ t = afterAdvance (advance s)) := by
  by_cases hp : s.phase = .idle
  · exact .inl ⟨hp, idle_next hp h⟩
  · have hn : ¬(s.phase = .hTS ∧ s.latches.opk = .wait) := by
      rintro ⟨h1, h2⟩
      have hr : noRow s = true := by simp [noRow, h1, h2]
      simp [step, h1, busyStep, hr] at h
    rw [step_busy hp hn] at h
    cases h
    exact .inr ⟨hp, hn, rfl⟩

end Sys2Proof.Machine
end

