-- ==== Sys2Proof/Laws/History.lean ====
section
/-! SUPPORT. What a well-formed sequence of operations since reset tells of the state it leads to, and how it goes on. -/

namespace Sys2Proof.Machine

theorem Issues.trans {s t u : State} {h h' : List (Instr × Reply)} (first : Issues s h t) (others : Issues t h' u) :
    Issues s (h ++ h') u := by
  induction first with
  | none => exact others
  | quiet s m _ h hs hn hd _ ih => exact .quiet s m u _ hs hn hd (ih others)
  | issued s m _ w rest i r h ho hw hs ha _ ih => exact .issued s m u w rest i r _ ho hw hs ha (ih others)

/-- The only call of the application that `s` may make next is an operation of the driver. -/
def CallsDriver (s : State) : Prop := ∀ c rest, CallsNext s c rest → ∃ o, c = .op o

theorem callsDriver_of_current {s : State} {c : HostCall} (h : s.current = some c) : CallsDriver s :=
  fun _ _ hn => by have := hn.2.2.1; rw [h] at this; cases this

theorem callsDriver_of_calls {s : State} {o : HostOp} {rest : List HostCall} (h : s.calls = .op o :: rest) :
    CallsDriver s := by
  rintro c rest' ⟨_, _, _, hc⟩
  rw [h] at hc
  cases hc
  exact ⟨o, rfl⟩

/-- A step of an idle block on which the application calls nothing but the driver issues one operation or none. -/
theorem issues_step {s t : State} (hp : s.phase = .idle) (h : step s = .next t) (hd : CallsDriver s) :
    ∃ l, Issues s l t := by
  rcases idle_next hp h with ⟨w, rest, i, ho, hw⟩ | ⟨o, rest, hb, _⟩ | ⟨rest, _, hm⟩ | ⟨c, _, h1, _⟩ |
    ⟨c, rest, a, r, hc, _⟩ | ⟨o, rest, hc, _⟩ | ⟨ws, rest, hc, _⟩ | ⟨rest, hc, _⟩ | ⟨_, h1, _⟩
  · obtain ⟨r, hr⟩ := bodyOf_answers i (s := { s with program := rest }) hp
    exact ⟨_, .issued s _ _ w rest i r [] ho hw h (by simp [hr]) (.none _)⟩
  all_goals refine ⟨[], .quiet s _ _ [] h (fun w r ho => ?_) hd (.none _)⟩
  · have := hb.2.symm.trans ho.2; cases this
  · have := hm.symm.trans ho.2; cases this
  · have := h1.symm.trans ho.2; cases this
  · have := hc.2.1.symm.trans ho.2; cases this
  · have := hc.2.1.symm.trans ho.2; cases this
  · have := hc.2.1.symm.trans ho.2; cases this
  · have := hc.2.1.symm.trans ho.2; cases this
  · have := h1.symm.trans ho.2; cases this

/-- What the driver's steps keep: the block idle, and everything of the construction but the flags. -/
structure DriverKept (s t : State) : Prop where
  phase : t.phase = .idle
  params : t.params = s.params
  rows : t.rows = s.rows
  cell : t.cell = s.cell

theorem driverKept_step {s t : State} (hp : s.phase = .idle) (h : step s = .next t) (hd : CallsDriver s) :
    DriverKept s t := by
  rcases idle_next hp h with ⟨w, rest, i, _, _⟩ | ⟨o, rest, _, _⟩ | ⟨rest, _, _⟩ | ⟨c, _, _, _⟩ |
    ⟨c, rest, a, r, hc, _⟩ | ⟨o, rest, _, _⟩ | ⟨ws, rest, hc, _⟩ | ⟨rest, hc, _⟩ | _
  · have hh := bodyOf_host i (s := { s with program := rest }) hp
    exact ⟨by rw [takeAnswer_phase]; exact bodyOf_phase i hp, by rw [takeAnswer_params]; exact hh.params,
      by rw [takeAnswer_rows]; exact hh.rows, by rw [takeAnswer_cell]; exact hh.cell⟩
  · exact ⟨by simp [begun, hp], by simp [begun], by simp [begun], by simp [begun]⟩
  · exact ⟨hp, rfl, rfl, rfl⟩
  · exact ⟨hp, rfl, rfl, rfl⟩
  · obtain ⟨o, ho⟩ := hd _ _ hc; cases ho
  · exact ⟨hp, rfl, rfl, rfl⟩
  · obtain ⟨o, ho⟩ := hd _ _ hc; cases ho
  · obtain ⟨o, ho⟩ := hd _ _ hc; cases ho
  · exact ⟨hp, rfl, rfl, rfl⟩

theorem callsDriver_of_offers {s : State} {w : Word} {rest : List HostTask} (h : OffersNext s w rest) :
    CallsDriver s := fun _ _ hn => by have := h.2.symm.trans hn.2.1; cases this

/-- Everything the driver keeps, over any number of its operations. -/
theorem Issues.driverKept {s t : State} {h : List (Instr × Reply)} (hi : Issues s h t) (hp : s.phase = .idle) :
    DriverKept s t := by
  induction hi with
  | none => exact ⟨hp, rfl, rfl, rfl⟩
  | quiet s m _ _ hs _ hd _ ih =>
    have k := driverKept_step hp hs hd
    have k' := ih k.phase
    exact ⟨k'.phase, k'.params.trans k.params, k'.rows.trans k.rows, k'.cell.trans k.cell⟩
  | issued s m _ _ _ _ _ _ ho _ hs _ _ ih =>
    have k := driverKept_step hp hs (callsDriver_of_offers ho)
    have k' := ih k.phase
    exact ⟨k'.phase, k'.params.trans k.params, k'.rows.trans k.rows, k'.cell.trans k.cell⟩

theorem WellFormedSoFar.phase {s : State} (h : WellFormedSoFar s) : s.phase = .idle :=
  have ⟨_, _, hf, hi⟩ := h
  (hi.driverKept hf.phase).phase

/-- The history a well-formed state carries is well formed. -/
theorem WellFormedSoFar.history {s : State} (h : WellFormedSoFar s) :
    ∃ l, WellFormedHistory s.params s.rows s.cell l :=
  have ⟨f, l, hf, hi⟩ := h
  ⟨l, f, s, hf, hi⟩

/-- A newly constructed Handle has issued nothing, which is well formed. -/
theorem FreshHandle.wellFormedSoFar {s : State} (h : FreshHandle s.params s.rows s.cell s) : WellFormedSoFar s :=
  ⟨s, [], h, .none s⟩

/-- What the driver issues from a well-formed state leads to one: claims about its calls chain. -/
theorem WellFormedSoFar.issues {s t : State} {l : List (Instr × Reply)} (h : WellFormedSoFar s) (hi : Issues s l t) :
    WellFormedSoFar t := by
  have k := hi.driverKept h.phase
  obtain ⟨f, l', hf, hi'⟩ := h
  exact ⟨f, l' ++ l, by rw [k.params, k.rows, k.cell]; exact hf, hi'.trans hi⟩

theorem WellFormedSoFar.step {s t : State} (h : WellFormedSoFar s) (hs : step s = .next t) (hd : CallsDriver s) :
    WellFormedSoFar t :=
  have ⟨_, hi⟩ := issues_step h.phase hs hd
  h.issues hi

theorem wellFormedSoFar_reset : WellFormedSoFar State.reset :=
  FreshHandle.wellFormedSoFar ⟨rfl, rfl, rfl, rfl, rfl, rfl, rfl, rfl, rfl, rfl, rfl, rfl⟩

/-- Where the driver stands with an uninitialized handle: between two calls, with the accumulators of reset, or inside
`enable`, with the handle still to be marked. -/
def Standing (s : State) : Prop :=
  s.lifecycle = .uninitialized →
    (s.program = [] ∧ s.current = none ∧ s.dc = ⟨false, false, false⟩ ∧ s.em = ⟨false, false⟩) ∨
    (s.current = some (.op .enable) ∧ (.markInitialized ∈ s.program ∨ s.program = [.call .enable]))

theorem standing_step {s t : State} (hp : s.phase = .idle) (hst : Standing s) (h : step s = .next t)
    (hd : CallsDriver s) : Standing t := by
  rcases idle_next hp h with ⟨w, rest, i, ho, _⟩ | ⟨o, rest, hb, _⟩ | ⟨rest, _, _⟩ | ⟨c, _, h1, h2⟩ |
    ⟨c, rest, a, r, hc, _⟩ | ⟨o, rest, hc, ha⟩ | ⟨ws, rest, hc, _⟩ | ⟨rest, hc, _⟩ | _
  · have hh := bodyOf_host i (s := { s with program := rest }) hp
    obtain ⟨r, hr⟩ := bodyOf_answers i (s := { s with program := rest }) hp
    cases r with
    | ok =>
      rw [takeAnswer_ok hr]
      intro hl
      rcases hst (hh.lifecycle.symm.trans hl) with ⟨h0, _⟩ | ⟨hcur, hm⟩
      · rw [ho.2] at h0; cases h0
      · refine .inr ⟨hh.current.trans hcur, .inl ?_⟩
        rw [ho.2] at hm
        rw [hh.program]
        simpa using hm
    | err e =>
      rw [takeAnswer_err hr]
      intro hl
      have hl' : lifecycleAfterFailure s.current s.lifecycle = .uninitialized := by
        simpa only [failCall, hh.current, hh.lifecycle] using hl
      unfold lifecycleAfterFailure at hl'
      split at hl'
      · cases hl'
      · rename_i hne
        rcases hst hl' with ⟨h0, _⟩ | ⟨hcur, _⟩
        · rw [ho.2] at h0; cases h0
        · exact absurd hcur hne
  · intro hl
    have hl' : s.lifecycle = .uninitialized := by simpa [begun] using hl
    rcases hst hl' with ⟨h0, _⟩ | ⟨hcur, hm⟩
    · rw [hb.2] at h0; cases h0
    · refine .inr ⟨by cases o <;> exact hcur, .inl ?_⟩
      rw [hb.2] at hm
      rcases hm with hm | hm
      · have : HostTask.markInitialized ∈ rest := by simpa using hm
        simp [begun, this]
      · cases hm
        simp [begun, expansion, enableTasks]
  · intro hl; cases hl
  · intro hl
    rcases hst hl with ⟨_, h0, _⟩ | ⟨_, hm⟩
    · rw [h2] at h0; cases h0
    · rw [h1] at hm; simp at hm
  · obtain ⟨o, ho⟩ := hd _ _ hc; cases ho
  · intro hl
    have hl' : s.lifecycle = .uninitialized := hl
    rw [hl'] at ha
    have : o = .enable := by cases o <;> first | rfl | cases ha
    exact .inr ⟨by rw [this], .inr (by rw [this])⟩
  · obtain ⟨o, ho⟩ := hd _ _ hc; cases ho
  · obtain ⟨o, ho⟩ := hd _ _ hc; cases ho
  · exact hst

theorem Issues.standing {s t : State} {h : List (Instr × Reply)} (hi : Issues s h t) (hp : s.phase = .idle)
    (hs : Standing s) : Standing t := by
  induction hi with
  | none => exact hs
  | quiet s m _ _ first _ hd _ ih => exact ih (driverKept_step hp first hd).phase (standing_step hp hs first hd)
  | issued s m _ _ _ _ _ _ ho _ first _ _ ih =>
    have hd := callsDriver_of_offers ho
    exact ih (driverKept_step hp first hd).phase (standing_step hp hs first hd)

/-- Between two calls an uninitialized handle of a well-formed state still has its accumulators of reset. -/
theorem WellFormedSoFar.accumulators {s : State} (h : WellFormedSoFar s) (hl : s.lifecycle = .uninitialized)
    (hc : s.current = none) : s.dc = ⟨false, false, false⟩ ∧ s.em = ⟨false, false⟩ := by
  obtain ⟨f, l, hf, hi⟩ := h
  rcases hi.standing hf.phase (fun _ => .inl ⟨hf.program, hf.current, hf.dc, hf.em⟩) hl with ⟨_, _, h1, h2⟩ | ⟨h1, _⟩
  · exact ⟨h1, h2⟩
  · rw [hc] at h1; cases h1

end Sys2Proof.Machine
end

