-- ==== Sys2Proof/Laws/PerInstr.lean ====
section
/-! SUPPORT. Statements made per operation, one lemma per constructor: the encoding of an operation selects its own row of the opcode map and no other. -/

namespace Sys2Proof.Laws.OwnRow

/-- The operation is well formed, its row is one of the opcode map's, and of the map's rows its encoding selects exactly
that one (spec/30_encoding.md R56). -/
def Statement (i : Instr) : Prop :=
  i.wellFormed = true ∧ opcodeMap.filter (fun r => r.selects (encode i)) = [opcodeRowOf i]

/-- What a row's mask keeps of a word, from the bits the mask keeps. -/
theorem and_mask_eq {w m p : Word} (h : ∀ k : Fin 16, (w.getLsbD k && m.getLsbD k) = p.getLsbD k) : w &&& m = p := by
  apply BitVec.eq_of_getLsbD_eq
  intro k hk
  simpa using h ⟨k, hk⟩

/-- SEND.C selects its own row. -/
theorem sendC (b : Byte) : Statement (.sendC b) := by
  revert b; unfold Statement; decide

/-- SEND.D selects its own row. -/
theorem sendD (b : Byte) : Statement (.sendD b) := by
  revert b; unfold Statement; decide

/-- NIB selects its own row. -/
theorem nib (n : Nibble) : Statement (.nib n) := by
  revert n; unfold Statement; decide

/-- SETBL selects its own row. -/
theorem setbl (f : Bool) : Statement (.setbl f) := by
  revert f; unfold Statement; decide

/-- A word with `0100` on top selects the row of WAIT. -/
theorem wait_selects (d : WaitCount) : encode (.wait d) &&& 0xF000#16 = 0x4000#16 := by
  apply and_mask_eq
  intro k
  fin_cases k <;> simp [encode]

/-- A row whose mask covers the major opcode selects no word with another major opcode. -/
theorem wait_selects_no_other (d : WaitCount) (m p : Word) (hm : m &&& 0xF000#16 = 0xF000#16)
    (hp : p &&& 0xF000#16 ≠ 0x4000#16) : encode (.wait d) &&& m ≠ p := by
  intro h
  apply hp
  rw [← h, BitVec.and_assoc, hm, wait_selects]

/-- WAIT selects its own row. -/
theorem wait (d : WaitCount) : Statement (.wait d) := by
  refine ⟨rfl, ?_⟩
  have h1 := wait_selects_no_other d 0xFF00#16 0x1000#16 (by decide) (by decide)
  have h2 := wait_selects_no_other d 0xFF00#16 0x1100#16 (by decide) (by decide)
  have h3 := wait_selects_no_other d 0xFFF0#16 0x2000#16 (by decide) (by decide)
  have h4 := wait_selects_no_other d 0xFFFE#16 0x3000#16 (by decide) (by decide)
  simp [opcodeMap, OpcodeRow.selects, opcodeRowOf, h1, h2, h3, h4, wait_selects]

end Sys2Proof.Laws.OwnRow
end

