-- ==== Sys2Proof/Laws/Reception.lean ====
section
/-! SUPPORT. What a pulse gives the controller: its nibble, when both writes are answered ok; nothing, when the first fails. -/

namespace Sys2Proof.Machine

/-- Enable is clear on the lines after a completed pulse. -/
theorem enableSet_afterPulse {s : State} (v : s.params.layout.Valid) (h : Half) (n : Nibble) (m : Mode) (bl : Bool) :
    enableSet s.params.layout (afterPulse h (frame s.params.layout n m bl) s).p = false := by
  simp [enableSet_frame v]

/-- After the first write of a pulse the controller is as it was. -/
theorem pulseMid_controller {s : State} (v : s.params.layout.Valid) (h : Half) (n : Nibble) (m : Mode) (bl : Bool)
    (hw : tPowerOnMinMs ≤ s.waited) (hp : enableSet s.params.layout s.p = false) :
    (pulseMid h (frame s.params.layout n m bl) s).controller = s.controller := by
  show controllerStep _ _ (earlyTraffic s) _ _ _ _ = _
  rw [earlyTraffic_eq_false hw]
  exact controllerStep_raise s.busCalls .ok s.controller hp (enableSet_withEnable v n m bl)

/-- A completed pulse gives the controller its nibble. -/
theorem afterPulse_controller {s : State} (v : s.params.layout.Valid) (h : Half) (n : Nibble) (m : Mode) (bl : Bool)
    (hw : tPowerOnMinMs ≤ s.waited) (hp : enableSet s.params.layout s.p = false) :
    (afterPulse h (frame s.params.layout n m bl) s).controller =
      takeNibble (s.busCalls + 1) (frame s.params.layout n m bl) s.controller := by
  have hd : (afterPulse h (frame s.params.layout n m bl) s).controller =
      controllerStep s.params.layout (s.busCalls + 1)
        (earlyTraffic (pulseMid h (frame s.params.layout n m bl) s)) (withEnable s.params.layout (frame s.params.layout n m bl))
        (frame s.params.layout n m bl) .ok (pulseMid h (frame s.params.layout n m bl) s).controller := rfl
  have hm : tPowerOnMinMs ≤ (pulseMid h (frame s.params.layout n m bl) s).waited := by simp [pulseMid]; omega
  rw [hd, earlyTraffic_eq_false hm, pulseMid_controller v h n m bl hw hp, controllerStep_delivers _ _ (deliversNibble_frame v n m bl)]

/-- A first write that fails leaves the controller as it was. -/
theorem failedFirst_controller {s : State} (v : s.params.layout.Valid) (n : Nibble) (m : Mode) (bl : Bool)
    (e : ErrorValue) (hw : tPowerOnMinMs ≤ s.waited) (hp : enableSet s.params.layout s.p = false) :
    (afterFailedWrite s.addr (withEnable s.params.layout (frame s.params.layout n m bl)) e s).controller =
      s.controller := by
  show controllerStep _ _ (earlyTraffic s) _ _ _ _ = _
  rw [earlyTraffic_eq_false hw]
  exact controllerStep_raise s.busCalls (.err e) s.controller hp (enableSet_withEnable v n m bl)

end Sys2Proof.Machine
end

