-- ==== Sys2Proof/Tests/Slice0.lean ====
section
/-! SUPPORT. Tests of one step or one definition each, with expected results from spec/95_test_vectors.md, and a witness for the hypotheses of every statement that has some. -/

open Sys2Proof Sys2Proof.Machine

namespace Sys2Proof.Tests

/-! ### Small states -/

/-- An idle machine of an initialized handle: every uninterpreted field at a value of the test's own, the literal backlight
payload, empty gaps, the backlight flag and the replies of the environment as given. -/
def demo (bl : Bool) (env : List Reply) : State :=
  { State.reset with
    bl := bl
    latches := ⟨.nib, 0x5A#8, .data, 7#12⟩
    lifecycle := .initialized
    rows := .four
    p := 0x5A#8
    controller := ⟨.eightBit, .first⟩
    params := ⟨tableLayout, 1, 5, 50#12, ⟨none, none, none, none, none⟩, ⟨0x08#8, 0x00#8⟩⟩
    env := env }

/-- `n` bus writes answered `ok`. -/
def oks (n : Nat) : List Reply := List.replicate n .ok

/-- `k` bus writes answered `ok`, then one answered `err(7)`. -/
def failing (k : Nat) : List Reply := oks k ++ [.err 7]

/-- The demo machine with one command word on offer. -/
def offering (w : Word) (env : List Reply) : State := { demo false env with program := [.issue w] }

/-- The demo machine about to carry out an operation of the driver. -/
def beginning (o : HostOp) : State := { demo true [] with program := [.call o], current := some (.op o) }

/-- The demo machine about to make a call. -/
def calling (l : Lifecycle) (c : HostCall) (env : List Reply) : State :=
  { demo false env with calls := [c], lifecycle := l }

/-- The machine after `n` steps of the driver: while a call is in progress, and where the next one is an operation. -/
def afterSteps : Nat → State → Option State
  | 0, s => some s
  | n + 1, s =>
    match s.current, s.calls, step s with
    | some _, _, .next t => afterSteps n t
    | none, .op _ :: _, .next t => afterSteps n t
    | _, _, _ => none

theorem wellFormedSoFar_afterSteps : ∀ (n : Nat) (s t : State), WellFormedSoFar s → afterSteps n s = some t →
    WellFormedSoFar t
  | 0, s, t, hw, h => by cases h; exact hw
  | n + 1, s, t, hw, h => by
    unfold afterSteps at h
    split at h
    · rename_i hc hs
      exact wellFormedSoFar_afterSteps n _ t (hw.step hs (callsDriver_of_current hc)) h
    · rename_i _ hc hs
      exact wellFormedSoFar_afterSteps n _ t (hw.step hs (callsDriver_of_calls hc)) h
    · cases h

/-- A new Handle on which the application calls `enable` and then `c`. -/
def enabling (c : HostCall) (env : List Reply) : State :=
  { calling .uninitialized (.op .enable) (oks 32 ++ env) with calls := [.op .enable, c] }

theorem enabling_wellFormed (c : HostCall) (env : List Reply) : WellFormedSoFar (enabling c env) :=
  FreshHandle.wellFormedSoFar ⟨rfl, rfl, rfl, rfl, rfl, rfl, rfl, rfl, rfl, rfl, rfl, rfl⟩

/-- The machine once that `enable` has returned, which it does after 21 steps. -/
def ready (c : HostCall) (env : List Reply) : State := (afterSteps 21 (enabling c env)).getD (enabling c env)

theorem ready_wellFormed (c : HostCall) (env : List Reply) : WellFormedSoFar (ready c env) := by
  unfold ready
  cases h : afterSteps 21 (enabling c env) with
  | none => exact enabling_wellFormed c env
  | some t => exact wellFormedSoFar_afterSteps 21 _ t (enabling_wellFormed c env) h

/-- The demo machine in a position of the sequencer. -/
def busyAt (ph : Phase) (k : OpKind) (env : List Reply) : State :=
  { demo true env with phase := ph, latches := ⟨k, 0x41#8, .data, 50#12⟩ }

/-- The demo machine 40 ms after power-on, with the controller in 4-bit mode, waiting for this half. -/
def paired (h : NibbleHalf) (env : List Reply) : State :=
  { demo true env with controller := ⟨.fourBit, h⟩, waited := 40 }

/-- The controller's pairing after a step. -/
def pairingAfter : Host.Outcome State Fault Refusal → Option NibbleHalf
  | .next s => some s.controller.nextHalf
  | .fault _ => none
  | .refused _ => none

/-- What a test looks at: the trace and the answers. -/
def seen : Host.Outcome State Fault Refusal → Option (List Event × List Reply)
  | .next s => some (s.trace, s.answers)
  | .fault _ => none
  | .refused _ => none

/-- What the next step of the host is about: the accumulators and the program. -/
def planned : Host.Outcome State Fault Refusal → Option (DisplayControl × EntryMode × List HostTask)
  | .next s => some (s.dc, s.em, s.program)
  | .fault _ => none
  | .refused _ => none

/-- The events of writes answered `ok` to `0x27`, each followed by its delay. -/
def paced (vs : List Byte) : List Event :=
  match vs with
  | v :: w :: rest => [.write 0x27#7 v .ok, .delay 1, .write 0x27#7 w .ok, .delay 5] ++ paced rest
  | [v] => [.write 0x27#7 v .ok]
  | [] => []

/-- A layout R4 admits that is not the table's: the nibble in bits 3:0. -/
def otherLayout : Layout := ⟨0, 0x10#8, 0x20#8, 0x80#8, 0x40#8⟩

/-! ### Decoding: the words of V-DEC -/

theorem test_decode_send_c : decode 0x1041#16 = .instr (.sendC 0x41#8) ∧ decode 0x1000#16 = .instr (.sendC 0#8) := by
  decide
theorem test_decode_send_d :
    decode 0x1141#16 = .instr (.sendD 0x41#8) ∧ decode 0x11FF#16 = .instr (.sendD 0xFF#8) := by decide
theorem test_decode_nib : decode 0x2003#16 = .instr (.nib 3#4) ∧ decode 0x200F#16 = .instr (.nib 0xF#4) := by decide
theorem test_decode_setbl :
    decode 0x3000#16 = .instr (.setbl false) ∧ decode 0x3001#16 = .instr (.setbl true) := by decide
theorem test_decode_wait : decode 0x4000#16 = .instr (.wait 0#12) ∧ decode 0x4032#16 = .instr (.wait 50#12) ∧
    decode 0x4FFF#16 = .instr (.wait 4095#12) := by decide
theorem test_decode_reserved : decode 0x1241#16 = .reserved .formatB ∧ decode 0x1FFF#16 = .reserved .formatB ∧
    decode 0x2013#16 = .reserved .formatN ∧ decode 0x3002#16 = .reserved .formatF ∧
    decode 0x0000#16 = .reserved .opcode ∧ decode 0x5000#16 = .reserved .opcode ∧
    decode 0xFFFF#16 = .reserved .opcode := by decide
theorem test_encode : encode (.sendC 0x28#8) = 0x1028#16 ∧ encode (.sendD 0x69#8) = 0x1169#16 ∧
    encode (.nib 2#4) = 0x2002#16 ∧ encode (.setbl true) = 0x3001#16 ∧ encode (.wait 50#12) = 0x4032#16 := by decide
theorem test_decodeTableWord : decodeTableWord 16 0x1041 = some (.sendC 0x41#8) ∧
    decodeTableWord 16 0x1100 = some (.sendD 0#8) ∧ decodeTableWord 16 0x2000 = some (.nib 0#4) ∧
    decodeTableWord 16 0x3000 = some (.setbl false) ∧ decodeTableWord 16 0x4000 = some (.wait 0#12) ∧
    decodeTableWord 16 0x5000 = none := by decide

/-! ### Ill-formed terms, one for each check -/

theorem test_assemble_refuses_range : assembleLine ⟨"SEND.C", 256⟩ = none ∧ assembleLine ⟨"SEND.D", 256⟩ = none ∧
    assembleLine ⟨"NIB", 16⟩ = none ∧ assembleLine ⟨"SETBL", 2⟩ = none ∧ assembleLine ⟨"WAIT", 4096⟩ = none ∧
    assembleLine ⟨"HOME", 0⟩ = none := by decide
theorem test_assemble_admits_bounds : assembleLine ⟨"SEND.C", 255⟩ = some (.sendC 0xFF#8) ∧
    assembleLine ⟨"SEND.D", 0⟩ = some (.sendD 0#8) ∧ assembleLine ⟨"NIB", 15⟩ = some (.nib 0xF#4) ∧
    assembleLine ⟨"SETBL", 1⟩ = some (.setbl true) ∧ assembleLine ⟨"WAIT", 4095⟩ = some (.wait 4095#12) := by decide
theorem test_parse_number : parseNumber ['0', 'x', '4', 'F'] = some 79 ∧ parseNumber ['4', '2'] = some 42 ∧
    parseNumber ['0', 'x'] = none ∧ parseNumber ['4', 'x'] = none ∧ parseNumber [] = none := by decide
theorem test_parse_line : parseLine [] = .blank ∧ parseLine [';', 'x'] = .blank ∧ parseLine ['N', 'I', 'B'] = .malformed ∧
    parseLine ['N', 'I', 'B', ' ', '1', '6'] = .malformed ∧
    parseLine ['N', 'I', 'B', ' ', '3', ';'] = .operation (.nib 3#4) := by decide
theorem test_layout_refused : ¬Layout.Valid ⟨5, 0x04#8, 0x01#8, 0x08#8, 0x02#8⟩ ∧
    ¬Layout.Valid ⟨4, 0x00#8, 0x01#8, 0x08#8, 0x02#8⟩ ∧ ¬Layout.Valid ⟨4, 0x04#8, 0x03#8, 0x08#8, 0x02#8⟩ ∧
    ¬Layout.Valid ⟨4, 0x04#8, 0x01#8, 0x10#8, 0x02#8⟩ ∧ ¬Layout.Valid ⟨4, 0x04#8, 0x01#8, 0x08#8, 0x04#8⟩ :=
  ⟨by decide, by decide, by decide, by decide, by decide⟩
theorem test_layout_admitted : tableLayout.Valid ∧ otherLayout.Valid := by decide
theorem test_configuration_refused : Configuration.wellFormed ⟨some 0x80, none, none⟩ = false ∧
    Configuration.wellFormed ⟨none, some 0, none⟩ = false ∧ Configuration.wellFormed ⟨none, some 5, none⟩ = false ∧
    Configuration.wellFormed ⟨some 0x7F, some 4, some .dots5x10⟩ = true := by decide
theorem test_operands_refused : HostOp.wellFormed .four (.moveCursorTo 3 44) = false ∧
    HostOp.wellFormed .four (.moveCursorTo 3 43) = true ∧ HostOp.wellFormed .one (.registerCustomChar 8 []) = false ∧
    HostOp.wellFormed .one (.registerCustomChar 7 []) = true := by decide
theorem test_gate_refused : Lifecycle.admits .uninitialized .clear = false ∧ Lifecycle.admits .initialized .enable = false ∧
    Lifecycle.admits .gone .enable = false ∧
    wellFormedCalls .uninitialized [.op .clear] = false ∧ wellFormedCalls .initialized [.op .enable] = false ∧
    wellFormedCalls .initialized [.drop, .op .clear] = false ∧ wellFormedCalls .initialized [.drop, .drop] = false ∧
    wellFormedCalls .initialized [.commandWords []] = false ∧
    wellFormedCalls .gone [.construct ⟨some 0x80, none, none⟩] = false ∧
    wellFormedCalls .gone [.construct ⟨none, some 2, none⟩, .op .enable, .op .clear, .drop] = true := by decide

/-! ### Operand forms and flag bytes -/

/-- V-FR. -/
theorem test_frame : frame tableLayout 0x0#4 .command true = 0x08#8 ∧ frame tableLayout 0x0#4 .data false = 0x01#8 ∧
    frame tableLayout 0xF#4 .data true = 0xF9#8 ∧ frame tableLayout 0xA#4 .data false = 0xA1#8 ∧
    withEnable tableLayout 0x88#8 = 0x8C#8 ∧ withEnable tableLayout 0x49#8 = 0x4D#8 := by decide
/-- V-MC. -/
theorem test_cursorByte : cursorByte .one 0 15 = 0x8F#8 ∧ cursorByte .one 3 0 = 0x80#8 ∧ cursorByte .two 255 0 = 0xC0#8 ∧
    cursorByte .two 1 3 = 0xC3#8 ∧ cursorByte .three 3 0 = 0x94#8 ∧ cursorByte .four 2 5 = 0x99#8 ∧
    cursorByte .four 3 19 = 0xE7#8 ∧ cursorByte .four 3 43 = 0xFF#8 := by decide
/-- V-DC and V-EM. -/
theorem test_flag_bytes : displayPayload ⟨true, true, false⟩ = 0x0E#8 ∧ displayPayload ⟨true, false, true⟩ = 0x0D#8 ∧
    displayPayload ⟨false, false, false⟩ = 0x08#8 ∧ entryPayload ⟨true, false⟩ = 0x06#8 ∧
    entryPayload ⟨false, false⟩ = 0x04#8 := by decide
/-- V-CC, V-FN. -/
theorem test_cgram_and_function_set : cgramByte 0 = 0x78#8 ∧ cgramByte 7 = 0x78#8 ∧
    functionSetByte .one .dots5x8 = 0x20#8 ∧ functionSetByte .three .dots5x10 = 0x2C#8 := by decide

/-! ### One operation each -/

/-- V-SC. -/
theorem test_send_c : seen (exec (.sendC 0x5A#8) (demo true (oks 4))) =
    some (paced [0x5C#8, 0x58#8, 0xAC#8, 0xA8#8], [.ok]) := by decide
theorem test_send_c_equal_nibbles : seen (exec (.sendC 0x33#8) (demo false (oks 4))) =
    some (paced [0x34#8, 0x30#8, 0x34#8, 0x30#8], [.ok]) := by decide
/-- V-SD. -/
theorem test_send_d : seen (exec (.sendD 0xA5#8) (demo false (oks 4))) =
    some (paced [0xA5#8, 0xA1#8, 0x55#8, 0x51#8], [.ok]) := by decide
/-- V-SF, the third write failing. -/
theorem test_send_d_fails : seen (exec (.sendD 0x41#8) (demo true (failing 2))) =
    some (paced [0x4D#8, 0x49#8] ++ [.write 0x27#7 0x1D#8 (.err 7)], [.err 7]) := by decide
/-- V-NB. -/
theorem test_nib : seen (exec (.nib 0xF#4) (demo true (oks 2))) = some (paced [0xFC#8, 0xF8#8], [.ok]) := by decide
theorem test_nib_fails : seen (exec (.nib 3#4) (demo false (failing 1))) =
    some ([.write 0x27#7 0x34#8 .ok, .delay 1, .write 0x27#7 0x30#8 (.err 7)], [.err 7]) := by decide
/-- V-BL. -/
theorem test_setbl : seen (exec (.setbl true) (demo false [])) = some ([], [.ok]) := by decide
theorem test_setbl_then_write : seen (exec (.sendD 0x41#8) (setBacklight false (demo true (oks 4)))) =
    some (paced [0x45#8, 0x41#8, 0x15#8, 0x11#8], [.ok, .ok]) := by decide
/-- V-WT. -/
theorem test_wait : seen (exec (.wait 4095#12) (demo false [])) = some ([.delay 4095], [.ok]) := by decide
theorem test_wait_zero : seen (exec (.wait 0#12) (demo false [])) = some ([.delay 0], [.ok]) := by decide

/-! ### What the controller is given -/

/-- R37: a lone nibble shifts the pairing by one, from either half; V-SF: so does a SEND cut short between its nibbles. -/
theorem test_pairing_shifts : pairingAfter (exec (.nib 3#4) (paired .first (oks 2))) = some .second ∧
    pairingAfter (exec (.nib 3#4) (paired .second (oks 2))) = some .first ∧
    pairingAfter (exec (.sendD 0x41#8) (paired .first (failing 2))) = some .second := by decide
/-- R37, R38: a whole SEND does not; R91: nor does one whose first write failed. -/
theorem test_pairing_kept : pairingAfter (exec (.sendD 0x41#8) (paired .first (oks 4))) = some .first ∧
    pairingAfter (exec (.sendD 0x41#8) (paired .second (failing 0))) = some .second := by decide

/-- R172, R187: traffic is early before 40 ms have passed, and a delay asked for is time passed. -/
theorem test_early_traffic : earlyTraffic { demo true [] with waited := 39 } = true ∧
    earlyTraffic { demo true [] with waited := 40 } = false ∧
    earlyTraffic (delay 50 { demo true [] with waited := 0 }) = false := by decide
/-- R170: a Handle for the same address finds the devices as they were. -/
theorem test_devices_kept : (devicesAt 0x27#7 (paired .second [])).p = 0x5A#8 ∧
    (devicesAt 0x27#7 (paired .second [])).controller = ⟨.fourBit, .second⟩ := by decide

/-! ### One step each -/

theorem test_step_runs_placed_word : seen (step ((demo true (oks 4)).withFetchWord 16 0x1142)) =
    some (paced [0x4D#8, 0x49#8, 0x2D#8, 0x29#8], [.ok]) := by decide
theorem test_step_runs_placed_wait : seen (step (State.reset.withFetchWord 16 0x4032)) = some ([.delay 50], [.ok]) := by
  decide
theorem test_step_refuses_reserved :
    step (State.reset.withFetchWord 16 0x1241) = .refused (.reservedWord .formatB) := by rfl
theorem test_step_at_reset_waits : step State.reset = .next State.reset := by rfl
/-- V-DC: from `DC` = 0x04, `cursor_on` gives 0x06 and issues `SEND.C 0x0E`. -/
theorem test_cursor_on : planned (step { beginning .cursorOn with dc := ⟨true, false, false⟩ }) =
    some (⟨true, true, false⟩, ⟨false, false⟩, [.issue 0x100E#16]) := by decide
/-- V-CL. -/
theorem test_clear : planned (step (beginning .clear)) =
    some (⟨false, false, false⟩, ⟨false, false⟩, [.issue 0x1001#16, .call (.moveCursorTo 0 0)]) := by decide
/-- P6. -/
theorem test_register_custom_char : planned (step (beginning (.registerCustomChar 2 [0x00#8, 0x0A#8]))) =
    some (⟨false, false, false⟩, ⟨false, false⟩, [.issue 0x1078#16, .issue 0x1100#16, .issue 0x110A#16]) := by decide
/-- V-CL: `backlight_on` with the literal payload. -/
theorem test_backlight_on : planned (step (beginning .backlightOn)) =
    some (⟨false, false, false⟩, ⟨false, false⟩, [.issue 0x3001#16, .issue 0x1008#16]) := by decide
/-- P2: the command words of `enable` up to the tag. -/
theorem test_enable : planned (step (beginning .enable)) = some (⟨false, false, false⟩, ⟨false, false⟩,
    [.issue 0x4032#16, .issue 0x2003#16, .issue 0x2003#16, .issue 0x2003#16, .issue 0x2002#16, .issue 0x1028#16,
     .markInitialized, .call .leftToRight, .call .backlightOn, .call .renderingOn, .call .clear]) := by decide
/-- R38 on P1: the nibbles of 'A'. -/
theorem test_nibble_stream : nibbleStream tableLayout 0x27#7 (paced [0x4D#8, 0x49#8, 0x1D#8, 0x19#8]) =
    [(.data, 4#4), (.data, 1#4)] := by decide

/-! ### Witnesses: every statement with hypotheses has a state and operands that meet all of them -/

theorem witness_DecodeOfEncode : (Instr.sendC 0x00#8).wellFormed = true ∧ (Instr.sendD 0xFF#8).wellFormed = true ∧
    (Instr.nib 0xF#4).wellFormed = true ∧ (Instr.setbl true).wellFormed = true ∧
    (Instr.wait 4095#12).wellFormed = true := by decide
theorem witness_EncodeOfDecode : decode 0x11FF#16 = .instr (.sendD 0xFF#8) := by decide
theorem witness_ReservedWordsAreRefused :
    (OffersNext (offering 0x5000#16 []) 0x5000#16 [] ∧ decode 0x5000#16 = .reserved .opcode) ∧
    (OffersNext (offering 0x1200#16 []) 0x1200#16 [] ∧ decode 0x1200#16 = .reserved .formatB) ∧
    (OffersNext (offering 0x2010#16 []) 0x2010#16 [] ∧ decode 0x2010#16 = .reserved .formatN) ∧
    (OffersNext (offering 0x3800#16 []) 0x3800#16 [] ∧ decode 0x3800#16 = .reserved .formatF) := by decide
theorem witness_OperandsAreTheWordsFields : decode 0x10FF#16 = .instr (.sendC 0xFF#8) ∧
    decode 0x1100#16 = .instr (.sendD 0#8) ∧ decode 0x200F#16 = .instr (.nib 0xF#4) ∧
    decode 0x3000#16 = .instr (.setbl false) ∧ decode 0x4FFF#16 = .instr (.wait 0xFFF#12) ∧
    (demo true []).phase = .idle := by decide
theorem witness_FrameComposition : tableLayout.Valid ∧ otherLayout.Valid := by decide
theorem witness_FramesAreDistinct : otherLayout.Valid ∧
    frame otherLayout 0xF#4 .data true = frame otherLayout 0xF#4 .data true ∧
    withEnable otherLayout (frame otherLayout 0#4 .command false) =
      withEnable otherLayout (frame otherLayout 0#4 .command false) := by decide
theorem witness_EveryWriteCarriesTheFlags : (demo true []).phase = .idle ∧ (demo true []).params.layout.Valid ∧
    ∃ t, exec (.sendD 0x41#8) (demo true []) = .next t := ⟨rfl, by decide, _, exec_idle _ rfl⟩
theorem witness_BusWriteAnswersAndRecords :
    nextReply (demo true (oks 1)) 0 = .ok ∧ nextReply (demo true (failing 0)) 0 = .err 7 := by decide
theorem witness_SendReturnsOkAfterEightEvents : (demo true (oks 4)).phase = .idle ∧ RepliesOk (demo true (oks 4)) 4 ∧
    (∃ t, exec (.sendC 0x80#8) (demo true (oks 4)) = .next t ∧ t.answers = (demo true (oks 4)).answers ++ [.ok]) := by
  refine ⟨rfl, by decide, _, exec_idle _ rfl, by decide⟩
theorem witness_SendFailsAtEachOfItsWrites : (demo true []).phase = .idle ∧
    ∀ k : Fin 4, FailsAt (demo true (failing k)) k 7 := by decide
theorem witness_NibReturnsOkAfterOnePulse : (demo false (oks 2)).phase = .idle ∧ RepliesOk (demo false (oks 2)) 2 := by
  decide
theorem witness_NibFailsAtEachOfItsWrites : (demo false []).phase = .idle ∧
    ∀ k : Fin 2, FailsAt (demo false (failing k)) k 7 := by decide
theorem witness_SetblWritesTheFlagAlone : (demo true []).phase = .idle := rfl
theorem witness_WaitMakesOneDelayCall : (demo true []).phase = .idle := rfl
theorem witness_EveryOperationIsAnsweredOnce : (demo false []).phase = .idle := rfl
theorem witness_OfferWaitsWhileBusy : (busyAt .hWE .send []).phase ≠ .idle ∧ Coherent (busyAt .hWE .send []) ∧
    (busyAt .hTS .nib []).phase ≠ .idle ∧ Coherent (busyAt .hTS .nib []) ∧
    (busyAt .wt .wait []).phase ≠ .idle ∧ Coherent (busyAt .wt .wait []) :=
  ⟨by decide, .inl rfl, by decide, .inr rfl, by decide, rfl⟩
theorem witness_ErrorAnswersComeFromBusWrites : (demo true (failing 3)).phase = .idle ∧ 3 < busWritesOf (.sendC 0#8) ∧
    FailsAt (demo true (failing 3)) 3 7 ∧ ∃ t, exec (.sendC 0#8) (demo true (failing 3)) = .next t :=
  ⟨rfl, by decide, by decide, _, exec_idle _ rfl⟩
theorem witness_FailedWriteIsTheLastEvent : (demo true (failing 1)).phase = .idle ∧
    ∃ t, exec (.nib 3#4) (demo true (failing 1)) = .next t := ⟨rfl, _, exec_idle _ rfl⟩
theorem witness_OperationFrame : (demo true []).phase = .idle ∧
    (∃ t, exec (.setbl false) (demo true []) = .next t) ∧ busWritesOf (.wait 5#12) = 0 ∧
    (∃ t, exec (.wait 5#12) (demo true []) = .next t) := ⟨rfl, ⟨_, exec_idle _ rfl⟩, rfl, _, exec_idle _ rfl⟩
theorem witness_RequestedDelaysOfOperations : (demo true (oks 4)).phase = .idle ∧
    RepliesOk (demo true (oks 4)) (busWritesOf (.sendD 1#8)) ∧ RepliesOk (demo true []) (busWritesOf (.wait 1#12)) := by
  decide
theorem witness_BacklightReachesTheLineAtTheNextWrite : (demo true []).phase = .idle ∧
    (demo true []).params.layout.Valid ∧ busWritesOf (.nib 3#4) ≠ 0 ∧
    ∃ t u, exec (.setbl false) (demo true []) = .next t ∧ exec (.nib 3#4) t = .next u :=
  ⟨rfl, by decide, by decide, _, _, exec_idle _ rfl, exec_idle _ rfl⟩
theorem witness_NibbleStreamOfASend : (paired .first []).phase = .idle ∧ (paired .first []).params.layout.Valid ∧
    (∃ t, exec (.sendD 0xFF#8) (paired .first (oks 4)) = .next t ∧ t.answers = (paired .first (oks 4)).answers ++ [.ok]) :=
  ⟨rfl, by decide, _, exec_idle _ rfl, by decide⟩
theorem witness_NibbleStreamOfASend_pairing :
    tPowerOnMinMs ≤ (paired .first []).waited ∧ tPowerOnMinMs ≤ (paired .second []).waited ∧
    enableSet (paired .first []).params.layout (paired .first []).p = false ∧
    (paired .first []).controller.width = .fourBit ∧ (paired .second []).controller.width = .fourBit ∧
    (paired .first (oks 4)).controller.nextHalf = .first ∧ RepliesOk (paired .first (oks 4)) 4 ∧
    FailsAt (paired .first (failing 2)) 2 7 ∧ FailsAt (paired .second (failing 2)) 2 7 ∧
    RepliesOk (paired .second (oks 2)) 2 ∧ FailsAt (paired .first (failing 0)) 0 7 := by decide
theorem witness_OperationsKeepNoMemoryOfThePast : (demo true []).phase = .idle ∧
    ({ demo true [] with p := 0#8, trace := [.delay 3], answers := [.err 1] } : State).phase = .idle ∧
    ∃ t, exec (.sendC 1#8) (demo true []) = .next t := ⟨rfl, rfl, _, exec_idle _ rfl⟩
theorem witness_ErrorValueIsCopiedNotInspected : (demo true (failing 3)).phase = .idle ∧
    busWritesOf (.sendC 1#8) ≤ (demo true (failing 3)).env.length ∧
    ∃ t, exec (.sendC 1#8) (demo true (failing 3)) = .next t := ⟨rfl, by decide, _, exec_idle _ rfl⟩
theorem witness_SequencerFollowsTheTable : nextReply (busyAt .hWE .send (oks 1)) 0 = .ok ∧
    (busyAt .hWC .nib (failing 0)).phase = .hWC ∧ nextReply (busyAt .hWC .nib (failing 0)) 0 = .err 7 ∧
    (busyAt .lWE .send []).phase = .lWE ∧ (busyAt .lWC .send []).phase = .lWC ∧ (busyAt .hTE .send []).phase = .hTE ∧
    (busyAt .hTS .send []).phase = .hTS ∧ (busyAt .hTS .send []).latches.opk = .send ∧
    (busyAt .lTE .send []).phase = .lTE ∧ (busyAt .hTS .nib []).latches.opk = .nib ∧
    (busyAt .lTS .send []).phase = .lTS ∧ (busyAt .wt .wait []).phase = .wt ∧ (demo true []).phase = .idle := by decide
theorem witness_OperationIsAcceptanceThenSequencer : (demo true []).phase = .idle := rfl
theorem witness_CoherentStatesNeverFault : Coherent (busyAt .hTS .nib []) ∧
    (∃ t, step (busyAt .hTS .nib []) = .next t) ∧ (busyAt .hTS .wait []).phase ≠ .idle ∧
    (busyAt .hTS .wait []).phase = .hTS ∧ (busyAt .hTS .wait []).latches.opk = .wait :=
  ⟨.inr rfl, ⟨_, step_busy (by decide) (by decide)⟩, by decide, rfl, rfl⟩
theorem witness_StepRunsTheOfferedOperation : OffersNext (offering 0x2003#16 []) 0x2003#16 [] ∧
    decode 0x2003#16 = .instr (.nib 3#4) := by decide
theorem witness_HostStopsAtTheFirstError :
    (OffersNext (offering 0x2003#16 (oks 2)) 0x2003#16 [] ∧ decode 0x2003#16 = .instr (.nib 3#4) ∧
      ∃ t, exec (.nib 3#4) { offering 0x2003#16 (oks 2) with program := [] } = .next t ∧ t.answers = [.ok]) ∧
    (OffersNext (offering 0x2003#16 (failing 1)) 0x2003#16 [] ∧
      ∃ t, exec (.nib 3#4) { offering 0x2003#16 (failing 1) with program := [] } = .next t ∧ t.answers = [.err 7]) ∧
    (({ beginning .clear with program := [] } : State).phase = .idle ∧
      ({ beginning .clear with program := [] } : State).current = some (.op .clear)) :=
  ⟨⟨by decide, by decide, _, exec_idle _ rfl, by decide⟩, ⟨by decide, _, exec_idle _ rfl, by decide⟩, rfl, rfl⟩
theorem calling_wellFormed (env : List Reply) : WellFormedSoFar (calling .uninitialized (.op .enable) env) :=
  FreshHandle.wellFormedSoFar ⟨rfl, rfl, rfl, rfl, rfl, rfl, rfl, rfl, rfl, rfl, rfl, rfl⟩
theorem witness_FailedEnableLeavesNoHandle :
    (WellFormedSoFar (calling .uninitialized (.op .enable) (failing 0)) ∧
      CallsNext (calling .uninitialized (.op .enable) (failing 0)) (.op .enable) [] ∧
      FailsAt (calling .uninitialized (.op .enable) (failing 0)) 0 7) ∧
    (WellFormedSoFar (calling .uninitialized (.op .enable) (failing 31)) ∧
      CallsNext (calling .uninitialized (.op .enable) (failing 31)) (.op .enable) [] ∧
      (calling .uninitialized (.op .enable) (failing 31)).lifecycle = .uninitialized ∧
      FailsAt (calling .uninitialized (.op .enable) (failing 31)) 31 7) ∧
    CallsNext (calling .gone (.op .clear) []) (.op .clear) [] ∧
    CallsNext (calling .gone (.commandWords [0x2003#16]) []) (.commandWords [0x2003#16]) [] ∧
    (calling .gone .drop []).lifecycle = .gone :=
  ⟨⟨calling_wellFormed _, by decide⟩, ⟨calling_wellFormed _, by decide⟩, by decide⟩
theorem witness_LifecycleGateOnCalls : CallsNext (calling .uninitialized (.op .enable) []) (.op .enable) [] ∧
    CallsNext (calling .initialized (.op .clear) []) (.op .clear) [] ∧
    CallsNext (calling .initialized (.op .enable) []) (.op .enable) [] ∧
    CallsNext (calling .uninitialized (.op .clear) []) (.op .clear) [] := by decide
theorem witness_LifecycleGateOnCalls_drop : CallsNext (calling .initialized .drop []) .drop [] ∧
    (calling .initialized .drop []).lifecycle ≠ .gone ∧ (calling .uninitialized .drop []).lifecycle ≠ .gone ∧
    CallsNext (calling .gone .drop []) .drop [] ∧ (calling .gone .drop []).lifecycle = .gone := by decide
theorem witness_LifecycleGateOnCalls_words :
    CallsNext (calling .initialized (.commandWords [0x2003#16, 0x1200#16]) []) (.commandWords [0x2003#16, 0x1200#16]) [] ∧
    decode 0x1200#16 = .reserved .formatB ∧
    CallsNext (calling .uninitialized (.commandWords [0x2003#16]) []) (.commandWords [0x2003#16]) [] ∧
    decode 0x2003#16 = .instr (.nib 3#4) ∧
    CallsNext (calling .initialized (.commandWords []) []) (.commandWords []) [] := by decide
theorem witness_LifecycleGateOnCalls_wellFormed :
    (calling .uninitialized (.op .enable) []).phase = .idle ∧ (calling .uninitialized (.op .enable) []).program = [] ∧
    (calling .uninitialized (.op .enable) []).current = none ∧
    wellFormedCalls (calling .uninitialized (.op .enable) []).lifecycle (calling .uninitialized (.op .enable) []).calls =
      true ∧
    wellFormedCalls (calling .gone (.construct ⟨none, none, none⟩) []).lifecycle
      (calling .gone (.construct ⟨none, none, none⟩) []).calls = true := by decide
/-- `enable` called on a new Handle, its power-on wait answered, and the error of its first nibble. -/
theorem witness_LifecycleGateOnCalls_history :
    WellFormedHistory (calling .uninitialized (.op .enable) (failing 0)).params .four .dots5x8
      [(.wait 50#12, .ok), (.nib 3#4, .err 7)] :=
  ⟨calling .uninitialized (.op .enable) (failing 0), _, ⟨rfl, rfl, rfl, rfl, rfl, rfl, rfl, rfl, rfl, rfl, rfl, rfl⟩,
    .quiet _ _ _ _ (step_calls (c := .op .enable) (rest := []) (by decide)) (fun _ _ h => nomatch h.2)
        (callsDriver_of_calls rfl)
      (.quiet _ _ _ _ (step_begins_wellFormed (o := .enable) (rest := []) (by decide) rfl) (fun _ _ h => nomatch h.2)
          (callsDriver_of_current rfl)
        (.issued _ _ _ 0x4032#16 _ (.wait 50#12) .ok _ ⟨rfl, rfl⟩ (by decide)
          (step_offers ⟨rfl, rfl⟩ (i := .wait 50#12) (by decide)) (by decide)
          (.issued _ _ _ 0x2003#16 _ (.nib 3#4) (.err 7) [] ⟨rfl, rfl⟩ (by decide)
            (step_offers ⟨rfl, rfl⟩ (i := .nib 3#4) (by decide)) (by decide) (.none _))))⟩
theorem witness_LifecycleHasNoWayBack : (∃ t, step (demo true []) = .next t) ∧
    (∃ t, step (calling .initialized .drop []) = .next t ∧ t.lifecycle = .gone) ∧
    (∃ t, step { offering 0x2003#16 (failing 1) with current := some (.op .enable) } = .next t ∧
      t.answers = [.err 7]) :=
  ⟨⟨_, rfl⟩, ⟨_, step_calls (c := .drop) (rest := []) (by decide), rfl⟩,
    _, step_offers ⟨rfl, rfl⟩ (i := .nib 3#4) (by decide), by decide⟩
theorem witness_DisplayControlOperations : BeginsNext (beginning .renderingOn) .renderingOn [] ∧
    BeginsNext (beginning .renderingOff) .renderingOff [] ∧ BeginsNext (beginning .cursorOn) .cursorOn [] ∧
    BeginsNext (beginning .cursorOff) .cursorOff [] ∧ BeginsNext (beginning .cursorBlinkOn) .cursorBlinkOn [] ∧
    BeginsNext (beginning .cursorBlinkOff) .cursorBlinkOff [] := by decide
theorem witness_EntryModeOperations : BeginsNext (beginning .leftToRight) .leftToRight [] ∧
    BeginsNext (beginning .rightToLeft) .rightToLeft [] := by decide
theorem witness_BacklightAndSleepExpansions : BeginsNext (beginning .backlightOn) .backlightOn [] ∧
    BeginsNext (beginning .backlightOff) .backlightOff [] ∧ BeginsNext (beginning .sleep) .sleep [] ∧
    BeginsNext (beginning .wakeup) .wakeup [] := by decide
theorem witness_MoveCursorIssuesOneByte :
    (BeginsNext (beginning (.moveCursorTo 255 43)) (.moveCursorTo 255 43) [] ∧
      [0x00, 0x40, 0x14, 0x54][min 255 (rowCountNat (beginning (.moveCursorTo 255 43)).rows - 1)]? = some 0x54 ∧
      0x54 + 43 ≤ 0x7F) ∧
    (BeginsNext (beginning (.moveCursorTo 3 44)) (.moveCursorTo 3 44) [] ∧ 0x7F < 0x54 + 44) := by decide
theorem witness_ClearAndScrollExpansions : BeginsNext (beginning .clear) .clear [] ∧
    BeginsNext (beginning (.moveCursorTo 0 0)) (.moveCursorTo 0 0) [] ∧ BeginsNext (beginning .scrollLeft) .scrollLeft [] ∧
    BeginsNext (beginning .scrollRight) .scrollRight [] ∧ BeginsNext (beginning .scrollReset) .scrollReset [] := by decide
theorem witness_ClearSendsClearThenHome : WellFormedSoFar (ready (.op .clear) (oks 8)) ∧
    CallsNext (ready (.op .clear) (oks 8)) (.op .clear) [] ∧ (ready (.op .clear) (oks 8)).lifecycle = .initialized ∧
    RepliesOk (ready (.op .clear) (oks 8)) 8 := ⟨ready_wellFormed _ _, by decide +kernel⟩
theorem witness_WritesSendEveryByteInOrder :
    (WellFormedSoFar (ready (.op (.writeStr [0x41#8, 0x42#8])) (oks 8)) ∧
      CallsNext (ready (.op (.writeStr [0x41#8, 0x42#8])) (oks 8)) (.op (.writeStr [0x41#8, 0x42#8])) [] ∧
      (ready (.op (.writeStr [0x41#8, 0x42#8])) (oks 8)).lifecycle = .initialized ∧
      RepliesOk (ready (.op (.writeStr [0x41#8, 0x42#8])) (oks 8)) (4 * 2)) ∧
    (WellFormedSoFar (ready (.op (.writeBytes [])) []) ∧
      CallsNext (ready (.op (.writeBytes [])) []) (.op (.writeBytes [])) [] ∧
      (ready (.op (.writeBytes [])) []).lifecycle = .initialized ∧ RepliesOk (ready (.op (.writeBytes [])) []) (4 * 0)) ∧
    (WellFormedSoFar (ready (.op (.writeU8 0xFF#8)) (oks 4)) ∧
      CallsNext (ready (.op (.writeU8 0xFF#8)) (oks 4)) (.op (.writeU8 0xFF#8)) [] ∧
      (ready (.op (.writeU8 0xFF#8)) (oks 4)).lifecycle = .initialized ∧
      RepliesOk (ready (.op (.writeU8 0xFF#8)) (oks 4)) (4 * 1)) :=
  ⟨⟨ready_wellFormed _ _, by decide +kernel⟩, ⟨ready_wellFormed _ _, by decide +kernel⟩, ready_wellFormed _ _,
    by decide +kernel⟩
theorem witness_WriteStopsAtTheFailedByte :
    (WellFormedSoFar (ready (.op (.writeStr ([0x48#8] ++ 0x69#8 :: []))) (failing 5)) ∧
      CallsNext (ready (.op (.writeStr ([0x48#8] ++ 0x69#8 :: []))) (failing 5))
        (.op (.writeStr ([0x48#8] ++ 0x69#8 :: []))) [] ∧
      (ready (.op (.writeStr ([0x48#8] ++ 0x69#8 :: []))) (failing 5)).lifecycle = .initialized ∧
      FailsAt (ready (.op (.writeStr ([0x48#8] ++ 0x69#8 :: []))) (failing 5)) (4 * 1 + 1) 7) ∧
    (WellFormedSoFar (ready (.op (.writeBytes ([] ++ 0x69#8 :: [1#8]))) (failing 0)) ∧
      CallsNext (ready (.op (.writeBytes ([] ++ 0x69#8 :: [1#8]))) (failing 0))
        (.op (.writeBytes ([] ++ 0x69#8 :: [1#8]))) [] ∧
      (ready (.op (.writeBytes ([] ++ 0x69#8 :: [1#8]))) (failing 0)).lifecycle = .initialized ∧
      FailsAt (ready (.op (.writeBytes ([] ++ 0x69#8 :: [1#8]))) (failing 0)) (4 * 0 + 0) 7) ∧
    (WellFormedSoFar (ready (.op (.writeU8 0x69#8)) (failing 3)) ∧
      CallsNext (ready (.op (.writeU8 0x69#8)) (failing 3)) (.op (.writeU8 0x69#8)) [] ∧
      (ready (.op (.writeU8 0x69#8)) (failing 3)).lifecycle = .initialized ∧
      FailsAt (ready (.op (.writeU8 0x69#8)) (failing 3)) (4 * 0 + 3) 7) :=
  ⟨⟨ready_wellFormed _ _, by decide +kernel⟩, ⟨ready_wellFormed _ _, by decide +kernel⟩, ready_wellFormed _ _,
    by decide +kernel⟩
theorem witness_CustomCharAlwaysTargetsSlotSeven :
    BeginsNext (beginning (.registerCustomChar 0 [1#8])) (.registerCustomChar 0 [1#8]) [] ∧
    BeginsNext (beginning (.registerCustomChar 7 [])) (.registerCustomChar 7 []) [] ∧
    BeginsNext (beginning (.registerCustomChar 8 [])) (.registerCustomChar 8 []) [] := by decide
theorem witness_FunctionSetPayload : rowCountNat .two > 1 ∧ rowCountNat .four > 1 := by decide
theorem witness_EnableExpansion : BeginsNext (beginning .enable) .enable [] := by decide
theorem witness_EnableEndsInTheDefaultConfiguration :
    WellFormedSoFar (calling .uninitialized (.op .enable) (oks 32)) ∧
    CallsNext (calling .uninitialized (.op .enable) (oks 32)) (.op .enable) [] ∧
    (calling .uninitialized (.op .enable) (oks 32)).lifecycle = .uninitialized ∧
    RepliesOk (calling .uninitialized (.op .enable) (oks 32)) 32 := ⟨calling_wellFormed _, by decide⟩
theorem witness_ConstructionResetsTheBlockAlone :
    CallsNext (calling .gone (.construct ⟨some 0x7F, some 4, some .dots5x10⟩) [])
      (.construct ⟨some 0x7F, some 4, some .dots5x10⟩) [] ∧
    CallsNext (calling .gone (.construct ⟨some 0, some 1, some .dots5x8⟩) [])
      (.construct ⟨some 0, some 1, some .dots5x8⟩) [] ∧
    CallsNext (calling .gone (.construct ⟨some 0x80, some 4, some .dots5x8⟩) [])
      (.construct ⟨some 0x80, some 4, some .dots5x8⟩) [] ∧
    CallsNext (calling .gone (.construct ⟨some 0, some 0, some .dots5x8⟩) [])
      (.construct ⟨some 0, some 0, some .dots5x8⟩) [] ∧
    CallsNext (calling .gone (.construct ⟨some 0, some 5, some .dots5x8⟩) [])
      (.construct ⟨some 0, some 5, some .dots5x8⟩) [] ∧
    CallsNext (calling .initialized (.construct ⟨none, none, none⟩) []) (.construct ⟨none, none, none⟩) [] ∧
    (calling .initialized (.construct ⟨none, none, none⟩) []).addr = 0x27#7 ∧
    (none : Option Nat).getD 0x27 ≤ 0x7F ∧ 1 ≤ (none : Option Nat).getD 1 ∧ (none : Option Nat).getD 1 ≤ 4 := by decide
theorem witness_EveryStepKeepsThePacing : Paced (demo true []) ∧ ∃ t, step (demo true []) = .next t :=
  ⟨⟨by decide, rfl⟩, _, rfl⟩
theorem witness_EveryStepKeepsThePacing_busy :
    Paced { busyAt .hTE .send [] with trace := [.write 0x27#7 0x4D#8 .ok] } ∧
    ∃ t, step { busyAt .hTE .send [] with trace := [.write 0x27#7 0x4D#8 .ok] } = .next t :=
  ⟨⟨by decide, by decide⟩, _, step_busy (by decide) (by decide)⟩
theorem witness_EveryStepKeepsTheTraceFramed : TraceFramed (demo true []) ∧ ∃ t, step (demo true []) = .next t :=
  ⟨(fun _ _ _ h => (List.not_mem_nil h).elim), _, rfl⟩
theorem witness_IdleStaysIdle : (demo true []).phase = .idle ∧ ∃ t, step (demo true []) = .next t := ⟨rfl, _, rfl⟩
theorem witness_TraceOnlyGrows : (∃ t, step (beginning .clear) = .next t) ∧
    ConstructsNext (calling .gone (.construct ⟨none, none, none⟩) []) :=
  ⟨⟨_, step_begins_wellFormed (o := .clear) (rest := []) (by decide) rfl⟩, ⟨none, none, none⟩, [], by decide⟩
theorem witness_ConfigurationIsFixed : ∃ t, step (beginning .sleep) = .next t :=
  ⟨_, step_begins_wellFormed (o := .sleep) (rest := []) (by decide) rfl⟩
theorem witness_BacklightWrittenBySetblOnly : (∃ t, step (offering 0x3001#16 []) = .next t) ∧
    (ConstructsNext (calling .gone (.construct ⟨none, none, none⟩) []) ∧
      ∃ t, step { calling .gone (.construct ⟨none, none, none⟩) [] with bl := true } = .next t ∧ t.bl = false) :=
  ⟨⟨_, step_offers ⟨rfl, rfl⟩ (i := .setbl true) (by decide)⟩, ⟨⟨none, none, none⟩, [], by decide⟩,
    _, step_calls (c := .construct ⟨none, none, none⟩) (rest := []) (by decide), rfl⟩
theorem witness_ChangedAccumulatorIsRetransmitted : ∃ t, step (beginning .cursorOn) = .next t :=
  ⟨_, step_begins_wellFormed (o := .cursorOn) (rest := []) (by decide) rfl⟩
theorem witness_AutoShiftStaysClear : (beginning .leftToRight).em.autoShift = false ∧
    ∃ t, step (beginning .leftToRight) = .next t := ⟨rfl, _, step_begins_wellFormed (o := .leftToRight) (rest := []) (by decide) rfl⟩

end Sys2Proof.Tests
end

/-! What a step keeps, the sequencer as the table of PHASE, and the statements about the state. -/

namespace Sys2Proof.Machine

/-! ### Operations of an idle block -/

/-- An operation none of whose writes fails. -/
theorem bodyOf_done_of_repliesOk {i : Instr} {s : State} (h : s.phase = .idle) (hr : RepliesOk s (busWritesOf i)) :
    Done s (bodyOf i s) (busWritesOf i) (okEvents i s) .ok := by
  rcases (bodyOf_done i h).2 with ⟨_, hd⟩ | ⟨k, e, hk, hf, _⟩
  · exact hd
  · exact absurd hr (hf.not_repliesOk hk)

/-- An operation whose first failing write is the one after `k` good ones. -/
theorem bodyOf_done_of_failsAt {i : Instr} {s : State} {k : Nat} {e : ErrorValue} (h : s.phase = .idle)
    (hk : k < busWritesOf i) (hf : FailsAt s k e) :
    Done s (bodyOf i s) (k + 1) (failedEvents i s k e) (.err e) := by
  rcases (bodyOf_done i h).2 with ⟨hr, _⟩ | ⟨k', e', _, hf', hd⟩
  · exact absurd hr (hf.not_repliesOk hk)
  · obtain ⟨rfl, rfl⟩ := failsAt_unique hf hf'
    exact hd

/-- An operation writes `BL` to the flag of a SETBL, or not at all. -/
theorem blAfter_cases (i : Instr) (s : State) : blAfter i s = s.bl ∨ ∃ f, i = .setbl f ∧ blAfter i s = f := by
  cases i with
  | setbl f => exact .inr ⟨f, rfl, rfl⟩
  | sendC | sendD | nib | wait => exact .inl rfl

/-- SETBL and WAIT leave the bus side alone. -/
theorem bodyOf_busSide {i : Instr} {s : State} (h : s.phase = .idle) (hw : busWritesOf i = 0) :
    BusSideUnchanged s (bodyOf i s) := by
  cases i with
  | setbl f => exact (setBacklight_done f s h).2.2
  | wait d => exact (waitMs_done d s).2.2
  | sendC | sendD | nib => simp [busWritesOf] at hw

/-- Settles O23: the frame of every operation, from what each can do. -/
theorem operationFrame : Obligations.OperationFrame := by
  intro i s t h ht
  rw [exec_idle i h] at ht
  cases ht
  refine ⟨bodyOf_host i h, ?_, bodyOf_busSide h, ?_⟩
  · rw [(bodyOf_done i h).1]
    exact blAfter_cases i s
  · rintro ⟨f, rfl⟩
    exact ⟨rfl, rfl, rfl⟩

/-- What the events and the answer of an operation are computed from is the same in both states. -/
structure SameInputs (s u : State) : Prop where
  addr : u.addr = s.addr
  bl : u.bl = s.bl
  params : u.params = s.params
  env : u.env = s.env
  busCalls : u.busCalls = s.busCalls

namespace SameInputs

variable {s u : State} (h : SameInputs s u)
include h

theorem nextReply_eq (k : Nat) : nextReply u k = nextReply s k := nextReply_congr h.env h.busCalls k

theorem blAfter_eq (i : Instr) : blAfter i u = blAfter i s := by cases i <;> simp [blAfter, h.bl]

theorem pulseEvents_eq (f : Byte) : pulseEvents u f = pulseEvents s f := by simp [pulseEvents, h.addr, h.params]

theorem failedPulseEvents_eq (f : Byte) (second : Bool) (e : ErrorValue) :
    failedPulseEvents u f second e = failedPulseEvents s f second e := by
  simp [failedPulseEvents, h.addr, h.params]

theorem sendEvents_eq (b : Byte) (m : Mode) : sendEvents u b m = sendEvents s b m := by
  simp [sendEvents, highFrame, lowFrame, h.pulseEvents_eq, h.bl, h.params]

theorem failedSendEvents_eq (b : Byte) (m : Mode) (k : Fin 4) (e : ErrorValue) :
    failedSendEvents u b m k e = failedSendEvents s b m k e := by
  simp [failedSendEvents, highFrame, lowFrame, h.pulseEvents_eq, h.failedPulseEvents_eq, h.bl, h.params]

theorem okEvents_eq (i : Instr) : okEvents i u = okEvents i s := by
  cases i <;> simp [okEvents, h.sendEvents_eq, h.pulseEvents_eq, h.bl, h.params]

theorem failedEvents_eq (i : Instr) (k : Nat) (e : ErrorValue) : failedEvents i u k e = failedEvents i s k e := by
  cases i <;> simp [failedEvents, h.failedSendEvents_eq, h.failedPulseEvents_eq, h.bl, h.params]

/-- Two idle blocks with the same inputs carry an operation out with the same events and answer. -/
theorem bodyOf_done_both (i : Instr) (hs : s.phase = .idle) (hu : u.phase = .idle) :
    ∃ n evs r, Done s (bodyOf i s) n evs r ∧ Done u (bodyOf i u) n evs r := by
  rcases (bodyOf_done i hs).2 with ⟨hr, hd⟩ | ⟨k, e, hk, hf, hd⟩
  · refine ⟨_, _, _, hd, ?_⟩
    rw [← h.okEvents_eq]
    exact bodyOf_done_of_repliesOk hu fun j => (h.nextReply_eq j).trans (hr j)
  · refine ⟨_, _, _, hd, ?_⟩
    rw [← h.failedEvents_eq]
    exact bodyOf_done_of_failsAt hu hk ⟨fun j => (h.nextReply_eq j).trans (hf.1 j), (h.nextReply_eq k).trans hf.2⟩

end SameInputs

/-- Settles O27: both blocks fail at the same write or at none, since they get the same replies. -/
theorem operationsKeepNoMemoryOfThePast : Obligations.OperationsKeepNoMemoryOfThePast := by
  intro i s u t hs hu haddr hbl hparams henv hcalls ht
  have h : SameInputs s u := ⟨haddr, hbl, hparams, henv, hcalls⟩
  rw [exec_idle i hs] at ht
  cases ht
  obtain ⟨n, evs, r, ds, du⟩ := h.bodyOf_done_both i hs hu
  have hbl' : (bodyOf i u).bl = (bodyOf i s).bl := by
    rw [(bodyOf_done i hu).1, (bodyOf_done i hs).1, h.blAfter_eq]
  exact ⟨bodyOf i u, evs, r, exec_idle i hu, ds.trace, du.trace, ds.answers, du.answers, hbl',
    du.phase.trans ds.phase.symm⟩

/-! ### The rows of the transition table -/

/-- A row of R13's table that makes a bus write: the byte written and the position after it. -/
def WriteRow (s : State) (v : Byte) (after : Phase) : Prop :=
  s.phase = .hWE ∧ v = withEnable s.params.layout (latchedFrame .high s) ∧ after = .hTE ∨
  s.phase = .hWC ∧ v = latchedFrame .high s ∧ after = .hTS ∨
  s.phase = .lWE ∧ v = withEnable s.params.layout (latchedFrame .low s) ∧ after = .lTE ∨
  s.phase = .lWC ∧ v = latchedFrame .low s ∧ after = .lTS

/-- A row with a delay in the middle of an operation: the delay and the position after it. -/
def DelayRow (s : State) (n : Nat) (after : Phase) : Prop :=
  s.phase = .hTE ∧ n = s.params.tEnMs ∧ after = .hWC ∨
  s.phase = .hTS ∧ s.latches.opk = .send ∧ n = s.params.tSettleMs ∧ after = .lWE ∨
  s.phase = .lTE ∧ n = s.params.tEnMs ∧ after = .lWC

/-- A row with the last delay of an operation. -/
def LastRow (s : State) (n : Nat) : Prop :=
  s.phase = .hTS ∧ s.latches.opk = .nib ∧ n = s.params.tSettleMs ∨
  s.phase = .lTS ∧ n = s.params.tSettleMs ∨
  s.phase = .wt ∧ n = s.latches.wcnt.toNat

theorem writeStep_ok {v : Byte} {after : Phase} {s : State} (h : nextReply s 0 = .ok) :
    writeStep v after s = setPhase after (afterWrite s.addr v s) := by
  simp [writeStep, busWrite_ok h]

theorem writeStep_err {v : Byte} {after : Phase} {s : State} {e : ErrorValue} (h : nextReply s 0 = .err e) :
    writeStep v after s = takeTransportError e (afterFailedWrite s.addr v e s) := by
  simp [writeStep, busWrite_err h]

theorem WriteRow.advance_eq {s : State} {v : Byte} {after : Phase} (h : WriteRow s v after) :
    advance s = writeStep v after s := by
  rcases h with ⟨hp, rfl, rfl⟩ | ⟨hp, rfl, rfl⟩ | ⟨hp, rfl, rfl⟩ | ⟨hp, rfl, rfl⟩ <;> simp only [advance, hp]

theorem step_of_advance {s t : State} (hb : s.phase ≠ .idle) (hn : ¬(s.phase = .hTS ∧ s.latches.opk = .wait))
    (ha : advance s = t) : step s = .next (afterAdvance t) := ha ▸ step_busy hb hn

theorem WriteRow.step_eq {s : State} {v : Byte} {after : Phase} (h : WriteRow s v after) :
    step s = .next (afterAdvance (writeStep v after s)) := by
  have ha := h.advance_eq
  rcases h with ⟨hp, _⟩ | ⟨hp, _⟩ | ⟨hp, _⟩ | ⟨hp, _⟩ <;> exact step_of_advance (by simp [hp]) (by simp [hp]) ha

theorem WriteRow.after_ne_idle {s : State} {v : Byte} {after : Phase} (h : WriteRow s v after) : after ≠ .idle := by
  rcases h with ⟨_, _, rfl⟩ | ⟨_, _, rfl⟩ | ⟨_, _, rfl⟩ | ⟨_, _, rfl⟩ <;> decide

theorem WriteRow.step_ok {s : State} {v : Byte} {after : Phase} (h : WriteRow s v after) (hr : nextReply s 0 = .ok) :
    step s = .next (setPhase after (afterWrite s.addr v s)) := by
  rw [h.step_eq, writeStep_ok hr, afterAdvance_busy h.after_ne_idle]

theorem WriteRow.step_err {s : State} {v : Byte} {after : Phase} {e : ErrorValue} (h : WriteRow s v after)
    (hr : nextReply s 0 = .err e) :
    step s = .next (takeAnswer (takeTransportError e (afterFailedWrite s.addr v e s))) := by
  rw [h.step_eq, writeStep_err hr, afterAdvance_idle rfl]

theorem DelayRow.step_eq {s : State} {n : Nat} {after : Phase} (h : DelayRow s n after) :
    step s = .next (setPhase after (delay n s)) := by
  have hafter : after ≠ .idle := by rcases h with ⟨_, _, rfl⟩ | ⟨_, _, _, rfl⟩ | ⟨_, _, rfl⟩ <;> decide
  rw [← afterAdvance_busy (t := setPhase after (delay n s)) hafter]
  rcases h with ⟨hp, rfl, rfl⟩ | ⟨hp, hk, rfl, rfl⟩ | ⟨hp, rfl, rfl⟩
  · exact step_of_advance (by simp [hp]) (by simp [hp]) (by simp only [advance, hp])
  · exact step_of_advance (by simp [hp]) (by simp [hk]) (by simp only [advance, hp, hk])
  · exact step_of_advance (by simp [hp]) (by simp [hp]) (by simp only [advance, hp])

/-- The host has nothing to do on the answer `ok`. -/
theorem LastRow.step_eq {s : State} {n : Nat} (h : LastRow s n) : step s = .next (returnOk (delay n s)) := by
  have hans : afterAdvance (returnOk (delay n s)) = returnOk (delay n s) :=
    (afterAdvance_idle rfl).trans (takeAnswer_ok (l := s.answers) rfl)
  rw [← hans]
  rcases h with ⟨hp, hk, rfl⟩ | ⟨hp, rfl⟩ | ⟨hp, rfl⟩
  · exact step_of_advance (by simp [hp]) (by simp [hk]) (by simp only [advance, hp, hk])
  · exact step_of_advance (by simp [hp]) (by simp [hp]) (by simp only [advance, hp])
  · exact step_of_advance (by simp [hp]) (by simp [hp]) (by simp only [advance, hp])

/-- Settles O29: each kind of row by the step it makes. -/
theorem sequencerFollowsTheTable : Obligations.SequencerFollowsTheTable := by
  refine ⟨fun s v after (h : WriteRow s v after) => ⟨fun hr => ?_, fun e hr => ?_⟩,
    fun s n after (h : DelayRow s n after) => ?_, fun s n (h : LastRow s n) => ?_,
    fun s b n d f hp => ⟨rfl, rfl, rfl, rfl, hp⟩⟩
  · exact ⟨_, h.step_ok hr, rfl, rfl, rfl, rfl, rfl⟩
  · exact ⟨_, h.step_err hr, by simp [takeTransportError], by simp [takeTransportError], by simp [takeTransportError]⟩
  · exact ⟨_, h.step_eq, rfl, rfl, rfl, rfl⟩
  · exact ⟨_, h.step_eq, rfl, rfl, rfl⟩

/-- Settles O30. -/
theorem acceptanceLoadsTheLatches : Obligations.AcceptanceLoadsTheLatches :=
  fun _ _ _ _ _ => ⟨rfl, rfl, rfl, rfl, rfl⟩

/-! ### The sequencer carries out the pseudocode -/

theorem advanceN_add (m n : Nat) (s : State) : advanceN (m + n) s = advanceN n (advanceN m s) := by
  induction m generalizing s with
  | zero => rw [Nat.zero_add]; rfl
  | succ m ih => rw [Nat.succ_add]; exact ih (advance s)

theorem setPhase_self {s : State} {ph : Phase} (h : s.phase = ph) : setPhase ph s = s := by subst h; rfl

/-- The first write of a half, as a row of the table. -/
theorem writeRow_phaseWE {h : Half} {s : State} (hp : s.phase = phaseWE h) :
    WriteRow s (withEnable s.params.layout (latchedFrame h s)) (phaseTE h) := by
  cases h with
  | high => exact .inl ⟨hp, rfl, rfl⟩
  | low => exact .inr (.inr (.inl ⟨hp, rfl, rfl⟩))

/-- The second write of a half, as a row of the table. -/
theorem writeRow_phaseWC {h : Half} {s : State} (hp : s.phase = phaseWC h) :
    WriteRow s (latchedFrame h s) (phaseTS h) := by
  cases h with
  | high => exact .inr (.inl ⟨hp, rfl, rfl⟩)
  | low => exact .inr (.inr (.inr ⟨hp, rfl, rfl⟩))

theorem advance_phaseTE {h : Half} {s : State} (hp : s.phase = phaseTE h) :
    advance s = setPhase (phaseWC h) (delay s.params.tEnMs s) := by
  cases h <;> simp only [phaseTE] at hp <;> simp only [advance, hp, phaseWC]

/-- The frame of a half is the same throughout the half. -/
theorem latchedFrame_pulseMid (h : Half) (f : Byte) (s : State) :
    latchedFrame h (pulseMid h f s) = latchedFrame h s := by cases h <;> rfl

section Pulse

variable {h : Half} {s : State} (hp : s.phase = phaseWE h)
include hp

/-- A good first write and its delay bring the sequencer to the half's second write. -/
theorem advanceN_two_ok (h0 : nextReply s 0 = .ok) : advanceN 2 s = pulseMid h (latchedFrame h s) s := by
  show advance (advance s) = _
  rw [(writeRow_phaseWE hp).advance_eq, writeStep_ok h0, advance_phaseTE rfl, pulseMid, setPhase_self hp]
  rfl

/-- The second write of a half, after a good first one. -/
theorem advanceN_three_ok (h0 : nextReply s 0 = .ok) :
    advanceN 3 s = writeStep (latchedFrame h s) (phaseTS h) (pulseMid h (latchedFrame h s) s) := by
  rw [advanceN_add 2 1, advanceN_two_ok hp h0]
  show advance _ = _
  rw [(writeRow_phaseWC (h := h) rfl).advance_eq, latchedFrame_pulseMid]

/-- A pulse that fails, as three calls of the sequencer at most. -/
theorem advanceN_of_pulse_raised {e : ErrorValue} {t : State} (hr : pulse h (latchedFrame h s) s = .raised e t) :
    advanceN 3 s = takeTransportError e t := by
  rcases pulse_cases h (latchedFrame h s) s with ⟨_, _, hc⟩ | ⟨e', h0, hc⟩ | ⟨e', h0, h1, hc⟩ <;>
    rw [hc] at hr <;> cases hr
  · show advanceN 2 (advance s) = _
    rw [(writeRow_phaseWE hp).advance_eq, writeStep_err h0, setPhase_self hp]
    exact advanceN_idle rfl 2
  · rw [advanceN_three_ok hp h0, writeStep_err]
    · rfl
    · rw [(ran_pulseMid h _ s).nextReply]
      exact h1

/-- A pulse that succeeds is three calls of the sequencer and the settle delay. -/
theorem advanceN_of_pulse_returned {t : State} (hr : pulse h (latchedFrame h s) s = .returned t) :
    (advanceN 3 s).phase = phaseTS h ∧ (advanceN 3 s).latches = s.latches ∧
      t = delay (advanceN 3 s).params.tSettleMs (advanceN 3 s) := by
  rcases pulse_cases h (latchedFrame h s) s with ⟨h0, h1, hc⟩ | ⟨e', _, hc⟩ | ⟨e', _, _, hc⟩ <;>
    rw [hc] at hr <;> cases hr
  rw [advanceN_three_ok hp h0, writeStep_ok]
  · exact ⟨rfl, rfl, rfl⟩
  · rw [(ran_pulseMid h _ s).nextReply]
    exact h1

end Pulse

/-- The last half of an operation, in four calls of the sequencer: the pulse and the operation's answer. -/
theorem advanceN_four_answer {h : Half} {s : State} (hp : s.phase = phaseWE h)
    (hlast : h = .low ∨ s.latches.opk = .nib) : advanceN 4 s = (pulse h (latchedFrame h s) s).answer := by
  rw [advanceN_add 3 1]
  cases hc : pulse h (latchedFrame h s) s with
  | raised e t =>
    rw [advanceN_of_pulse_raised hp hc]
    exact advanceN_idle rfl 1
  | returned t =>
    obtain ⟨hph, hl, rfl⟩ := advanceN_of_pulse_returned hp hc
    show advance (advanceN 3 s) = returnOk _
    rcases hlast with rfl | hk
    · simp only [phaseTS] at hph
      simp only [advance, hph]
    · rw [← hl] at hk
      cases h <;> simp only [phaseTS] at hph <;> simp only [advance, hph, hk]

/-- The sequencer carries out a SEND. -/
theorem send_eq_runToIdle (b : Byte) (m : Mode) (s : State) : send b m s = runToIdle (acceptSend b m s) := by
  have hp : (acceptSend b m s).phase = phaseWE .high := rfl
  show ((pulse .high (latchedFrame .high (acceptSend b m s)) (acceptSend b m s)).andThen _).answer = advanceN (3 + 5) _
  rw [advanceN_add]
  cases hc : pulse .high (latchedFrame .high (acceptSend b m s)) (acceptSend b m s) with
  | raised e t =>
    rw [advanceN_of_pulse_raised hp hc]
    exact (advanceN_idle rfl 5).symm
  | returned t =>
    obtain ⟨hph, hl, rfl⟩ := advanceN_of_pulse_returned hp hc
    generalize advanceN 3 (acceptSend b m s) = u at hph hl
    have hnext : advance u = setPhase .lWE (delay u.params.tSettleMs u) := by
      simp only [advance, show u.phase = .hTS from hph, hl, acceptSend_latches]
    have hframe : latchedFrame .low (advance u) = frame u.params.layout (lowNibble b) m u.bl := by
      simp [hnext, latchedFrame, hl]
    show (pulse .low (frame u.params.layout (lowNibble b) m u.bl) (delay u.params.tSettleMs u)).answer =
      advanceN 4 (advance u)
    rw [advanceN_four_answer (h := .low) (by rw [hnext]; rfl) (.inl rfl), hframe, hnext]
    rfl

theorem highNibble_nibbleAsByte (n : Nibble) : highNibble (nibbleAsByte n) = n := by revert n; decide

/-- The sequencer carries out a NIB. -/
theorem sendNibble_eq_runToIdle (n : Nibble) (s : State) : sendNibble n s = runToIdle (acceptNib n s) := by
  have hframe : frame s.params.layout n .command s.bl = latchedFrame .high (acceptNib n s) := by
    simp [latchedFrame, highNibble_nibbleAsByte]
  have hfour := advanceN_four_answer (h := .high) (s := acceptNib n s) rfl (.inr rfl)
  have hidle : (advanceN 4 (acceptNib n s)).phase = .idle := by
    rw [hfour]
    cases pulse .high (latchedFrame .high (acceptNib n s)) (acceptNib n s) <;> rfl
  rw [sendNibble, hframe, ← hfour, runToIdle, advanceN_add 4 4, advanceN_idle hidle]

/-- The sequencer carries out a WAIT. -/
theorem waitMs_eq_runToIdle (d : WaitCount) (s : State) : waitMs d s = runToIdle (acceptWait d s) :=
  (advanceN_idle (s := waitMs d s) rfl 7).symm

/-- Settles O31: operation by operation. -/
theorem operationIsAcceptanceThenSequencer : Obligations.OperationIsAcceptanceThenSequencer := by
  intro i s h
  rw [exec_idle i h]
  congr 1
  cases i with
  | sendC b => exact send_eq_runToIdle b .command s
  | sendD b => exact send_eq_runToIdle b .data s
  | nib n => exact sendNibble_eq_runToIdle n s
  | setbl f => exact (runToIdle_idle (s := setBacklight f s) h).symm
  | wait d => exact waitMs_eq_runToIdle d s

/-! ### Coherent states -/

theorem coherent_congr {s t : State} (hp : t.phase = s.phase) (hl : t.latches = s.latches) :
    Coherent t ↔ Coherent s := by
  simp only [Coherent, hp, hl]

theorem coherent_of_idle {s : State} (h : s.phase = .idle) : Coherent s := by simp [Coherent, h]

@[simp] theorem afterAdvance_phase (t : State) : (afterAdvance t).phase = t.phase := by
  unfold afterAdvance; split <;> simp

@[simp] theorem afterAdvance_latches (t : State) : (afterAdvance t).latches = t.latches := by
  unfold afterAdvance; split <;> simp

/-- The position without a row is not one of an operation in progress. -/
theorem Coherent.has_row {s : State} (h : Coherent s) : ¬(s.phase = .hTS ∧ s.latches.opk = .wait) := by
  rintro ⟨hp, hk⟩
  simp [Coherent, hp, hk] at h

/-- An idle block stays idle over a move of the host. -/
theorem IdleNext.phase {s t : State} (h : IdleNext s t) : t.phase = .idle := by
  cases h with
  | offered w rest i ho => rw [takeAnswer_phase]; exact bodyOf_phase i ho.1
  | began o rest hb => simpa [begun] using hb.1
  | marked _ hp | finished _ hp | waits hp => exact hp
  | constructs => rfl
  | called _ _ h | words _ _ h | drops _ h => exact h.1

/-- A primitive call of a coherent state leads to one. -/
theorem Coherent.advance {s : State} (h : Coherent s) (hb : s.phase ≠ .idle) : Coherent (advance s) := by
  cases busy_row hb h.has_row with
  | writes v after hv row =>
    rw [hv]
    rcases writeStep_cases v after s with ⟨_, hw⟩ | ⟨e, _, hw⟩ <;> rw [hw]
    · rcases row with ⟨hp, _, rfl⟩ | ⟨hp, _, rfl⟩ | ⟨hp, _, rfl⟩ | ⟨hp, _, rfl⟩ <;> simpa [Coherent, hp] using h
    · exact coherent_of_idle rfl
  | delays n after hv row =>
    rw [hv]
    rcases row with ⟨hp, _, rfl⟩ | ⟨_, hk, _, rfl⟩ | ⟨hp, _, rfl⟩
    · simpa [Coherent, hp] using h
    · exact hk
    · simpa [Coherent, hp] using h
  | ends n hv row =>
    rw [hv]
    exact coherent_of_idle rfl

theorem Coherent.step {s t : State} (h : Coherent s) (hs : step s = .next t) : Coherent t := by
  rcases step_next hs with ⟨_, hi⟩ | ⟨hb, _, rfl⟩
  · exact coherent_of_idle hi.phase
  · exact (coherent_congr (afterAdvance_phase _) (afterAdvance_latches _)).mpr (h.advance hb)

/-- No call of the application faults. -/
theorem startCall_ne_fault (c : HostCall) (s : State) (r : Fault) : startCall c s ≠ .fault r := by
  cases c with
  | construct c => simp only [startCall, construct]; split <;> simp
  | op o => simp only [startCall]; split <;> simp
  | commandWords ws =>
    simp only [startCall, loadWords]
    split
    · simp
    · split <;> simp
  | drop => simp only [startCall]; split <;> simp

/-- No operation of the driver faults when it begins. -/
theorem beginOp_ne_fault (o : HostOp) (s : State) (r : Fault) : beginOp o s ≠ .fault r := by
  unfold beginOp; split <;> simp

/-- A word offered to an idle block never faults. -/
theorem OffersNext.step_ne_fault {s : State} {w : Word} {rest : List HostTask} (h : OffersNext s w rest) (r : Fault) :
    step s ≠ .fault r := by
  cases hd : decode w with
  | instr i => simp [step_offers h hd]
  | reserved why => simp [step_offers_reserved h hd]

theorem noRow_iff (s : State) : noRow s = true ↔ s.phase = .hTS ∧ s.latches.opk = .wait := by simp [noRow]

/-- A step faults in the position without a row and nowhere else. -/
theorem step_fault_iff {s : State} : step s = .fault .noTransition ↔ s.phase = .hTS ∧ s.latches.opk = .wait := by
  constructor
  · intro h
    rcases step_cases s with ⟨w, rest, ho, _⟩ | ⟨o, rest, _, hs⟩ | ⟨rest, _, _, hs⟩ | ⟨c, _, _, _, hs⟩ |
      ⟨c, rest, _, hs⟩ | ⟨_, _, _, _, hs⟩ | ⟨_, hn, _⟩ | ⟨_, _, hs⟩
    · exact absurd h (ho.step_ne_fault _)
    · exact absurd (hs ▸ h) (beginOp_ne_fault o _ _)
    · simp [hs] at h
    · simp [hs] at h
    · exact absurd (hs ▸ h) (startCall_ne_fault c _ _)
    · simp [hs] at h
    · exact (noRow_iff s).mp hn
    · simp [hs] at h
  · intro h
    simp [step, h.1, busyStep, (noRow_iff s).mpr h]

/-- Settles O32. -/
theorem coherentStatesNeverFault : Obligations.CoherentStatesNeverFault :=
  ⟨fun _ h => ⟨fun _ hf => h.has_row (step_fault_iff.mp hf), fun _ => h.step⟩, fun _ _ => step_fault_iff⟩

/-! ### What a step changes of the construction, the flags and the trace -/

/-- What no primitive call of the block and no answer to the host touches is as before, and the trace went on. -/
structure Carried (s t : State) : Prop where
  addr : t.addr = s.addr
  rows : t.rows = s.rows
  cell : t.cell = s.cell
  params : t.params = s.params
  dc : t.dc = s.dc
  em : t.em = s.em
  trace : ∃ evs, t.trace = s.trace ++ evs ∧ t.waited = s.waited + requestedDelay evs

/-- Taking a task off the host's list is no part of what is kept. -/
theorem Carried.of_withProgram {s t : State} {rest : List HostTask} (h : Carried { s with program := rest } t) :
    Carried s t := ⟨h.addr, h.rows, h.cell, h.params, h.dc, h.em, h.trace⟩

theorem Ran.carried {s t : State} {n : Nat} {evs : List Event} (h : Ran s t n evs) : Carried s t :=
  ⟨h.host.addr, h.host.rows, h.host.cell, h.host.params, h.host.dc, h.host.em, evs, h.trace, h.waited⟩

theorem Done.carried {s t : State} {n : Nat} {evs : List Event} {r : Reply} (h : Done s t n evs r) : Carried s t :=
  ⟨h.host.addr, h.host.rows, h.host.cell, h.host.params, h.host.dc, h.host.em, evs, h.trace, h.waited⟩

/-- The host's taking an answer touches nothing of it. -/
theorem Carried.takeAnswer {s t : State} (h : Carried s t) : Carried s (takeAnswer t) := by
  obtain ⟨addr, rows, cell, params, dc, em, trace⟩ := h
  constructor <;> simpa

theorem Carried.afterAdvance {s t : State} (h : Carried s t) : Carried s (afterAdvance t) := by
  unfold Machine.afterAdvance
  split
  · exact h.takeAnswer
  · exact h

theorem bodyOf_carried (i : Instr) {s : State} (h : s.phase = .idle) : Carried s (bodyOf i s) := by
  rcases (bodyOf_done i h).2 with ⟨_, hd⟩ | ⟨_, _, _, _, hd⟩ <;> exact hd.carried

/-- One primitive call of the sequencer, and the end of the operation if it was the last. -/
theorem advance_carried {s : State} (hb : s.phase ≠ .idle) (hn : ¬(s.phase = .hTS ∧ s.latches.opk = .wait)) :
    Carried s (advance s) ∧ (advance s).bl = s.bl := by
  cases busy_row hb hn with
  | writes v after hv =>
    rw [hv]
    rcases writeStep_cases v after s with ⟨_, hw⟩ | ⟨e, _, hw⟩ <;> rw [hw]
    · exact ⟨((ran_afterWrite s.addr v s).trans (ran_setPhase after _)).carried, rfl⟩
    · exact ⟨((ran_afterFailedWrite s.addr v e s).done (.err e)).carried, rfl⟩
  | delays n after hv =>
    rw [hv]
    exact ⟨((ran_delay n s).trans (ran_setPhase after _)).carried, rfl⟩
  | ends n hv =>
    rw [hv]
    exact ⟨((ran_delay n s).done .ok).carried, rfl⟩

@[simp] theorem afterAdvance_bl (t : State) : (afterAdvance t).bl = t.bl := by unfold afterAdvance; split <;> simp

/-- A SETBL is offered next, and its flag is what `BL` is in `t`. -/
def SetblOffered (s t : State) : Prop :=
  ∃ w rest f, OffersNext s w rest ∧ decode w = .instr (.setbl f) ∧ t.bl = f

/-- Everything a step can change of the construction, the flags and the trace. -/
inductive StepKeeps (s t : State) : Prop where
  /-- A step that neither begins an operation of the driver nor constructs. -/
  | carried (h : Carried s t) (bl : t.bl = s.bl ∨ SetblOffered s t)
  /-- An operation of the driver was begun. -/
  | began (o : HostOp) (rest : List HostTask) (h : t = begun o rest s)
  /-- A Handle was constructed. -/
  | constructed (h : ConstructsNext s) (a : BusAddr) (r : RowCount) (c : CellSize) (rest : List HostCall)
      (ht : t = constructed a r c { s with calls := rest })

theorem IdleNext.keeps {s t : State} (h : IdleNext s t) : StepKeeps s t := by
  cases h with
  | offered w rest i ho hd =>
    have hp : ({ s with program := rest } : State).phase = .idle := ho.1
    refine .carried (bodyOf_carried i hp).of_withProgram.takeAnswer ?_
    rw [SetblOffered, takeAnswer_bl, (bodyOf_done i hp).1]
    rcases blAfter_cases i { s with program := rest } with hb | ⟨f, rfl, hb⟩
    · exact .inl hb
    · exact .inr ⟨w, rest, f, ho, hd, hb⟩
  | began o rest => exact .began o rest rfl
  | constructs c rest a r hc => exact .constructed ⟨c, rest, hc⟩ a r _ rest rfl
  | marked | finished | called | words | drops | waits =>
    exact .carried ⟨rfl, rfl, rfl, rfl, rfl, rfl, [], (List.append_nil _).symm, rfl⟩ (.inl rfl)

theorem step_keeps {s t : State} (h : step s = .next t) : StepKeeps s t := by
  rcases step_next h with ⟨_, hi⟩ | ⟨hb, hn, rfl⟩
  · exact hi.keeps
  · obtain ⟨hc, hbl⟩ := advance_carried hb hn
    exact .carried hc.afterAdvance (.inl ((afterAdvance_bl _).trans hbl))

@[simp] theorem begun_addr (o : HostOp) (rest : List HostTask) (s : State) : (begun o rest s).addr = s.addr := by
  simp [begun]
@[simp] theorem begun_bl (o : HostOp) (rest : List HostTask) (s : State) : (begun o rest s).bl = s.bl := by
  simp [begun]
@[simp] theorem begun_rows (o : HostOp) (rest : List HostTask) (s : State) : (begun o rest s).rows = s.rows := by
  simp [begun]
@[simp] theorem begun_cell (o : HostOp) (rest : List HostTask) (s : State) : (begun o rest s).cell = s.cell := by
  simp [begun]
@[simp] theorem begun_params (o : HostOp) (rest : List HostTask) (s : State) :
    (begun o rest s).params = s.params := by simp [begun]
@[simp] theorem begun_trace (o : HostOp) (rest : List HostTask) (s : State) : (begun o rest s).trace = s.trace := by
  simp [begun]
@[simp] theorem begun_waited (o : HostOp) (rest : List HostTask) (s : State) :
    (begun o rest s).waited = s.waited := by simp [begun]

/-- An operation of the driver that changes a display-control flag sends the accumulator next. -/
theorem begun_dc (o : HostOp) (rest : List HostTask) (s : State) :
    (begun o rest s).dc = s.dc ∨
      (begun o rest s).program = issueOp (.sendC (displayPayload (begun o rest s).dc)) :: rest := by
  cases o with
  | renderingOn | renderingOff | cursorOn | cursorOff | cursorBlinkOn | cursorBlinkOff => exact .inr rfl
  | _ => exact .inl rfl

/-- An operation of the driver that changes an entry-mode flag sends the accumulator next. -/
theorem begun_em (o : HostOp) (rest : List HostTask) (s : State) :
    (begun o rest s).em = s.em ∨
      (begun o rest s).program = issueOp (.sendC (entryPayload (begun o rest s).em)) :: rest := by
  cases o with
  | leftToRight | rightToLeft => exact .inr rfl
  | _ => exact .inl rfl

/-- No operation of the driver writes the auto-shift flag. -/
@[simp] theorem begun_autoShift (o : HostOp) (rest : List HostTask) (s : State) :
    (begun o rest s).em.autoShift = s.em.autoShift := by cases o <;> rfl

/-- A construction for the same address keeps the delay requested so far. -/
theorem constructed_waited_same (r : RowCount) (c : CellSize) (s : State) :
    (constructed s.addr r c s).waited = s.waited := by simp [constructed]

/-- Settles O56: a construction starts an empty trace; every other step appends its primitive calls. -/
theorem traceOnlyGrows : Obligations.TraceOnlyGrows := by
  intro s t h
  cases step_keeps h with
  | carried hc => exact .inl hc.trace
  | began o rest hb => exact .inl ⟨[], by simp [hb], by simp [hb, requestedDelay]⟩
  | constructed hn a r c rest ht =>
    subst ht
    refine .inr ⟨hn, rfl, fun ha => ?_⟩
    have ha : a = ({ s with calls := rest } : State).addr := ha
    rw [ha, constructed_waited_same]

/-- Settles O57. -/
theorem configurationIsFixed : Obligations.ConfigurationIsFixed := by
  intro s t h
  cases step_keeps h with
  | carried hc => exact ⟨hc.params, .inl ⟨hc.addr, hc.rows, hc.cell⟩⟩
  | began o rest hb => simp [hb]
  | constructed hn a r c rest ht => exact ⟨by rw [ht]; rfl, .inr hn⟩

/-- Settles O58. -/
theorem backlightWrittenBySetblOnly : Obligations.BacklightWrittenBySetblOnly := by
  intro s t h
  cases step_keeps h with
  | carried _ bl =>
    rcases bl with hb | hb
    · exact .inl hb
    · exact .inr (.inl hb)
  | began o rest hb => exact .inl (by simp [hb])
  | constructed hn a r c rest ht => exact .inr (.inr ⟨hn, by rw [ht]; rfl⟩)

/-- Settles O59: the accumulators change where an operation of the driver begins, whose expansion is that payload. -/
theorem changedAccumulatorIsRetransmitted : Obligations.ChangedAccumulatorIsRetransmitted := by
  intro s t h
  cases step_keeps h with
  | carried hc => exact ⟨.inl hc.dc, .inl hc.em⟩
  | began o rest hb =>
    subst hb
    exact ⟨(begun_dc o rest s).imp_right fun hd => .inl ⟨rest, hd⟩,
      (begun_em o rest s).imp_right fun he => .inl ⟨rest, he⟩⟩
  | constructed hn => exact ⟨.inr (.inr hn), .inr (.inr hn)⟩

/-- Settles O60. -/
theorem autoShiftStaysClear : Obligations.AutoShiftStaysClear := by
  intro s t hs h
  cases step_keeps h with
  | carried hc => rw [hc.em, hs]
  | began o rest hb => rw [hb, begun_autoShift, hs]
  | constructed hn a r c rest ht => rw [ht]; rfl

/-- Settles O50. -/
theorem resetValues : Obligations.ResetValues := ⟨rfl, rfl, rfl, rfl, rfl, rfl, rfl, rfl, rfl⟩

end Sys2Proof.Machine

/-! The pacing of the two-phase write, the nibbles the controller is given, and the step that runs an offered word. -/

namespace Sys2Proof.Machine

/-! ### The pace of a stretch of the trace -/

/-- The pace after the events of a list, from a given pace on; `none` if some event is not admitted. -/
def paceFrom (p : Params) (q : Pace) : List Event → Option Pace
  | [] => some q
  | ev :: rest => (paceStep p q ev).bind fun q' => paceFrom p q' rest

/-- An event that was not admitted is never made good. -/
theorem foldl_paceStep_none (p : Params) (evs : List Event) :
    evs.foldl (fun at_ ev => at_.bind fun q => paceStep p q ev) none = none := by
  induction evs with
  | nil => rfl
  | cons ev evs ih => simpa using ih

theorem foldl_paceStep_some (p : Params) (q : Pace) (evs : List Event) :
    evs.foldl (fun at_ ev => at_.bind fun q => paceStep p q ev) (some q) = paceFrom p q evs := by
  induction evs generalizing q with
  | nil => rfl
  | cons ev evs ih =>
    simp only [List.foldl_cons, Option.bind_some, paceFrom]
    cases paceStep p q ev with
    | none => exact foldl_paceStep_none p evs
    | some q' => exact ih q'

theorem tracePace_append {p : Params} {t : List Event} {q : Pace} (h : tracePace p t = some q) (evs : List Event) :
    tracePace p (t ++ evs) = paceFrom p q evs := by
  unfold tracePace at h ⊢
  rw [List.foldl_append, h, foldl_paceStep_some]

theorem paceFrom_append {p : Params} {q q' : Pace} {evs : List Event} (h : paceFrom p q evs = some q')
    (evs' : List Event) : paceFrom p q (evs ++ evs') = paceFrom p q' evs' := by
  rw [← foldl_paceStep_some] at h
  rw [← foldl_paceStep_some, List.foldl_append, h, foldl_paceStep_some]

/-- The first write of a nibble is admitted between nibbles. -/
theorem paceStep_raise {p : Params} {v : Byte} (h : enableSet p.layout v = true) (a : BusAddr) :
    paceStep p .ready (.write a v .ok) = some (.enableWritten v) ∧
    ∀ e, paceStep p .ready (.write a v (.err e)) = some .ready := by simp [paceStep, h]

/-- The second write of a nibble is admitted after the first and its delay. -/
theorem paceStep_lower {p : Params} {v w : Byte} (h : v &&& ~~~p.layout.enMask = w) (a : BusAddr) :
    paceStep p (.enableHeld v) (.write a w .ok) = some .clearWritten ∧
    ∀ e, paceStep p (.enableHeld v) (.write a w (.err e)) = some .ready := by simp [paceStep, h]

@[simp] theorem paceStep_delay_ready (p : Params) (n : Nat) : paceStep p .ready (.delay n) = some .ready := rfl

@[simp] theorem paceStep_delay_enable (p : Params) (v : Byte) :
    paceStep p (.enableWritten v) (.delay p.tEnMs) = some (.enableHeld v) := by simp [paceStep]

@[simp] theorem paceStep_delay_settle (p : Params) : paceStep p .clearWritten (.delay p.tSettleMs) = some .ready := by
  simp [paceStep]

/-! ### The pace of an operation -/

section Operation

variable {s : State} (v : s.params.layout.Valid)
include v

/-- A completed pulse begins and ends between nibbles. -/
theorem paceFrom_pulseEvents (n : Nibble) (m : Mode) (bl : Bool) :
    paceFrom s.params .ready (pulseEvents s (frame s.params.layout n m bl)) = some .ready := by
  simp [pulseEvents, paceFrom, (paceStep_raise (enableSet_withEnable v n m bl) s.addr).1,
    (paceStep_lower (withEnable_and_not_enMask v n m bl) s.addr).1]

/-- A failed write ends the operation, and the next one begins between nibbles. -/
theorem paceFrom_failedPulseEvents (n : Nibble) (m : Mode) (bl second : Bool) (e : ErrorValue) :
    paceFrom s.params .ready (failedPulseEvents s (frame s.params.layout n m bl) second e) = some .ready := by
  obtain ⟨raise, raise_fails⟩ := paceStep_raise (enableSet_withEnable v n m bl) s.addr
  obtain ⟨_, lower_fails⟩ := paceStep_lower (withEnable_and_not_enMask v n m bl) s.addr
  cases second with
  | false => simp [failedPulseEvents, paceFrom, raise_fails]
  | true => simp [failedPulseEvents, paceFrom, raise, lower_fails]

theorem paceFrom_sendEvents (b : Byte) (m : Mode) :
    paceFrom s.params .ready (sendEvents s b m) = some .ready :=
  (paceFrom_append (paceFrom_pulseEvents v _ _ _) _).trans (paceFrom_pulseEvents v _ _ _)

theorem paceFrom_failedSendEvents (b : Byte) (m : Mode) (k : Fin 4) (e : ErrorValue) :
    paceFrom s.params .ready (failedSendEvents s b m k e) = some .ready := by
  match k with
  | 0 | 1 => exact paceFrom_failedPulseEvents v _ _ _ _ e
  | 2 | 3 => exact (paceFrom_append (paceFrom_pulseEvents v _ _ _) _).trans (paceFrom_failedPulseEvents v _ _ _ _ e)

theorem paceFrom_okEvents (i : Instr) : paceFrom s.params .ready (okEvents i s) = some .ready := by
  cases i with
  | sendC b | sendD b => exact paceFrom_sendEvents v b _
  | nib n => exact paceFrom_pulseEvents v n _ _
  | setbl | wait => rfl

theorem paceFrom_failedEvents (i : Instr) (k : Nat) (e : ErrorValue) :
    paceFrom s.params .ready (failedEvents i s k e) = some .ready := by
  cases i with
  | sendC b | sendD b => exact paceFrom_failedSendEvents v b _ _ e
  | nib n => exact paceFrom_failedPulseEvents v n _ _ _ e
  | setbl | wait => rfl

/-- The frame of a half is a frame: its first write sets enable, its second is the first with enable cleared. -/
theorem latchedFrame_phases (h : Half) :
    enableSet s.params.layout (withEnable s.params.layout (latchedFrame h s)) = true ∧
    withEnable s.params.layout (latchedFrame h s) &&& ~~~s.params.layout.enMask = latchedFrame h s := by
  cases h <;> exact ⟨enableSet_withEnable v _ _ _, withEnable_and_not_enMask v _ _ _⟩

/-- A write row makes the write that is due: answered `ok` it brings the pace to the position after it, and a failed one
between nibbles. -/
theorem WriteRow.pace_next {w : Byte} {after : Phase} (h : WriteRow s w after) :
    paceStep s.params (paceAt s) (.write s.addr w .ok) = some (paceAt (setPhase after (afterWrite s.addr w s))) ∧
    ∀ e, paceStep s.params (paceAt s) (.write s.addr w (.err e)) = some .ready := by
  rcases h with ⟨hp, rfl, rfl⟩ | ⟨hp, rfl, rfl⟩ | ⟨hp, rfl, rfl⟩ | ⟨hp, rfl, rfl⟩ <;> simp only [paceAt, hp]
  · exact paceStep_raise (latchedFrame_phases v .high).1 s.addr
  · exact paceStep_lower (latchedFrame_phases v .high).2 s.addr
  · exact paceStep_raise (latchedFrame_phases v .low).1 s.addr
  · exact paceStep_lower (latchedFrame_phases v .low).2 s.addr

end Operation

/-- A delay row makes the delay that is due. -/
theorem DelayRow.pace_next {s : State} {n : Nat} {after : Phase} (h : DelayRow s n after) :
    paceStep s.params (paceAt s) (.delay n) = some (paceAt (setPhase after (delay n s))) := by
  rcases h with ⟨hp, rfl, rfl⟩ | ⟨hp, _, rfl, rfl⟩ | ⟨hp, rfl, rfl⟩ <;> simp only [paceAt, hp]
  · exact paceStep_delay_enable s.params _
  · exact paceStep_delay_settle s.params
  · exact paceStep_delay_enable s.params _

/-- The last delay of an operation is due, and brings the pace between nibbles. -/
theorem LastRow.pace_next {s : State} {n : Nat} (h : LastRow s n) :
    paceStep s.params (paceAt s) (.delay n) = some .ready := by
  rcases h with ⟨hp, _, rfl⟩ | ⟨hp, rfl⟩ | ⟨hp, rfl⟩ <;> simp [paceAt, hp]

/-! ### Every step keeps the pacing -/

theorem paceAt_idle {s : State} (h : s.phase = .idle) : paceAt s = .ready := by simp [paceAt, h]

/-- A stretch whose events are admitted, up to where the sequencer then stands, keeps the pacing. -/
theorem Paced.append {s t : State} {evs : List Event} (h : Paced s) (hp : t.params = s.params)
    (ht : t.trace = s.trace ++ evs) (he : paceFrom s.params (paceAt s) evs = some (paceAt t)) : Paced t := by
  obtain ⟨valid, pace⟩ := h
  exact ⟨hp ▸ valid, by rw [hp, ht, tracePace_append pace, he]⟩

/-- One admitted event. -/
theorem Paced.append_one {s t : State} {ev : Event} (h : Paced s) (hp : t.params = s.params)
    (ht : t.trace = s.trace ++ [ev]) (he : paceStep s.params (paceAt s) ev = some (paceAt t)) : Paced t :=
  h.append hp ht (by simp [paceFrom, he])

/-- The host's taking an answer leaves the pacing as it is. -/
theorem Paced.takeAnswer {t : State} (h : Paced t) : Paced (takeAnswer t) := by
  simpa [Paced, paceAt, latchedFrame] using h

theorem Paced.afterAdvance {t : State} (h : Paced t) : Paced (afterAdvance t) := by
  unfold Machine.afterAdvance
  split
  · exact h.takeAnswer
  · exact h

/-- An operation of an idle block is paced. -/
theorem Paced.bodyOf {s : State} (h : Paced s) (hp : s.phase = .idle) (i : Instr) : Paced (bodyOf i s) := by
  have hready : paceAt (Machine.bodyOf i s) = .ready := paceAt_idle (bodyOf_phase i hp)
  rcases (bodyOf_done i hp).2 with ⟨_, hd⟩ | ⟨k, e, _, _, hd⟩
  · refine h.append hd.host.params hd.trace ?_
    rw [paceAt_idle hp, hready, paceFrom_okEvents h.1]
  · refine h.append hd.host.params hd.trace ?_
    rw [paceAt_idle hp, hready, paceFrom_failedEvents h.1]

/-- A move of the host keeps the pacing: a construction empties the trace, an offered word adds the events of an operation,
and every other move makes no primitive call. -/
theorem Paced.idleNext {s t : State} (h : Paced s) (hs : IdleNext s t) : Paced t := by
  cases hs with
  | offered w rest i ho =>
    have h' : Paced { s with program := rest } := h
    exact (h'.bodyOf ho.1 i).takeAnswer
  | began o rest hb =>
    have hp : (begun o rest s).phase = .idle := by simpa [begun] using hb.1
    exact h.append (evs := []) (by simp) (by simp) (by rw [paceAt_idle hb.1, paceAt_idle hp]; rfl)
  | constructs => exact ⟨h.1, rfl⟩
  | marked | finished | called | words | drops | waits => exact h

/-- A primitive call of the sequencer keeps the pacing. -/
theorem Paced.advance {s : State} (h : Paced s) (hb : s.phase ≠ .idle)
    (hn : ¬(s.phase = .hTS ∧ s.latches.opk = .wait)) : Paced (advance s) := by
  cases busy_row hb hn with
  | writes v after hv row =>
    obtain ⟨pace_ok, pace_err⟩ := WriteRow.pace_next h.1 row
    rw [hv]
    rcases writeStep_cases v after s with ⟨_, hw⟩ | ⟨e, _, hw⟩ <;> rw [hw]
    · exact h.append_one rfl rfl pace_ok
    · exact h.append_one rfl rfl (pace_err e)
  | delays n after hv row =>
    rw [hv]
    exact h.append_one rfl rfl (DelayRow.pace_next row)
  | ends n hv row =>
    rw [hv]
    exact h.append_one rfl rfl (LastRow.pace_next row)

/-- Settles O52: a move of the host by the operation it offers, a busy block by the row of its position. -/
theorem everyStepKeepsThePacing : Obligations.EveryStepKeepsThePacing := by
  intro s t h hs
  rcases step_next hs with ⟨_, hi⟩ | ⟨hb, hn, rfl⟩
  · exact h.idleNext hi
  · exact (h.advance hb hn).afterAdvance

/-- Settles O54. -/
theorem resetMeetsTheInvariants : Obligations.ResetMeetsTheInvariants :=
  ⟨⟨by decide, rfl⟩, fun _ _ _ h => absurd h List.not_mem_nil, coherent_of_idle rfl⟩

/-! ### The step that runs an offered word -/

/-- Settles O33. -/
theorem stepRunsTheOfferedOperation : Obligations.StepRunsTheOfferedOperation := by
  refine ⟨fun s w rest i ho hd => ⟨_, exec_idle i ho.1, step_offers ho hd⟩, fun s w => ⟨rfl, ?_⟩⟩
  have hw : BitVec.ofNat 16 (w.toNat % 2 ^ 16) = w := by
    rw [Nat.mod_eq_of_lt w.isLt, BitVec.ofNat_toNat, BitVec.setWidth_eq]
  show HostTask.issue _ :: s.program = _
  rw [hw]

/-! ### The nibbles on the lines -/

theorem successfulWrites_append (a : BusAddr) (t evs : List Event) :
    successfulWrites a (t ++ evs) = successfulWrites a t ++ successfulWrites a evs := by
  induction t with
  | nil => rfl
  | cons ev t ih =>
    cases ev with
    | delay n => simpa [successfulWrites] using ih
    | write a' v r =>
      cases r with
      | err e => simpa [successfulWrites] using ih
      | ok =>
        simp only [List.cons_append, successfulWrites, ih]
        split <;> rfl

/-- No nibble spans a byte that sets enable and the byte before it. -/
theorem nibbleItems_append_raise {L : Layout} {v : Byte} (h : enableSet L v = true) (ws rest : List Byte) :
    nibbleItems L (ws ++ v :: rest) = nibbleItems L ws ++ nibbleItems L (v :: rest) := by
  induction ws with
  | nil => rfl
  | cons w ws ih =>
    cases ws with
    | nil => simp [nibbleItems, deliversNibble, h]
    | cons w' ws =>
      simp only [List.cons_append, nibbleItems] at ih ⊢
      rw [ih]
      split <;> rfl

/-- A pulse whose first write fails adds nothing. -/
theorem nibbleStream_failedFirst (s : State) (t : List Event) (f : Byte) (e : ErrorValue) :
    nibbleStream s.params.layout s.addr (t ++ failedPulseEvents s f false e) =
      nibbleStream s.params.layout s.addr t := by
  simp [nibbleStream, successfulWrites_append, failedPulseEvents, successfulWrites]

section Stream

variable {s : State} (v : s.params.layout.Valid) (n : Nibble) (m : Mode) (bl : Bool) (t : List Event)
include v

/-- A completed pulse adds its nibble to the stream. -/
theorem nibbleStream_pulseEvents :
    nibbleStream s.params.layout s.addr (t ++ pulseEvents s (frame s.params.layout n m bl)) =
      nibbleStream s.params.layout s.addr t ++ [(m, n)] := by
  have hw : successfulWrites s.addr (pulseEvents s (frame s.params.layout n m bl)) =
      [withEnable s.params.layout (frame s.params.layout n m bl), frame s.params.layout n m bl] := by
    simp [pulseEvents, successfulWrites]
  rw [nibbleStream, successfulWrites_append, hw, nibbleItems_append_raise (enableSet_withEnable v n m bl)]
  simp [nibbleStream, nibbleItems, deliversNibble_frame v, modeOf_frame v, nibbleOf_frame v]

/-- A completed SEND adds its two nibbles, high first. -/
theorem nibbleStream_sendEvents (b : Byte) :
    nibbleStream s.params.layout s.addr (t ++ sendEvents s b m) =
      nibbleStream s.params.layout s.addr t ++ [(m, highNibble b), (m, lowNibble b)] := by
  rw [sendEvents, ← List.append_assoc, lowFrame, nibbleStream_pulseEvents v, highFrame, nibbleStream_pulseEvents v]
  simp

/-- A SEND whose third write fails adds its high nibble. -/
theorem nibbleStream_failedSendEvents_third (b : Byte) (e : ErrorValue) :
    nibbleStream s.params.layout s.addr (t ++ failedSendEvents s b m 2 e) =
      nibbleStream s.params.layout s.addr t ++ [(m, highNibble b)] := by
  show nibbleStream _ _ (t ++ (pulseEvents s _ ++ failedPulseEvents s _ false e)) = _
  rw [← List.append_assoc, nibbleStream_failedFirst, highFrame, nibbleStream_pulseEvents v]

end Stream

/-- The stream of a whole trace after an operation. -/
theorem Done.nibbleStream_eq {s t : State} {k : Nat} {evs : List Event} {r : Reply} (h : Done s t k evs r) :
    nibbleStream t.params.layout t.addr t.trace = nibbleStream s.params.layout s.addr (s.trace ++ evs) := by
  rw [h.host.params, h.host.addr, h.trace]

/-- The two nibbles of a byte, high first, make up the byte. -/
theorem highNibble_append_lowNibble (b : Byte) : highNibble b ++ lowNibble b = b := by revert b; decide

/-- The operation `i` is the SEND of `b` with mode `m`. -/
def IsSend (i : Instr) (m : Mode) (b : Byte) : Prop := i = .sendC b ∧ m = .command ∨ i = .sendD b ∧ m = .data

theorem IsSend.exec_eq {i : Instr} {m : Mode} {b : Byte} (h : IsSend i m b) {s : State} (hp : s.phase = .idle) :
    exec i s = .next (send b m s) := by
  rcases h with ⟨rfl, rfl⟩ | ⟨rfl, rfl⟩ <;> exact exec_idle _ hp

/-- A SEND that answered `ok` made all its primitive calls. -/
theorem send_done_of_answer_ok {b : Byte} {m : Mode} {s : State} (h : (send b m s).answers = s.answers ++ [.ok]) :
    Done s (send b m s) 4 (sendEvents s b m) .ok := by
  rcases (send_done b m s).2 with ⟨_, hd, _⟩ | ⟨k, e, _, hd⟩
  · exact hd
  · simp [hd.answers] at h

/-- A SEND whose third write is the first to fail. -/
theorem send_done_of_failsAt_third {b : Byte} {m : Mode} {s : State} {e : ErrorValue} (h : FailsAt s 2 e) :
    Done s (send b m s) 3 (failedSendEvents s b m 2 e) (.err e) := by
  rcases (send_done b m s).2 with ⟨hr, _⟩ | ⟨k, e', hf, hd⟩
  · exact absurd hr (h.not_repliesOk (by decide))
  · obtain ⟨hk, rfl⟩ := failsAt_unique h hf
    obtain rfl : k = 2 := Fin.ext hk.symm
    exact hd

/-! ### The pairing of the controller -/

/-- The controller reads the lines: the 40 ms after power-on are over and enable is clear. -/
structure Listening (s : State) : Prop where
  valid : s.params.layout.Valid
  waited : tPowerOnMinMs ≤ s.waited
  clear : enableSet s.params.layout s.p = false

/-- A completed pulse leaves the controller listening. -/
theorem listening_afterPulse {s : State} (h : Listening s) (half : Half) (n : Nibble) (m : Mode) (bl : Bool) :
    Listening (afterPulse half (frame s.params.layout n m bl) s) := by
  have hr := ran_afterPulse half (frame s.params.layout n m bl) s
  refine ⟨by rw [hr.host.params]; exact h.valid, ?_, ?_⟩
  · rw [hr.waited]
    exact Nat.le_add_right_of_le h.waited
  · rw [hr.host.params]
    exact enableSet_afterPulse h.valid half n m bl

/-- A completed pulse shifts the pairing by one. -/
theorem Listening.afterPulse_nextHalf {s : State} (h : Listening s) (half : Half) (n : Nibble) (m : Mode) (bl : Bool)
    (hw : s.controller.width = .fourBit) :
    (afterPulse half (frame s.params.layout n m bl) s).controller.nextHalf = s.controller.nextHalf.other := by
  rw [afterPulse_controller h.valid half n m bl h.waited h.clear, takeNibble_nextHalf _ _ hw]

/-- The first nibble of a byte leaves the controller in 4-bit mode. -/
theorem Listening.afterPulse_width {s : State} (h : Listening s) (half : Half) (n : Nibble) (m : Mode) (bl : Bool)
    (hw : s.controller.width = .fourBit) (hf : s.controller.nextHalf = .first) :
    (afterPulse half (frame s.params.layout n m bl) s).controller.width = .fourBit := by
  rw [afterPulse_controller h.valid half n m bl h.waited h.clear, takeNibble_width _ _ hw hf]

/-- A pulse whose first write fails leaves the controller as it was. -/
theorem Listening.pulse_failsFirst {s : State} (h : Listening s) (half : Half) (n : Nibble) (m : Mode) (bl : Bool)
    {e : ErrorValue} (he : nextReply s 0 = .err e) :
    (pulse half (frame s.params.layout n m bl) s).answer.controller = s.controller := by
  rw [pulse_fails_first he]
  exact failedFirst_controller (s := setPhase (phaseWE half) s) h.valid n m bl e h.waited h.clear

/-- A SEND goes on to its low nibble when the high one was taken. -/
theorem send_of_first_pulse {b : Byte} {m : Mode} {s : State} (h0 : nextReply s 0 = .ok) (h1 : nextReply s 1 = .ok) :
    send b m s = (pulse .low (lowFrame s b m) (afterPulse .high (highFrame s b m) (acceptSend b m s))).answer := by
  have hp := pulse_ok (h := .high) (f := highFrame s b m) (s := acceptSend b m s) h0 h1
  have hr := ran_afterPulse .high (highFrame s b m) (acceptSend b m s)
  unfold send
  rw [← highFrame, hp, Called.andThen, hr.host.params, hr.bl]
  simp only [lowFrame, acceptSend_params, acceptSend_bl]

/-- A SEND is over when its first write fails. -/
theorem send_of_failed_first_write {b : Byte} {m : Mode} {s : State} {e : ErrorValue} (h : nextReply s 0 = .err e) :
    send b m s = (pulse .high (highFrame s b m) (acceptSend b m s)).answer := by
  have hp := pulse_fails_first (h := .high) (f := highFrame s b m) (s := acceptSend b m s) h
  unfold send
  rw [← highFrame, hp]
  rfl

section Pairing

variable {s : State} (h : Listening s)
include h

/-- A completed SEND leaves an aligned pairing aligned. -/
theorem Listening.send_nextHalf (b : Byte) (m : Mode) (hw : s.controller.width = .fourBit)
    (hf : s.controller.nextHalf = .first) (hr : RepliesOk s 4) : (send b m s).controller.nextHalf = .first := by
  have ha : Listening (acceptSend b m s) := ⟨h.valid, h.waited, h.clear⟩
  have hm := listening_afterPulse ha .high (highNibble b) m s.bl
  rw [send_of_first_pulse (hr 0) (hr 1), pulse_ok]
  · calc _ = (afterPulse .high (highFrame s b m) (acceptSend b m s)).controller.nextHalf.other :=
          hm.afterPulse_nextHalf .low (lowNibble b) m s.bl (ha.afterPulse_width .high _ m s.bl hw hf)
      _ = s.controller.nextHalf.other.other :=
          congrArg NibbleHalf.other (ha.afterPulse_nextHalf .high (highNibble b) m s.bl hw)
      _ = .first := by rw [hf]; rfl
  · exact (nextReply_afterPulse _ _ _ 0).trans (hr 2)
  · exact (nextReply_afterPulse _ _ _ 1).trans (hr 3)

/-- A SEND whose third write fails leaves the pairing shifted by one. -/
theorem Listening.send_failsThird_nextHalf (b : Byte) (m : Mode) (hw : s.controller.width = .fourBit) {e : ErrorValue}
    (hf : FailsAt s 2 e) : (send b m s).controller.nextHalf = s.controller.nextHalf.other := by
  have ha : Listening (acceptSend b m s) := ⟨h.valid, h.waited, h.clear⟩
  have hm := listening_afterPulse ha .high (highNibble b) m s.bl
  have he : nextReply (afterPulse .high (highFrame s b m) (acceptSend b m s)) 0 = .err e :=
    (nextReply_afterPulse _ _ _ 0).trans hf.2
  rw [send_of_first_pulse (hf.1 0) (hf.1 1)]
  exact (congrArg Controller.nextHalf (hm.pulse_failsFirst .low (lowNibble b) m s.bl he)).trans
    (ha.afterPulse_nextHalf .high (highNibble b) m s.bl hw)

/-- A completed NIB leaves the pairing shifted by one. -/
theorem Listening.sendNibble_nextHalf (n : Nibble) (hw : s.controller.width = .fourBit) (hr : RepliesOk s 2) :
    (sendNibble n s).controller.nextHalf = s.controller.nextHalf.other := by
  have ha : Listening (acceptNib n s) := ⟨h.valid, h.waited, h.clear⟩
  rw [sendNibble, pulse_ok (s := acceptNib n s) (hr 0) (hr 1)]
  exact ha.afterPulse_nextHalf .high n .command s.bl hw

/-- A SEND whose first write fails leaves the controller as it was. -/
theorem Listening.send_failsFirst (b : Byte) (m : Mode) {e : ErrorValue} (hf : FailsAt s 0 e) :
    (send b m s).controller = s.controller := by
  have ha : Listening (acceptSend b m s) := ⟨h.valid, h.waited, h.clear⟩
  rw [send_of_failed_first_write hf.2]
  exact ha.pulse_failsFirst .high (highNibble b) m s.bl hf.2

/-- A NIB whose first write fails leaves the controller as it was. -/
theorem Listening.sendNibble_failsFirst (n : Nibble) {e : ErrorValue} (hf : FailsAt s 0 e) :
    (sendNibble n s).controller = s.controller := by
  have ha : Listening (acceptNib n s) := ⟨h.valid, h.waited, h.clear⟩
  exact ha.pulse_failsFirst .high n .command s.bl hf.2

end Pairing

/-- Settles O26: the stream from the events of each operation, the pairing from what each pulse gives the controller. -/
theorem nibbleStreamOfASend : Obligations.NibbleStreamOfASend := by
  refine ⟨fun i m b s t (hi : IsSend i m b) hp v ht ha => ?_,
    fun i m b n s (hi : IsSend i m b) hp v hwaited hclear hw => ?_⟩
  · rw [hi.exec_eq hp] at ht
    cases ht
    refine ⟨?_, by simp [receivedBytes, highNibble_append_lowNibble]⟩
    rw [(send_done_of_answer_ok ha).nibbleStream_eq, nibbleStream_sendEvents v]
  · have hl : Listening s := ⟨v, hwaited, hclear⟩
    have hsend := hi.exec_eq hp
    have hnib : exec (.nib n) s = .next (sendNibble n s) := exec_idle _ hp
    refine ⟨fun hr hf => ⟨_, hsend, hl.send_nextHalf b m hw hf hr⟩,
      fun e he => ⟨_, hsend, hl.send_failsThird_nextHalf b m hw he, ?_⟩,
      fun hr => ⟨_, hnib, hl.sendNibble_nextHalf n hw hr, ?_⟩,
      fun e he => ⟨⟨_, hsend, hl.send_failsFirst b m he⟩, _, hnib, hl.sendNibble_failsFirst n he⟩⟩
    · rw [(send_done_of_failsAt_third he).nibbleStream_eq, nibbleStream_failedSendEvents_third v]
    · have hd : Done s (sendNibble n s) _ _ .ok := bodyOf_done_of_repliesOk (i := .nib n) hp hr
      rw [hd.nibbleStream_eq]
      exact nibbleStream_pulseEvents v n .command s.bl s.trace

end Sys2Proof.Machine

/-! The command word: the decoder read field by field, decoding and encoding as inverses, and the rows of the opcode map. -/

namespace Sys2Proof

/-! ### The command word as a number -/

/-- A field of the word is a digit of the number the word stands for. -/
theorem extractLsb'_eq_iff (w : Word) (start len : Nat) (x : BitVec len) :
    w.extractLsb' start len = x ↔ w.toNat / 2 ^ start % 2 ^ len = x.toNat := by
  rw [← BitVec.toNat_inj, BitVec.extractLsb'_toNat, Nat.shiftRight_eq_div_pow]

/-- OR'ing an operand below the fixed bits `2 ^ k * c` adds it. -/
theorem toNat_or_operand {k : Nat} (c : Nat) (x : BitVec k) (hk : k ≤ 16) (hc : 2 ^ k * c < 2 ^ 16) :
    (BitVec.ofNat 16 (2 ^ k * c) ||| x.setWidth 16).toNat = 2 ^ k * c + x.toNat := by
  rw [BitVec.toNat_or, BitVec.toNat_ofNat, Nat.mod_eq_of_lt hc, BitVec.toNat_setWidth_of_le hk,
    Nat.two_pow_add_eq_or_of_lt x.isLt]

/-- The number each operation's command word stands for: its fixed bits (R56) and its operand (R51). -/
theorem toNat_encode_sendC (b : Byte) : (encode (.sendC b)).toNat = 0x1000 + b.toNat :=
  toNat_or_operand 0x10 b (by decide) (by decide)

theorem toNat_encode_sendD (b : Byte) : (encode (.sendD b)).toNat = 0x1100 + b.toNat :=
  toNat_or_operand 0x11 b (by decide) (by decide)

theorem toNat_encode_nib (n : Nibble) : (encode (.nib n)).toNat = 0x2000 + n.toNat :=
  toNat_or_operand 0x200 n (by decide) (by decide)

theorem toNat_encode_setbl (f : Bool) : (encode (.setbl f)).toNat = 0x3000 + f.toNat := by
  rw [← BitVec.toNat_ofBool]
  exact toNat_or_operand 0x1800 (BitVec.ofBool f) (by decide) (by decide)

theorem toNat_encode_wait (d : WaitCount) : (encode (.wait d)).toNat = 0x4000 + d.toNat :=
  toNat_or_operand 0x4 d (by decide) (by decide)

/-! ### The cases of the decoder -/

/-- The major opcode is that of one of the four formats, or reserved. -/
theorem opcodeField_cases (w : Word) : opcodeField w = 1#4 ∨ opcodeField w = 2#4 ∨ opcodeField w = 3#4 ∨
    opcodeField w = 4#4 ∨ (opcodeField w = 0#4 ∨ 5#4 ≤ opcodeField w) := by
  generalize opcodeField w = op
  revert op
  decide

/-- What the decoder reads from a word, one case for each row of the opcode map (R56) and each reserved range (R57), with the
fields that tell. -/
inductive Reading (w : Word) : Decoded → Prop
  | sendC (b : Byte) (op : opcodeField w = 1#4) (zero : w.extractLsb' 9 3 = 0#3) (m : w.extractLsb' 8 1 ≠ 1#1)
      (operand : w.extractLsb' 0 8 = b) : Reading w (.instr (.sendC b))
  | sendD (b : Byte) (op : opcodeField w = 1#4) (zero : w.extractLsb' 9 3 = 0#3) (m : w.extractLsb' 8 1 = 1#1)
      (operand : w.extractLsb' 0 8 = b) : Reading w (.instr (.sendD b))
  | nib (n : Nibble) (op : opcodeField w = 2#4) (zero : w.extractLsb' 4 8 = 0#8)
      (operand : w.extractLsb' 0 4 = n) : Reading w (.instr (.nib n))
  | setbl (f : Bool) (op : opcodeField w = 3#4) (zero : w.extractLsb' 1 11 = 0#11)
      (operand : decide (w.extractLsb' 0 1 = 1#1) = f) : Reading w (.instr (.setbl f))
  | wait (d : WaitCount) (op : opcodeField w = 4#4) (operand : w.extractLsb' 0 12 = d) : Reading w (.instr (.wait d))
  | formatB (op : opcodeField w = 1#4) (nonzero : w.extractLsb' 9 3 ≠ 0#3) : Reading w (.reserved .formatB)
  | formatN (op : opcodeField w = 2#4) (nonzero : w.extractLsb' 4 8 ≠ 0#8) : Reading w (.reserved .formatN)
  | formatF (op : opcodeField w = 3#4) (nonzero : w.extractLsb' 1 11 ≠ 0#11) : Reading w (.reserved .formatF)
  | opcode (op : opcodeField w = 0#4 ∨ 5#4 ≤ opcodeField w) : Reading w (.reserved .opcode)

/-- A major opcode of no format is none of the four the decoder asks for. -/
theorem opcodeField_ne_of_reserved {w : Word} (h : opcodeField w = 0#4 ∨ 5#4 ≤ opcodeField w) :
    opcodeField w ≠ 1#4 ∧ opcodeField w ≠ 2#4 ∧ opcodeField w ≠ 3#4 ∧ opcodeField w ≠ 4#4 := by
  generalize opcodeField w = op at h ⊢
  revert op
  decide

/-- The fields decide what the decoder reads. -/
theorem Reading.decode_eq {w : Word} {d : Decoded} (h : Reading w d) : decode w = d := by
  cases h with
  | sendC b op zero m operand => simp [decode, op, decodeB, zero, m, operand]
  | sendD b op zero m operand => simp [decode, op, decodeB, zero, m, operand]
  | nib n op zero operand => simp [decode, op, decodeN, zero, operand]
  | setbl f op zero operand => simp [decode, op, decodeF, zero, operand]
  | wait d op operand => simp [decode, op, decodeW, operand]
  | formatB op nonzero => simp [decode, op, decodeB, nonzero]
  | formatN op nonzero => simp [decode, op, decodeN, nonzero]
  | formatF op nonzero => simp [decode, op, decodeF, nonzero]
  | opcode op =>
    obtain ⟨h1, h2, h3, h4⟩ := opcodeField_ne_of_reserved op
    simp [decode, h1, h2, h3, h4]

/-- Every word has its reading. -/
theorem exists_reading (w : Word) : ∃ d, Reading w d := by
  rcases opcodeField_cases w with op | op | op | op | op
  · by_cases zero : w.extractLsb' 9 3 = 0#3
    · by_cases m : w.extractLsb' 8 1 = 1#1
      · exact ⟨_, .sendD _ op zero m rfl⟩
      · exact ⟨_, .sendC _ op zero m rfl⟩
    · exact ⟨_, .formatB op zero⟩
  · by_cases zero : w.extractLsb' 4 8 = 0#8
    · exact ⟨_, .nib _ op zero rfl⟩
    · exact ⟨_, .formatN op zero⟩
  · by_cases zero : w.extractLsb' 1 11 = 0#11
    · exact ⟨_, .setbl _ op zero rfl⟩
    · exact ⟨_, .formatF op zero⟩
  · exact ⟨_, .wait _ op rfl⟩
  · exact ⟨_, .opcode op⟩

/-- The decoder says what the fields say. -/
theorem decode_eq_iff {w : Word} {d : Decoded} : decode w = d ↔ Reading w d := by
  refine ⟨fun h => ?_, Reading.decode_eq⟩
  obtain ⟨d', hr⟩ := exists_reading w
  rwa [← h, hr.decode_eq]

/-! ### Decoding and encoding are inverse -/

/-- The command word of an operation has the operation's fields. -/
theorem reading_encode (i : Instr) : Reading (encode i) (.instr i) := by
  cases i with
  | sendC b =>
    have hw := toNat_encode_sendC b
    have hb := b.isLt
    constructor <;> simp only [opcodeField, extractLsb'_eq_iff, BitVec.toNat_ofNat, ne_eq] <;> omega
  | sendD b =>
    have hw := toNat_encode_sendD b
    have hb := b.isLt
    constructor <;> simp only [opcodeField, extractLsb'_eq_iff, BitVec.toNat_ofNat] <;> omega
  | nib n =>
    have hw := toNat_encode_nib n
    have hn := n.isLt
    constructor <;> simp only [opcodeField, extractLsb'_eq_iff, BitVec.toNat_ofNat] <;> omega
  | setbl f => cases f <;> constructor <;> decide
  | wait d =>
    have hw := toNat_encode_wait d
    have hd := d.isLt
    constructor <;> simp only [opcodeField, extractLsb'_eq_iff, BitVec.toNat_ofNat] <;> omega

/-- A word with an operation's fields is its command word. -/
theorem Reading.encode_eq {w : Word} {i : Instr} (h : Reading w (.instr i)) : encode i = w := by
  have hlt := w.isLt
  apply BitVec.eq_of_toNat_eq
  cases h with
  | sendC b op zero m operand =>
    simp only [opcodeField, extractLsb'_eq_iff, BitVec.toNat_ofNat, ne_eq] at op zero m operand
    rw [toNat_encode_sendC]
    omega
  | sendD b op zero m operand =>
    simp only [opcodeField, extractLsb'_eq_iff, BitVec.toNat_ofNat] at op zero m operand
    rw [toNat_encode_sendD]
    omega
  | nib n op zero operand =>
    simp only [opcodeField, extractLsb'_eq_iff, BitVec.toNat_ofNat] at op zero operand
    rw [toNat_encode_nib]
    omega
  | setbl f op zero operand =>
    simp only [opcodeField, extractLsb'_eq_iff, BitVec.toNat_ofNat] at op zero operand
    rw [toNat_encode_setbl]
    cases f <;> simp at operand ⊢ <;> omega
  | wait d op operand =>
    simp only [opcodeField, extractLsb'_eq_iff, BitVec.toNat_ofNat] at op operand
    rw [toNat_encode_wait]
    omega

/-- The decoder reads an operation from its command word and from no other word. -/
theorem decode_eq_instr_iff {w : Word} {i : Instr} : decode w = .instr i ↔ encode i = w := by
  refine ⟨fun h => (decode_eq_iff.1 h).encode_eq, ?_⟩
  rintro rfl
  exact (reading_encode i).decode_eq

/-- Settles O2, by the fields of the command word. -/
theorem decodeOfEncode : Obligations.DecodeOfEncode := fun _ _ => decode_eq_instr_iff.2 rfl

/-- Settles O3: the fields fix every bit of the word. -/
theorem encodeOfDecode : Obligations.EncodeOfDecode := fun _ _ => decode_eq_instr_iff.1

/-! ### The rows of the opcode map -/

/-- An operation's command word selects its own row and no other. -/
theorem rows_selecting_encode (i : Instr) : opcodeMap.filter (fun r => r.selects (encode i)) = [opcodeRowOf i] := by
  cases i with
  | sendC b => exact (Laws.OwnRow.sendC b).2
  | sendD b => exact (Laws.OwnRow.sendD b).2
  | nib n => exact (Laws.OwnRow.nib n).2
  | setbl f => exact (Laws.OwnRow.setbl f).2
  | wait d => exact (Laws.OwnRow.wait d).2

/-- A word whose bits from `k` on are a row's fixed bits is those bits with its own low bits as the operand. -/
theorem fixed_or_operand {w mask p : Word} (k : Nat) (hm : ∀ j : Fin 16, mask.getLsbD j = decide (k ≤ j))
    (h : w &&& mask = p) : p ||| (w.extractLsb' 0 k).setWidth 16 = w := by
  subst h
  apply BitVec.eq_of_getLsbD_eq
  intro j hj
  have hmask : mask.getLsbD j = decide (k ≤ j) := hm ⟨j, hj⟩
  rw [BitVec.getLsbD_or, BitVec.getLsbD_and, hmask]
  by_cases hjk : k ≤ j
  · simp [hjk]
  · simp [hjk, hj, Nat.lt_of_not_le hjk]

/-- A word that selects a row of the opcode map is the command word of an operation. -/
theorem exists_encode_of_selects {w : Word} {r : OpcodeRow} (hr : r ∈ opcodeMap) (h : r.selects w = true) :
    ∃ i, encode i = w := by
  have hw : w &&& r.mask = r.pattern := of_decide_eq_true h
  simp only [opcodeMap, List.mem_cons, List.not_mem_nil, or_false] at hr
  rcases hr with rfl | rfl | rfl | rfl | rfl
  · exact ⟨.sendC _, fixed_or_operand 8 (by decide) hw⟩
  · exact ⟨.sendD _, fixed_or_operand 8 (by decide) hw⟩
  · exact ⟨.nib _, fixed_or_operand 4 (by decide) hw⟩
  · refine ⟨.setbl (w.extractLsb' 0 1 = 1#1), ?_⟩
    have hbit : BitVec.ofBool (w.extractLsb' 0 1 = 1#1) = w.extractLsb' 0 1 := by
      generalize w.extractLsb' 0 1 = x
      revert x
      decide
    rw [encode, hbit]
    exact fixed_or_operand 1 (by decide) hw
  · exact ⟨.wait _, fixed_or_operand 12 (by decide) hw⟩

/-- A reserved word selects no row. -/
theorem rows_selecting_reserved {w : Word} {why : Reserved} (h : decode w = .reserved why) :
    opcodeMap.filter (fun r => r.selects w) = [] := by
  rw [List.filter_eq_nil_iff]
  intro r hr hs
  obtain ⟨i, hi⟩ := exists_encode_of_selects hr hs
  rw [decode_eq_instr_iff.2 hi] at h
  cases h

/-- Settles O4: a word that selects a row is a command word, and a command word selects its own row alone. -/
theorem exactlyOneRowMatchesOrReserved : Obligations.ExactlyOneRowMatchesOrReserved := by
  intro w
  cases hd : decode w with
  | instr i =>
    obtain rfl := decode_eq_instr_iff.1 hd
    exact .inl ⟨i, rfl, rows_selecting_encode i⟩
  | reserved why => exact .inr ⟨why, rfl, rows_selecting_reserved hd⟩

/-! ### The reserved words -/

/-- The reserved words are those that select no row. -/
theorem decode_reserved_iff (w : Word) :
    (∃ why, decode w = .reserved why) ↔ opcodeMap.filter (fun r => r.selects w) = [] := by
  refine ⟨fun ⟨_, h⟩ => rows_selecting_reserved h, fun h => ?_⟩
  rcases exactlyOneRowMatchesOrReserved w with ⟨i, _, hrows⟩ | ⟨why, hd, _⟩
  · simp [h] at hrows
  · exact ⟨why, hd⟩

/-- Settles O5: each reserved range is one case of the reading, and the step refuses a word of any of them. -/
theorem reservedWordsAreRefused : Obligations.ReservedWordsAreRefused := by
  refine ⟨decode_reserved_iff, fun w => ?_, fun w => ?_, fun w => ?_, fun w => ?_,
    fun _ _ _ _ => Machine.step_offers_reserved⟩ <;> rw [decode_eq_iff]
  · exact ⟨fun | .opcode op => op, .opcode⟩
  · exact ⟨fun | .formatB op nonzero => ⟨op, nonzero⟩, fun ⟨op, nonzero⟩ => .formatB op nonzero⟩
  · exact ⟨fun | .formatN op nonzero => ⟨op, nonzero⟩, fun ⟨op, nonzero⟩ => .formatN op nonzero⟩
  · exact ⟨fun | .formatF op nonzero => ⟨op, nonzero⟩, fun ⟨op, nonzero⟩ => .formatF op nonzero⟩

/-! ### The operands -/

theorem extractLsb'_one_eq_iff (w : Word) (k : Nat) : w.extractLsb' k 1 = 1#1 ↔ w.getLsbD k = true := by
  rw [extractLsb'_eq_iff, BitVec.getLsbD, Nat.testBit_eq_decide_div_mod_eq, decide_eq_true_iff]
  rfl

/-- A WAIT asks for as many milliseconds as the low twelve bits of its word say. -/
theorem toNat_wait_operand {w : Word} {d : WaitCount} (h : decode w = .instr (.wait d)) : d.toNat = w.toNat % 4096 := by
  cases decode_eq_iff.1 h with
  | wait _ _ operand => simpa using ((extractLsb'_eq_iff w 0 12 d).1 operand).symm

/-- Settles O6: each reading names its operand's field. -/
theorem operandsAreTheWordsFields : Obligations.OperandsAreTheWordsFields := by
  refine ⟨fun w b h => ?_, fun w b h => ?_, fun w n h => ?_, fun w f h => ?_, fun w d h => ?_, fun w d s h hp => ?_⟩
  · cases decode_eq_iff.1 h with
    | sendC _ _ _ m operand => exact ⟨operand.symm, by simpa [extractLsb'_one_eq_iff] using m⟩
  · cases decode_eq_iff.1 h with
    | sendD _ _ _ m operand => exact ⟨operand.symm, (extractLsb'_one_eq_iff w 8).1 m⟩
  · cases decode_eq_iff.1 h with
    | nib _ _ _ operand => exact operand.symm
  · cases decode_eq_iff.1 h with
    | setbl _ _ _ operand => simpa [extractLsb'_one_eq_iff] using operand.symm
  · cases decode_eq_iff.1 h with
    | wait _ _ operand => exact operand.symm
  · refine ⟨_, Machine.exec_idle (.wait d) hp, ?_⟩
    rw [← toNat_wait_operand h]
    exact (Machine.waitMs_done d s).2.1.trace

/-- Settles O1: the nine words are closed terms. -/
theorem writtenOutWordsDecode : Obligations.WrittenOutWordsDecode := by
  unfold Obligations.WrittenOutWordsDecode
  decide

end Sys2Proof

/-! The output byte: the parts of a frame, and the frames an operation writes. -/

namespace Sys2Proof.Machine

/-! ### The parts of a frame -/

theorem modeBits_eq_ite (L : Layout) (m : Mode) : modeBits L m = if m = .data then L.rsMask else 0#8 := by
  cases m <;> rfl

/-- At the table's layout the backlight bit is bit 3. -/
theorem backlightBits_tableLayout (bl : Bool) : backlightBits tableLayout bl = (BitVec.ofBool bl).setWidth 8 <<< 3 := by
  cases bl <;> rfl

/-- Settles O7: the parts of each of the 256 bytes. -/
theorem nibblesSplitAndPlaced : Obligations.NibblesSplitAndPlaced := by
  have placed : ∀ b : Byte, placeNibble tableLayout (highNibble b) = b &&& 0xF0#8 ∧
      placeNibble tableLayout (lowNibble b) = (b <<< 4) &&& 0xF0#8 := by decide
  exact fun b => ⟨highNibble_append_lowNibble b, placed b⟩

/-- Setting enable touches no other bit. -/
theorem withEnable_and {L : Layout} (f : Byte) {x : Byte} (h : L.enMask &&& x = 0#8) : withEnable L f &&& x = f &&& x := by
  simp [withEnable, or_and_byte, h]

section Valid

variable {L : Layout} (v : L.Valid)
include v

/-- Setting the enable bit of a frame adds its mask. -/
theorem withEnable_frame_eq_add (n : Nibble) (m : Mode) (bl : Bool) :
    withEnable L (frame L n m bl) = frame L n m bl + L.enMask :=
  (BitVec.add_eq_or_of_and_eq_zero _ _ (frame_and_enMask v n m bl)).symm

/-- The backlight line of a frame tells the backlight flag. -/
theorem frame_and_blMask_ne_zero_iff (n : Nibble) (m : Mode) (bl : Bool) :
    frame L n m bl &&& L.blMask ≠ 0#8 ↔ bl = true := by
  have hbl : L.blMask ≠ 0#8 := v.2.2.2.1.1
  simp [frame_and_blMask v, hbl]

/-- The mode line of a frame tells the mode. -/
theorem frame_and_rsMask_ne_zero_iff (n : Nibble) (m : Mode) (bl : Bool) :
    frame L n m bl &&& L.rsMask ≠ 0#8 ↔ m = .data := by
  have hrs : L.rsMask ≠ 0#8 := v.2.2.1.1
  simp [frame_and_rsMask v, hrs]

/-- A frame determines its three parts. -/
theorem frame_injective {n n' : Nibble} {m m' : Mode} {bl bl' : Bool} (h : frame L n m bl = frame L n' m' bl') :
    n = n' ∧ m = m' ∧ bl = bl' := by
  have hn := congrArg (nibbleOf L) h
  have hm := congrArg (modeOf L) h
  rw [nibbleOf_frame v, nibbleOf_frame v] at hn
  rw [modeOf_frame v, modeOf_frame v] at hm
  refine ⟨hn, hm, Bool.eq_iff_iff.2 ?_⟩
  rw [← frame_and_blMask_ne_zero_iff v n m, h, frame_and_blMask_ne_zero_iff v]

/-- A frame with enable set determines its three parts: clear the enable bit. -/
theorem withEnable_frame_injective {n n' : Nibble} {m m' : Mode} {bl bl' : Bool}
    (h : withEnable L (frame L n m bl) = withEnable L (frame L n' m' bl')) : n = n' ∧ m = m' ∧ bl = bl' := by
  have hf := congrArg (· &&& ~~~L.enMask) h
  simp only [withEnable_and_not_enMask v] at hf
  exact frame_injective v hf

/-- No frame has enable set. -/
theorem frame_ne_withEnable (n n' : Nibble) (m m' : Mode) (bl bl' : Bool) :
    frame L n m bl ≠ withEnable L (frame L n' m' bl') := by
  intro h
  have he := congrArg (enableSet L) h
  rw [enableSet_frame v, enableSet_withEnable v] at he
  cases he

end Valid

/-- Settles O8: the disjointness of the masks, and at the table's layout the parts in R52's order. -/
theorem frameComposition : Obligations.FrameComposition := by
  refine ⟨fun L v n m bl => ⟨?_, frame_and_enMask v n m bl, frame_and_rwMask v n m bl, withEnable_and_not_enMask v n m bl,
    withEnable_xor_frame v n m bl⟩, fun n m bl => ⟨?_, withEnable_frame_eq_add (by decide) n m bl⟩⟩
  · rw [frame, modeBits_eq_ite]
    rfl
  · rw [frame, modeBits_eq_ite, backlightBits_tableLayout, BitVec.or_assoc, BitVec.or_comm (ite _ _ _), ← BitVec.or_assoc]
    rfl

/-- Settles O9: the lines of a frame tell its parts, and the enable line tells the two kinds of byte apart. -/
theorem framesAreDistinct : Obligations.FramesAreDistinct := fun _ v n n' m m' bl bl' =>
  ⟨frame_injective v, withEnable_frame_injective v, frame_ne_withEnable v n n' m m' bl bl'⟩

/-! ### The bus writes of an operation -/

/-- The mode an operation sends its nibbles with (R54, R90, R92). -/
def modeSent : Instr → Mode
  | .sendD _ => .data
  | .sendC _ | .nib _ | .setbl _ | .wait _ => .command

theorem modeSent_eq_data_iff (i : Instr) : modeSent i = .data ↔ ∃ b, i = .sendD b := by
  cases i <;> simp [modeSent]

/-- Every bus write among the events goes to `ADDR` and carries a frame of this mode and the backlight register, with enable
set or clear. -/
def WritesFrames (s : State) (m : Mode) (evs : List Event) : Prop :=
  ∀ a v r, Event.write a v r ∈ evs → a = s.addr ∧
    ∃ n, v = frame s.params.layout n m s.bl ∨ v = withEnable s.params.layout (frame s.params.layout n m s.bl)

theorem writesFrames_append {s : State} {m : Mode} {evs evs' : List Event} (h : WritesFrames s m evs)
    (h' : WritesFrames s m evs') : WritesFrames s m (evs ++ evs') :=
  fun a v r hw => (List.mem_append.1 hw).elim (h a v r) (h' a v r)

theorem writesFrames_pulseEvents (s : State) (n : Nibble) (m : Mode) :
    WritesFrames s m (pulseEvents s (frame s.params.layout n m s.bl)) := by
  intro a v r hw
  simp only [pulseEvents, List.mem_cons, List.not_mem_nil, Event.write.injEq, reduceCtorEq, or_false, false_or] at hw
  rcases hw with ⟨rfl, rfl, -⟩ | ⟨rfl, rfl, -⟩
  · exact ⟨rfl, n, .inr rfl⟩
  · exact ⟨rfl, n, .inl rfl⟩

theorem writesFrames_failedPulseEvents (s : State) (n : Nibble) (m : Mode) (second : Bool) (e : ErrorValue) :
    WritesFrames s m (failedPulseEvents s (frame s.params.layout n m s.bl) second e) := by
  intro a v r hw
  cases second with
  | false =>
    simp only [failedPulseEvents, Bool.false_eq_true, if_false, List.mem_singleton, Event.write.injEq] at hw
    obtain ⟨rfl, rfl, -⟩ := hw
    exact ⟨rfl, n, .inr rfl⟩
  | true =>
    simp only [failedPulseEvents, if_true, List.mem_cons, List.not_mem_nil, Event.write.injEq, reduceCtorEq, or_false,
      false_or] at hw
    rcases hw with ⟨rfl, rfl, -⟩ | ⟨rfl, rfl, -⟩
    · exact ⟨rfl, n, .inr rfl⟩
    · exact ⟨rfl, n, .inl rfl⟩

theorem writesFrames_sendEvents (s : State) (b : Byte) (m : Mode) : WritesFrames s m (sendEvents s b m) :=
  writesFrames_append (writesFrames_pulseEvents s _ m) (writesFrames_pulseEvents s _ m)

theorem writesFrames_failedSendEvents (s : State) (b : Byte) (m : Mode) (k : Fin 4) (e : ErrorValue) :
    WritesFrames s m (failedSendEvents s b m k e) := by
  match k with
  | 0 | 1 => exact writesFrames_failedPulseEvents s _ m _ e
  | 2 | 3 => exact writesFrames_append (writesFrames_pulseEvents s _ m) (writesFrames_failedPulseEvents s _ m _ e)

theorem writesFrames_okEvents (i : Instr) (s : State) : WritesFrames s (modeSent i) (okEvents i s) := by
  cases i with
  | sendC b | sendD b => exact writesFrames_sendEvents s b _
  | nib n => exact writesFrames_pulseEvents s n _
  | setbl f => simp [WritesFrames, okEvents]
  | wait d => simp [WritesFrames, okEvents]

theorem writesFrames_failedEvents (i : Instr) (s : State) (k : Nat) (e : ErrorValue) :
    WritesFrames s (modeSent i) (failedEvents i s k e) := by
  cases i with
  | sendC b | sendD b => exact writesFrames_failedSendEvents s b _ _ e
  | nib n => exact writesFrames_failedPulseEvents s n _ _ e
  | setbl f => simp [WritesFrames, failedEvents]
  | wait d => simp [WritesFrames, failedEvents]

/-- All that an operation of an idle block writes are frames of its mode. -/
theorem bodyOf_writesFrames (i : Instr) {s : State} (h : s.phase = .idle) :
    ∃ evs, (bodyOf i s).trace = s.trace ++ evs ∧ WritesFrames s (modeSent i) evs := by
  rcases (bodyOf_done i h).2 with ⟨_, hd⟩ | ⟨k, e, _, _, hd⟩
  · exact ⟨_, hd.trace, writesFrames_okEvents i s⟩
  · exact ⟨_, hd.trace, writesFrames_failedEvents i s k e⟩

/-- A frame, with enable set or clear, reads RW clear, the backlight flag and the mode. -/
theorem masks_of_frame {L : Layout} (v : L.Valid) {n : Nibble} {m : Mode} {bl : Bool} {x : Byte}
    (h : x = frame L n m bl ∨ x = withEnable L (frame L n m bl)) :
    x &&& L.rwMask = 0#8 ∧ (x &&& L.blMask ≠ 0#8 ↔ bl = true) ∧ (x &&& L.rsMask ≠ 0#8 ↔ m = .data) := by
  have ⟨_, e, r, b, w, er, eb, ew, _⟩ := v
  have same (y : Byte) (hy : L.enMask &&& y = 0#8) : x &&& y = frame L n m bl &&& y := by
    rcases h with rfl | rfl
    · rfl
    · exact withEnable_and _ hy
  rw [same _ (singleBit_disjoint _ _ e w ew), same _ (singleBit_disjoint _ _ e b eb),
    same _ (singleBit_disjoint _ _ e r er)]
  exact ⟨frame_and_rwMask v n m bl, frame_and_blMask_ne_zero_iff v n m bl, frame_and_rsMask_ne_zero_iff v n m bl⟩

/-- Settles O10: every byte written is a frame of the operation's mode, and its lines are read by their masks. -/
theorem everyWriteCarriesTheFlags : Obligations.EveryWriteCarriesTheFlags := by
  intro i s t hp v ht
  rw [exec_idle i hp] at ht
  cases ht
  obtain ⟨evs, htrace, hframes⟩ := bodyOf_writesFrames i hp
  refine ⟨evs, htrace, fun a x r hw => ?_⟩
  obtain ⟨ha, n, hx⟩ := hframes a x r hw
  rw [← modeSent_eq_data_iff]
  exact ⟨ha, masks_of_frame v hx⟩

end Sys2Proof.Machine

/-! The bus write, the bytes that every step puts on the bus, and the error value that is copied from the reply. -/

namespace Sys2Proof.Machine

/-! ### Every step keeps the trace framed -/

/-- Both bytes of a half's pulse are ones the block may put on the lines. -/
theorem isFrameByte_latchedFrame (h : Half) (s : State) :
    IsFrameByte s.params.layout (latchedFrame h s) ∧
    IsFrameByte s.params.layout (withEnable s.params.layout (latchedFrame h s)) := by
  cases h <;> exact ⟨⟨_, _, _, .inl rfl⟩, ⟨_, _, _, .inr rfl⟩⟩

theorem WriteRow.isFrameByte {s : State} {v : Byte} {after : Phase} (h : WriteRow s v after) :
    IsFrameByte s.params.layout v := by
  rcases h with ⟨_, rfl, _⟩ | ⟨_, rfl, _⟩ | ⟨_, rfl, _⟩ | ⟨_, rfl, _⟩
  · exact (isFrameByte_latchedFrame .high s).2
  · exact (isFrameByte_latchedFrame .high s).1
  · exact (isFrameByte_latchedFrame .low s).2
  · exact (isFrameByte_latchedFrame .low s).1

/-- A stretch whose own bus writes go to `ADDR` and carry frames keeps the trace framed. -/
theorem TraceFramed.append {s t : State} {evs : List Event} (h : TraceFramed s) (ha : t.addr = s.addr)
    (hp : t.params = s.params) (ht : t.trace = s.trace ++ evs)
    (he : ∀ a v r, Event.write a v r ∈ evs → a = s.addr ∧ IsFrameByte s.params.layout v) : TraceFramed t := by
  intro a v r hw
  rw [ha, hp]
  rw [ht] at hw
  exact (List.mem_append.1 hw).elim (h a v r) (he a v r)

/-- One more write, of a frame byte to `ADDR`. -/
theorem TraceFramed.append_write {s t : State} {v : Byte} {r : Reply} (h : TraceFramed s)
    (hv : IsFrameByte s.params.layout v) (ha : t.addr = s.addr) (hp : t.params = s.params)
    (ht : t.trace = s.trace ++ [.write s.addr v r]) : TraceFramed t := by
  refine h.append ha hp ht fun a w q hw => ?_
  obtain ⟨rfl, rfl, -⟩ := Event.write.inj (List.mem_singleton.1 hw)
  exact ⟨rfl, hv⟩

/-- One more delay. -/
theorem TraceFramed.append_delay {s t : State} {n : Nat} (h : TraceFramed s) (ha : t.addr = s.addr)
    (hp : t.params = s.params) (ht : t.trace = s.trace ++ [.delay n]) : TraceFramed t :=
  h.append ha hp ht fun _ _ _ hw => nomatch List.mem_singleton.1 hw

/-- Whether a trace is framed is told from `ADDR`, the layout and the trace. -/
theorem TraceFramed.congr {s t : State} (h : TraceFramed s) (ha : t.addr = s.addr) (hp : t.params = s.params)
    (ht : t.trace = s.trace) : TraceFramed t :=
  h.append (evs := []) ha hp (by rw [ht, List.append_nil]) fun _ _ _ hw => absurd hw List.not_mem_nil

theorem TraceFramed.takeAnswer {t : State} (h : TraceFramed t) : TraceFramed (takeAnswer t) :=
  h.congr (takeAnswer_addr t) (takeAnswer_params t) (takeAnswer_trace t)

theorem TraceFramed.afterAdvance {t : State} (h : TraceFramed t) : TraceFramed (afterAdvance t) := by
  unfold Machine.afterAdvance
  split
  · exact h.takeAnswer
  · exact h

/-- An operation of an idle block writes frames of its mode only. -/
theorem TraceFramed.bodyOf {s : State} (h : TraceFramed s) (hp : s.phase = .idle) (i : Instr) :
    TraceFramed (bodyOf i s) := by
  have host := bodyOf_host i hp
  obtain ⟨evs, ht, hframes⟩ := bodyOf_writesFrames i hp
  refine h.append host.addr host.params ht fun a v r hw => ?_
  obtain ⟨ha, n, hv⟩ := hframes a v r hw
  exact ⟨ha, n, modeSent i, s.bl, hv⟩

/-- A move of the host: a construction, which changes `ADDR`, empties the trace; an offered word adds the writes of its
operation; every other move makes no primitive call. -/
theorem TraceFramed.idleNext {s t : State} (h : TraceFramed s) (hs : IdleNext s t) : TraceFramed t := by
  cases hs with
  | offered w rest i ho =>
    have h' : TraceFramed { s with program := rest } := h
    exact (h'.bodyOf ho.1 i).takeAnswer
  | began o rest => exact h.congr (begun_addr o rest s) (begun_params o rest s) (begun_trace o rest s)
  | constructs => exact fun _ _ _ hw => absurd hw List.not_mem_nil
  | marked | finished | called | words | drops | waits => exact h

/-- A primitive call of the sequencer: a write row writes the frame byte of its half, answered `ok` or not. -/
theorem TraceFramed.advance {s : State} (h : TraceFramed s) (hb : s.phase ≠ .idle)
    (hn : ¬(s.phase = .hTS ∧ s.latches.opk = .wait)) : TraceFramed (advance s) := by
  cases busy_row hb hn with
  | writes v after hv row =>
    have hframe : IsFrameByte s.params.layout v := WriteRow.isFrameByte row
    rw [hv]
    rcases writeStep_cases v after s with ⟨_, hw⟩ | ⟨e, _, hw⟩ <;> rw [hw]
    · exact h.append_write hframe rfl rfl rfl
    · exact h.append_write hframe rfl rfl rfl
  | delays n after hv =>
    rw [hv]
    exact h.append_delay rfl rfl rfl
  | ends n hv =>
    rw [hv]
    exact h.append_delay rfl rfl rfl

/-- Settles O53: a move of the host by the operation it offers, a busy block by the row of its position. -/
theorem everyStepKeepsTheTraceFramed : Obligations.EveryStepKeepsTheTraceFramed := by
  intro s t h hs
  rcases step_next hs with ⟨_, hi⟩ | ⟨hb, hn, rfl⟩
  · exact h.idleNext hi
  · exact (h.advance hb hn).afterAdvance

/-! ### The error value is copied -/

/-- The state with every error value the environment will give renamed. -/
def renameEnv (f : ErrorValue → ErrorValue) (s : State) : State := { s with env := s.env.map (renameReply f) }

/-- A reply that is decided already is renamed. -/
theorem nextReply_renameEnv (f : ErrorValue → ErrorValue) {s : State} {k : Nat} (h : k < s.env.length) :
    nextReply (renameEnv f s) k = renameReply f (nextReply s k) := by
  simp [nextReply, renameEnv, h]

theorem RepliesOk.renameEnv {s : State} {n : Nat} (h : RepliesOk s n) (hn : n ≤ s.env.length)
    (f : ErrorValue → ErrorValue) : RepliesOk (renameEnv f s) n := by
  intro k
  rw [nextReply_renameEnv f (k.2.trans_le hn), h k]
  rfl

/-- The same write is the first to fail, with the error renamed. -/
theorem FailsAt.renameEnv {s : State} {k : Nat} {e : ErrorValue} (h : FailsAt s k e) (hk : k < s.env.length)
    (f : ErrorValue → ErrorValue) : FailsAt (renameEnv f s) k (f e) := by
  refine ⟨RepliesOk.renameEnv h.1 hk.le f, ?_⟩
  rw [nextReply_renameEnv f hk, h.2]
  rfl

section Events

variable (f : ErrorValue → ErrorValue) (s : State)

/-- A completed pulse has no error value to rename. -/
theorem map_renameEvent_pulseEvents (v : Byte) : (pulseEvents s v).map (renameEvent f) = pulseEvents s v := rfl

theorem map_renameEvent_failedPulseEvents (v : Byte) (second : Bool) (e : ErrorValue) :
    (failedPulseEvents s v second e).map (renameEvent f) = failedPulseEvents s v second (f e) := by
  cases second <;> rfl

theorem map_renameEvent_sendEvents (b : Byte) (m : Mode) :
    (sendEvents s b m).map (renameEvent f) = sendEvents s b m := by
  simp only [sendEvents, List.map_append, map_renameEvent_pulseEvents]

theorem map_renameEvent_failedSendEvents (b : Byte) (m : Mode) (k : Fin 4) (e : ErrorValue) :
    (failedSendEvents s b m k e).map (renameEvent f) = failedSendEvents s b m k (f e) := by
  match k with
  | 0 | 1 => exact map_renameEvent_failedPulseEvents f s _ _ e
  | 2 | 3 =>
    simp only [failedSendEvents, List.map_append, map_renameEvent_pulseEvents, map_renameEvent_failedPulseEvents]

/-- The events of an operation none of whose writes fails depend on no error value. -/
theorem okEvents_renameEnv (i : Instr) : okEvents i (renameEnv f s) = (okEvents i s).map (renameEvent f) := by
  cases i with
  | sendC b | sendD b => exact (map_renameEvent_sendEvents f s b _).symm
  | nib n => exact (map_renameEvent_pulseEvents f s _).symm
  | setbl | wait => rfl

/-- The events of a failed operation hold its error value and no other. -/
theorem failedEvents_renameEnv (i : Instr) (k : Nat) (e : ErrorValue) :
    failedEvents i (renameEnv f s) k (f e) = (failedEvents i s k e).map (renameEvent f) := by
  cases i with
  | sendC b | sendD b => exact (map_renameEvent_failedSendEvents f s b _ _ e).symm
  | nib n => exact (map_renameEvent_failedPulseEvents f s _ _ e).symm
  | setbl | wait => rfl

theorem blAfter_renameEnv (i : Instr) : blAfter i (renameEnv f s) = blAfter i s := by cases i <;> rfl

end Events

/-- An operation comes to the same with the errors of the environment renamed, but for the name of the error. -/
theorem bodyOf_done_renameEnv (f : ErrorValue → ErrorValue) (i : Instr) {s : State} (hp : s.phase = .idle)
    (hn : busWritesOf i ≤ s.env.length) :
    ∃ n evs r, Done s (bodyOf i s) n evs r ∧
      Done (renameEnv f s) (bodyOf i (renameEnv f s)) n (evs.map (renameEvent f)) (renameReply f r) := by
  have hp' : (renameEnv f s).phase = .idle := hp
  rcases (bodyOf_done i hp).2 with ⟨hr, hd⟩ | ⟨k, e, hk, hf, hd⟩
  · refine ⟨_, _, _, hd, ?_⟩
    rw [← okEvents_renameEnv]
    exact bodyOf_done_of_repliesOk hp' (RepliesOk.renameEnv hr hn f)
  · refine ⟨_, _, _, hd, ?_⟩
    rw [← failedEvents_renameEnv]
    exact bodyOf_done_of_failsAt hp' hk (hf.renameEnv (hk.trans_le hn) f)

/-- Settles O28: both runs fail at the same write or at none, and the error goes from the reply to the event and the
answer as it is. -/
theorem errorValueIsCopiedNotInspected : Obligations.ErrorValueIsCopiedNotInspected := by
  intro f i s t hp hn ht
  rw [exec_idle i hp] at ht
  cases ht
  have hp' : (renameEnv f s).phase = .idle := hp
  obtain ⟨n, evs, r, ds, du⟩ := bodyOf_done_renameEnv f i hp hn
  have hbl : (bodyOf i (renameEnv f s)).bl = (bodyOf i s).bl := by
    rw [(bodyOf_done i hp').1, (bodyOf_done i hp).1, blAfter_renameEnv]
  exact ⟨bodyOf i (renameEnv f s), evs, r, exec_idle i hp', ds.trace, du.trace, ds.answers, du.answers, hbl,
    du.phase.trans ds.phase.symm⟩

/-! ### The bus write -/

/-- Settles O11: by the environment's reply. -/
theorem busWriteAnswersAndRecords : Obligations.BusWriteAnswersAndRecords := by
  intro a v s
  constructor
  · intro h
    have ran := ran_afterWrite a v s
    exact ⟨_, busWrite_ok h, ran.trace, rfl, ran.host, ran.bl, rfl, rfl, ran.answers, ran.waited⟩
  · intro e h
    have ran := ran_afterFailedWrite a v e s
    exact ⟨_, busWrite_err h, ran.trace, ran.host, ran.bl, rfl, rfl, ran.answers, ran.waited⟩

end Sys2Proof.Machine

/-! The nibble transport: what each operation comes to, the backlight flag on its way to the line, and the operation that
waits while the block is busy. -/

namespace Sys2Proof.Machine

/-! ### An operation in progress runs to its answer -/

/-- How many primitive calls the operation in progress still makes at most, by its position (R13, R90). -/
def callsLeft : Phase → Nat
  | .idle => 0
  | .hWE => 8
  | .hTE => 7
  | .hWC => 6
  | .hTS => 5
  | .lWE => 4
  | .lTE => 3
  | .lWC => 2
  | .lTS | .wt => 1

theorem callsLeft_le_eight (ph : Phase) : callsLeft ph ≤ 8 := by cases ph <;> decide

theorem callsLeft_pos {ph : Phase} (h : ph ≠ .idle) : 0 < callsLeft ph := by
  cases ph with
  | idle => exact absurd rfl h
  | hWE | hTE | hWC | hTS | lWE | lTE | lWC | lTS | wt => decide

theorem WriteRow.callsLeft_lt {s : State} {v : Byte} {after : Phase} (h : WriteRow s v after) :
    callsLeft after < callsLeft s.phase := by
  rcases h with ⟨hp, _, rfl⟩ | ⟨hp, _, rfl⟩ | ⟨hp, _, rfl⟩ | ⟨hp, _, rfl⟩ <;> rw [hp] <;> decide

theorem DelayRow.callsLeft_lt {s : State} {n : Nat} {after : Phase} (h : DelayRow s n after) :
    callsLeft after < callsLeft s.phase := by
  rcases h with ⟨hp, _, rfl⟩ | ⟨hp, _, _, rfl⟩ | ⟨hp, _, rfl⟩ <;> rw [hp] <;> decide

theorem DelayRow.after_ne_idle {s : State} {n : Nat} {after : Phase} (h : DelayRow s n after) : after ≠ .idle := by
  rcases h with ⟨_, _, rfl⟩ | ⟨_, _, _, rfl⟩ | ⟨_, _, rfl⟩ <;> decide

/-- The block carried its operation to the end, with one answer. -/
def Ended (s t : State) : Prop := t.phase = .idle ∧ ∃ r, t.answers = s.answers ++ [r]

/-- What one primitive call does: an event, nothing of the host's list, and the operation in progress either goes on, not
answered yet and with fewer calls left, or has ended. -/
structure OneCall (s t : State) : Prop where
  trace : ∃ call, t.trace = s.trace ++ [call]
  program : t.program = s.program
  outcome : (t.phase ≠ .idle ∧ callsLeft t.phase < callsLeft s.phase ∧ t.answers = s.answers) ∨ Ended s t

/-- A busy block makes one primitive call at a time. -/
theorem advance_oneCall {s : State} (hb : s.phase ≠ .idle) (hn : ¬(s.phase = .hTS ∧ s.latches.opk = .wait)) :
    OneCall s (advance s) := by
  cases busy_row hb hn with
  | writes v after hv row =>
    rw [hv]
    rcases writeStep_cases v after s with ⟨_, hw⟩ | ⟨e, _, hw⟩ <;> rw [hw]
    · exact ⟨⟨_, rfl⟩, rfl, .inl ⟨WriteRow.after_ne_idle row, WriteRow.callsLeft_lt row, rfl⟩⟩
    · exact ⟨⟨_, rfl⟩, rfl, .inr ⟨rfl, _, rfl⟩⟩
  | delays n after hv row =>
    rw [hv]
    exact ⟨⟨_, rfl⟩, rfl, .inl ⟨DelayRow.after_ne_idle row, DelayRow.callsLeft_lt row, rfl⟩⟩
  | ends n hv =>
    rw [hv]
    exact ⟨⟨_, rfl⟩, rfl, .inr ⟨rfl, _, rfl⟩⟩

/-- As many primitive calls as are left at most carry the operation in progress to its end. -/
theorem Coherent.advanceN_ended {n : Nat} {s : State} (h : Coherent s) (hb : s.phase ≠ .idle)
    (hn : callsLeft s.phase ≤ n) : Ended s (advanceN n s) := by
  induction n generalizing s with
  | zero => exact absurd (callsLeft_pos hb) (Nat.not_lt.2 hn)
  | succ n ih =>
    show Ended s (advanceN n (Machine.advance s))
    rcases (advance_oneCall hb h.has_row).outcome with ⟨hb', hlt, ha⟩ | he
    · have hrest := ih (h.advance hb) hb' (by omega)
      rwa [Ended, ha] at hrest
    · rwa [advanceN_idle he.1]

theorem Coherent.runToIdle_ended {s : State} (h : Coherent s) (hb : s.phase ≠ .idle) : Ended s (runToIdle s) :=
  h.advanceN_ended hb (callsLeft_le_eight _)

/-- An operation offered to a busy block is carried out as if it were offered once that block has answered (R94). -/
theorem exec_runToIdle (i : Instr) {s : State} (h : (runToIdle s).phase = .idle) :
    exec i s = exec i (runToIdle s) := by
  have hoffer (f : State → State) : offer s f = offer (runToIdle s) f := by
    rw [offer_idle h, offer, h]
  cases i <;> exact hoffer _

@[simp] theorem afterAdvance_trace (t : State) : (afterAdvance t).trace = t.trace := by
  unfold afterAdvance; split <;> simp

@[simp] theorem afterAdvance_answers (t : State) : (afterAdvance t).answers = t.answers := by
  unfold afterAdvance; split <;> simp

/-- The host drops what its call still had to issue on an answer `err(e)`, and on no other (R141). -/
theorem takeAnswer_program {t : State} {l : List Reply} {r : Reply} (h : t.answers = l ++ [r]) :
    (takeAnswer t).program = t.program ∨ ((takeAnswer t).program = [] ∧ ∃ e, r = .err e) := by
  cases r with
  | ok => exact .inl (by rw [takeAnswer_ok h])
  | err e => exact .inr ⟨by rw [takeAnswer_err h, failCall_program], e, rfl⟩

/-- After a primitive call the host's list is as before, unless the call ended the operation with an error. -/
theorem OneCall.afterAdvance_program {s t : State} (h : OneCall s t) :
    (afterAdvance t).program = s.program ∨ ((afterAdvance t).program = [] ∧ ∃ e, t.answers = s.answers ++ [.err e]) := by
  rcases h.outcome with ⟨hb, _⟩ | ⟨hidle, r, ha⟩
  · exact .inl (by rw [afterAdvance_busy hb, h.program])
  · rw [afterAdvance_idle hidle, ha, ← h.program]
    rcases takeAnswer_program ha with hp | ⟨hp, e, rfl⟩
    · exact .inl hp
    · exact .inr ⟨hp, e, rfl⟩

/-- Settles O20: the operation in progress has eight primitive calls left at most, and a step makes one of them. -/
theorem offerWaitsWhileBusy : Obligations.OfferWaitsWhileBusy := by
  intro s hb h
  obtain ⟨hidle, answer⟩ := h.runToIdle_ended hb
  have one := advance_oneCall hb h.has_row
  obtain ⟨call, htrace⟩ := one.trace
  refine ⟨hidle, answer, fun i => exec_runToIdle i hidle, afterAdvance (advance s), call, step_busy hb h.has_row, ?_, ?_⟩
  · rw [afterAdvance_trace, htrace]
  · rw [afterAdvance_answers]
    exact one.afterAdvance_program

/-! ### The answer of an operation -/

/-- Settles O19. -/
theorem everyOperationIsAnsweredOnce : Obligations.EveryOperationIsAnsweredOnce := by
  intro i s h
  obtain ⟨r, hr⟩ := bodyOf_answers i h
  exact ⟨bodyOf i s, r, exec_idle i h, hr, bodyOf_phase i h⟩

/-- Settles O55: every move of the host leaves the block idle, an offered operation at its answer. -/
theorem idleStaysIdle : Obligations.IdleStaysIdle := fun _ _ hp hs => (idle_next hp hs).phase

/-! ### SETBL and WAIT -/

/-- Settles O17: an idle block carries out the body of the operation, which is that update. -/
theorem setblWritesTheFlagAlone : Obligations.SetblWritesTheFlagAlone := fun f _ h => exec_idle (.setbl f) h

/-- Settles O18. -/
theorem waitMakesOneDelayCall : Obligations.WaitMakesOneDelayCall := by
  intro d s h
  obtain ⟨bl, done, bus⟩ := waitMs_done d s
  exact ⟨waitMs d s, exec_idle (.wait d) h, done.trace, done.answers, done.phase, bl, done.host, bus, done.waited⟩

/-! ### SEND -/

theorem send_done_of_repliesOk {b : Byte} {m : Mode} {s : State} (hr : RepliesOk s 4) :
    Done s (send b m s) 4 (sendEvents s b m) .ok ∧ (send b m s).p = lowFrame s b m := by
  rcases (send_done b m s).2 with ⟨_, done, hp⟩ | ⟨k, e, hf, _⟩
  · exact ⟨done, hp⟩
  · exact absurd hr (hf.not_repliesOk k.2)

theorem send_done_of_failsAt {b : Byte} {m : Mode} {s : State} {k : Fin 4} {e : ErrorValue} (hf : FailsAt s k e) :
    Done s (send b m s) (k + 1) (failedSendEvents s b m k e) (.err e) := by
  rcases (send_done b m s).2 with ⟨hr, _⟩ | ⟨k', e', hf', done⟩
  · exact absurd hr (hf.not_repliesOk k.2)
  · obtain ⟨hk, rfl⟩ := failsAt_unique hf hf'
    obtain rfl := Fin.ext hk
    exact done

/-- A completed pulse requests its two delays. -/
theorem requestedDelay_pulseEvents (s : State) (f : Byte) :
    requestedDelay (pulseEvents s f) = s.params.tEnMs + s.params.tSettleMs := rfl

theorem requestedDelay_sendEvents (s : State) (b : Byte) (m : Mode) :
    requestedDelay (sendEvents s b m) = 2 * (s.params.tEnMs + s.params.tSettleMs) := by
  rw [sendEvents, requestedDelay_append, requestedDelay_pulseEvents, requestedDelay_pulseEvents, two_mul]

/-- Settles O13: the replies decide between the two ways a SEND can end, and so does its answer. -/
theorem sendReturnsOkAfterEightEvents : Obligations.SendReturnsOkAfterEightEvents := by
  intro i m b s (hi : IsSend i m b) hp
  have hexec := hi.exec_eq hp
  refine ⟨fun hr => ?_, fun t ht ha => ?_, rfl, rfl, rfl, requestedDelay_sendEvents s b m, fun htable => ?_⟩
  · obtain ⟨done, hlast⟩ := send_done_of_repliesOk (b := b) (m := m) hr
    exact ⟨send b m s, hexec, done.trace, done.answers, done.phase, hlast, (send_done b m s).1, done.host, done.env,
      done.busCalls⟩
  · rw [hexec] at ht
    cases ht
    exact (send_done_of_answer_ok ha).trace
  · rw [requestedDelay_sendEvents, htable]
    rfl

/-- Settles O14. -/
theorem sendFailsAtEachOfItsWrites : Obligations.SendFailsAtEachOfItsWrites := by
  intro i m b s k e (hi : IsSend i m b) hp hf
  have done := send_done_of_failsAt (b := b) (m := m) hf
  exact ⟨send b m s, hi.exec_eq hp, done.trace, done.answers, done.phase, (send_done b m s).1, done.host, done.env,
    done.busCalls⟩

/-! ### NIB -/

theorem sendNibble_done_of_repliesOk {n : Nibble} {s : State} (hr : RepliesOk s 2) :
    Done s (sendNibble n s) 2 (pulseEvents s (frame s.params.layout n .command s.bl)) .ok ∧
    (sendNibble n s).p = frame s.params.layout n .command s.bl := by
  rcases (sendNibble_done n s).2 with ⟨_, done, hp⟩ | ⟨k, e, hf, _⟩
  · exact ⟨done, hp⟩
  · exact absurd hr (hf.not_repliesOk k.2)

theorem sendNibble_done_of_failsAt {n : Nibble} {s : State} {k : Fin 2} {e : ErrorValue} (hf : FailsAt s k e) :
    Done s (sendNibble n s) (k + 1) (failedPulseEvents s (frame s.params.layout n .command s.bl) (k == 1) e)
      (.err e) := by
  rcases (sendNibble_done n s).2 with ⟨hr, _⟩ | ⟨k', e', hf', done⟩
  · exact absurd hr (hf.not_repliesOk k.2)
  · obtain ⟨hk, rfl⟩ := failsAt_unique hf hf'
    obtain rfl := Fin.ext hk
    exact done

/-- Settles O15. -/
theorem nibReturnsOkAfterOnePulse : Obligations.NibReturnsOkAfterOnePulse := by
  intro n s h hr
  obtain ⟨done, hlast⟩ := sendNibble_done_of_repliesOk (n := n) hr
  exact ⟨sendNibble n s, exec_idle (.nib n) h, done.trace, done.answers, done.phase, hlast, (sendNibble_done n s).1,
    done.host, done.env, done.busCalls⟩

/-- Settles O16. -/
theorem nibFailsAtEachOfItsWrites : Obligations.NibFailsAtEachOfItsWrites := by
  intro n s k e h hf
  have done := sendNibble_done_of_failsAt (n := n) hf
  exact ⟨sendNibble n s, exec_idle (.nib n) h, done.trace, done.answers, done.phase, (sendNibble_done n s).1, done.host,
    done.env, done.busCalls⟩

/-! ### The backlight flag on the line -/

/-- The first of the events is a bus write. -/
def WriteFirst (evs : List Event) : Prop := ∃ a v r rest, evs = .write a v r :: rest

theorem WriteFirst.append {evs : List Event} (h : WriteFirst evs) (evs' : List Event) : WriteFirst (evs ++ evs') := by
  obtain ⟨a, v, r, rest, rfl⟩ := h
  exact ⟨a, v, r, rest ++ evs', rfl⟩

theorem writeFirst_pulseEvents (s : State) (f : Byte) : WriteFirst (pulseEvents s f) := ⟨_, _, _, _, rfl⟩

theorem writeFirst_failedPulseEvents (s : State) (f : Byte) (second : Bool) (e : ErrorValue) :
    WriteFirst (failedPulseEvents s f second e) := by
  cases second <;> exact ⟨_, _, _, _, rfl⟩

theorem writeFirst_failedSendEvents (s : State) (b : Byte) (m : Mode) (k : Fin 4) (e : ErrorValue) :
    WriteFirst (failedSendEvents s b m k e) := by
  match k with
  | 0 | 1 => exact writeFirst_failedPulseEvents s _ _ e
  | 2 | 3 => exact (writeFirst_pulseEvents s _).append _

section Writes

variable {i : Instr} (hw : busWritesOf i ≠ 0)
include hw

theorem writeFirst_okEvents (s : State) : WriteFirst (okEvents i s) := by
  cases i with
  | sendC b | sendD b => exact (writeFirst_pulseEvents s _).append _
  | nib n => exact writeFirst_pulseEvents s _
  | setbl | wait => exact absurd rfl hw

theorem writeFirst_failedEvents (s : State) (k : Nat) (e : ErrorValue) : WriteFirst (failedEvents i s k e) := by
  cases i with
  | sendC b | sendD b => exact writeFirst_failedSendEvents s b _ _ e
  | nib n => exact writeFirst_failedPulseEvents s _ _ e
  | setbl | wait => exact absurd rfl hw

/-- An operation that makes bus writes begins with one, whether a write of it fails or not. -/
theorem bodyOf_writeFirst {s : State} (hp : s.phase = .idle) :
    ∃ evs, (bodyOf i s).trace = s.trace ++ evs ∧ WriteFirst evs := by
  rcases (bodyOf_done i hp).2 with ⟨_, done⟩ | ⟨k, e, _, _, done⟩
  · exact ⟨_, done.trace, writeFirst_okEvents hw s⟩
  · exact ⟨_, done.trace, writeFirst_failedEvents hw s k e⟩

end Writes

/-- Settles O25: SETBL leaves the trace alone, and the first event after it is a write that carries the flag (O10). -/
theorem backlightReachesTheLineAtTheNextWrite : Obligations.BacklightReachesTheLineAtTheNextWrite := by
  intro f i s t u hp hv hw ht hu
  have hset : exec (.setbl f) s = .next (setBacklight f s) := exec_idle _ hp
  rw [hset] at ht
  cases ht
  obtain ⟨evs, htrace, hcarries⟩ := everyWriteCarriesTheFlags i (setBacklight f s) u hp hv hu
  rw [exec_idle i (s := setBacklight f s) hp] at hu
  cases hu
  obtain ⟨evs', htrace', a, v, r, rest, rfl⟩ := bodyOf_writeFirst hw (s := setBacklight f s) hp
  obtain rfl := List.append_cancel_left (htrace.symm.trans htrace')
  obtain ⟨rfl, _, hflag, _⟩ := hcarries a v r List.mem_cons_self
  exact ⟨rfl, v, r, rest, htrace, hflag⟩

end Sys2Proof.Machine

/-! The calls of the host driver: what each operation of it issues, how a call goes on from one of its operations to the
next, and where it ends. -/

namespace Sys2Proof.Machine

/-! ### The host takes the answer of an offered operation -/

/-- An operation that makes bus writes leaves `BL` alone. -/
theorem blAfter_of_lt_busWritesOf {i : Instr} {k : Nat} (h : k < busWritesOf i) (s : State) : blAfter i s = s.bl := by
  cases i with
  | setbl f => exact absurd h (Nat.not_lt_zero k)
  | sendC | sendD | nib | wait => rfl

/-- An operation answered `err(e)` made a bus write, so that it leaves `BL` alone. -/
theorem bodyOf_bl_of_err {i : Instr} {s : State} {e : ErrorValue} (h : s.phase = .idle)
    (ha : (bodyOf i s).answers = s.answers ++ [.err e]) : (bodyOf i s).bl = s.bl := by
  obtain ⟨hbl, ⟨_, done⟩ | ⟨k, _, hk, _, _⟩⟩ := bodyOf_done i h
  · simp [done.answers] at ha
  · rw [hbl, blAfter_of_lt_busWritesOf hk]

/-- Settles O34. -/
theorem hostStopsAtTheFirstError : Obligations.HostStopsAtTheFirstError := by
  refine ⟨fun s u w rest i ho hd hu => ?_, fun s c hp hprog hc => ?_⟩
  · have hp : ({ s with program := rest } : State).phase = .idle := ho.1
    rw [exec_idle i hp] at hu
    cases hu
    have host := bodyOf_host i hp
    rw [step_offers ho hd]
    refine ⟨fun ha => ?_, fun e ha => ?_⟩
    · rw [takeAnswer_ok ha]
      exact ⟨rfl, host.program, host.current⟩
    · rw [takeAnswer_err ha]
      refine ⟨_, rfl, rfl, rfl, fun c hc => ?_, rfl, rfl, bodyOf_bl_of_err hp ha, host.dc, host.em, host.calls⟩
      rw [failCall_results, host.results, host.current, hc]
      rfl
  · simp [step, hp, idleStep, hprog, nextCall, hc, finishCall]

/-! ### The expansion of each operation of the driver -/

theorem displayPayload_eq (dc : DisplayControl) : displayPayload dc =
    0x08#8 ||| (if dc.display then 0x04#8 else 0#8) ||| (if dc.cursor then 0x02#8 else 0#8) |||
      (if dc.blink then 0x01#8 else 0#8) := by
  simp only [BitVec.or_assoc]
  exact congrArg (0x08#8 ||| ·) (BitVec.or_assoc _ _ _)

theorem entryPayload_eq (em : EntryMode) : entryPayload em =
    0x04#8 ||| (if em.leftToRight then 0x02#8 else 0#8) ||| (if em.autoShift then 0x01#8 else 0#8) :=
  (BitVec.or_assoc _ _ _).symm

/-- Settles O38: the accumulator is updated first, and the payload is computed from it. -/
theorem displayControlOperations : Obligations.DisplayControlOperations := by
  intro s o rest dc hb ho
  rw [← displayPayload_eq]
  rcases ho with ⟨rfl, rfl⟩ | ⟨rfl, rfl⟩ | ⟨rfl, rfl⟩ | ⟨rfl, rfl⟩ | ⟨rfl, rfl⟩ | ⟨rfl, rfl⟩ <;>
    exact step_begins_wellFormed hb rfl

/-- Settles O39: the accumulator is updated first, and the payload is computed from it. -/
theorem entryModeOperations : Obligations.EntryModeOperations := by
  intro s o rest ltr hb ho
  rw [← entryPayload_eq ⟨ltr, s.em.autoShift⟩]
  rcases ho with ⟨rfl, rfl⟩ | ⟨rfl, rfl⟩ <;> exact step_begins_wellFormed hb rfl

/-- Settles O40. -/
theorem backlightAndSleepExpansions : Obligations.BacklightAndSleepExpansions := fun _ _ =>
  ⟨(step_begins_wellFormed · rfl), (step_begins_wellFormed · rfl), (step_begins_wellFormed · rfl),
    (step_begins_wellFormed · rfl)⟩

/-- The row offsets as a table (R19). -/
theorem rowOffset_of_getElem? {r off : Nat} (h : [0x00, 0x40, 0x14, 0x54][r]? = some off) :
    Codes.rowOffset r = off := by
  match r with
  | 0 | 1 | 2 | 3 => exact Option.some.inj h
  | r + 4 => cases h

/-- OR'ing the set-DDRAM-address bit to an address adds it. -/
theorem toNat_cmdDdram_or {a : Nat} (h : a ≤ 0x7F) : (0x80#8 ||| BitVec.ofNat 8 a).toNat = 0x80 + a := by
  have ha : (BitVec.ofNat 8 a).toNat = a := Nat.mod_eq_of_lt (by omega)
  rw [BitVec.toNat_or, ha]
  exact (Nat.two_pow_add_eq_or_of_lt (i := 7) (b := a) (by omega) 1).symm

/-- Settles O41: the address is within its range or it is not. -/
theorem moveCursorIssuesOneByte : Obligations.MoveCursorIssuesOneByte := by
  intro s row col off rest hb hoff
  have haddr : cursorAddress s.rows row col = off + col := congrArg (· + col) (rowOffset_of_getElem? hoff)
  have hwf : (HostOp.moveCursorTo row col).wellFormed s.rows = decide (off + col ≤ 0x7F) := by rw [← haddr]; rfl
  refine ⟨fun h => ⟨?_, toNat_cmdDdram_or h⟩, fun h => ?_⟩
  · rw [step_begins_wellFormed hb (hwf.trans (decide_eq_true h)), ← haddr]
    rfl
  · exact step_begins_illFormed hb (hwf.trans (decide_eq_false (Nat.not_le.2 h)))

/-- The first column of the first row is in range, whatever the row count. -/
theorem wellFormed_moveCursorTo_zero (rows : RowCount) : (HostOp.moveCursorTo 0 0).wellFormed rows = true := by
  cases rows <;> rfl

theorem cursorByte_zero (rows : RowCount) : cursorByte rows 0 0 = 0x80#8 := by cases rows <;> rfl

/-- Settles O42. -/
theorem clearAndScrollExpansions : Obligations.ClearAndScrollExpansions := by
  refine fun s _ => ⟨(step_begins_wellFormed · rfl), fun hb => ?_, (step_begins_wellFormed · rfl),
    (step_begins_wellFormed · rfl), (step_begins_wellFormed · rfl)⟩
  rw [step_begins_wellFormed hb (wellFormed_moveCursorTo_zero _), ← cursorByte_zero s.rows]
  rfl

theorem cgramByte_of_le_seven {slot : Nat} (h : slot ≤ 7) : cgramByte slot = 0x78#8 := by
  rw [cgramByte, glyphSlot, max_eq_right h]
  rfl

/-- Settles O46: of the request and 7 the larger is 7. -/
theorem customCharAlwaysTargetsSlotSeven : Obligations.CustomCharAlwaysTargetsSlotSeven := by
  intro s slot rows rest hb
  refine ⟨fun h => ⟨?_, congrArg some (max_eq_right h)⟩, fun h => ?_⟩
  · rw [step_begins_wellFormed hb (decide_eq_true h), ← cgramByte_of_le_seven h]
    rfl
  · exact step_begins_illFormed hb (decide_eq_false (Nat.not_le.2 h))

/-- Settles O47: row count by row count. -/
theorem functionSetPayload : Obligations.FunctionSetPayload := by
  refine ⟨rfl, rfl, fun rows h => ?_⟩
  cases rows with
  | one => exact absurd h (by decide)
  | two | three | four => exact ⟨rfl, rfl⟩

/-- Settles O48. -/
theorem enableExpansion : Obligations.EnableExpansion := by
  refine ⟨fun s rest hb => ?_, rfl, fun _ => rfl, rfl, by decide⟩
  rw [step_begins_wellFormed hb rfl]
  simp [begun, updateAccumulators, expansion, enableTasks, issueOp, Codes.nibReset, Codes.nib4Bit]

/-! ### A call in progress -/

/-- The driver has gone from `s` to `t` within one call: it issued the operations of `h`, with `n` bus writes. -/
structure WithinCall (s t : State) (h : List (Instr × Reply)) (n : Nat) : Prop where
  issues : Issues s h t
  phase : t.phase = .idle
  current : t.current = s.current
  results : t.results = s.results
  calls : t.calls = s.calls
  env : t.env = s.env.drop n
  busCalls : t.busCalls = s.busCalls + n

theorem WithinCall.refl {s : State} (h : s.phase = .idle) : WithinCall s s [] 0 :=
  ⟨.none s, h, rfl, rfl, rfl, rfl, rfl⟩

theorem WithinCall.trans {s t u : State} {h h' : List (Instr × Reply)} {n n' : Nat} (a : WithinCall s t h n)
    (b : WithinCall t u h' n') : WithinCall s u (h ++ h') (n + n') where
  issues := a.issues.trans b.issues
  phase := b.phase
  current := b.current.trans a.current
  results := b.results.trans a.results
  calls := b.calls.trans a.calls
  env := by rw [b.env, a.env, List.drop_drop]
  busCalls := by rw [b.busCalls, a.busCalls, Nat.add_assoc]

section Replies

variable {s t : State} {h : List (Instr × Reply)} {n : Nat} (a : WithinCall s t h n)
include a

theorem WithinCall.nextReply (k : Nat) : nextReply t k = nextReply s (n + k) := by
  simp [Machine.nextReply, a.env, a.busCalls, Nat.add_assoc]

theorem WithinCall.repliesOk {k : Nat} (hr : RepliesOk s (n + k)) : RepliesOk t k :=
  fun j => (a.nextReply j).trans (hr ⟨n + j, by omega⟩)

theorem WithinCall.failsAt {k : Nat} {e : ErrorValue} (hf : FailsAt s (n + k) e) : FailsAt t k e :=
  ⟨a.repliesOk hf.1, (a.nextReply k).trans hf.2⟩

end Replies

theorem repliesOk_mono {s : State} {n k : Nat} (hr : RepliesOk s n) (h : k ≤ n) : RepliesOk s k :=
  fun j => hr ⟨j, j.2.trans_le h⟩

/-- The call in progress failed: the host has nothing left to do, and the caller of `enable` has no handle (R113, R141). -/
structure CallFailed (s t : State) (e : ErrorValue) : Prop where
  phase : t.phase = .idle
  program : t.program = []
  current : t.current = none
  results : t.results = s.results ++ [.err e]
  calls : t.calls = s.calls
  lifecycle : s.current = some (.op .enable) → t.lifecycle = .gone

/-- A call fails as its last stretch does. -/
theorem CallFailed.of_withinCall {s t u : State} {h : List (Instr × Reply)} {n : Nat} {e : ErrorValue}
    (f : CallFailed t u e) (a : WithinCall s t h n) : CallFailed s u e :=
  ⟨f.phase, f.program, f.current, f.results.trans (a.results ▸ rfl), f.calls.trans a.calls,
    fun hc => f.lifecycle (a.current.trans hc)⟩

/-! ### One move of the driver -/

/-- The state once the application's call of an operation of the driver has been taken up. -/
def takenUp (o : HostOp) (rest : List HostCall) (s : State) : State :=
  { s with calls := rest, program := [.call o], current := some (.op o) }

/-- A move that offers no command word and begins no call issues nothing. -/
theorem issues_nothing {s t : State} (hs : step s = .next t) (ho : ∀ w rest, s.program ≠ .issue w :: rest)
    (hd : CallsDriver s) : Issues s [] t := .quiet s t t [] hs (fun w rest h => ho w rest h.2) hd (.none t)

theorem issues_takenUp {s : State} {o : HostOp} {rest : List HostCall} (hc : CallsNext s (.op o) rest)
    (ha : s.lifecycle.admits o = true) : Issues s [] (takenUp o rest s) := by
  have hstep : step s = .next (takenUp o rest s) := (step_calls hc).trans (if_pos ha)
  obtain ⟨_, hprog, _, hcalls⟩ := hc
  exact issues_nothing hstep (by simp [hprog]) (callsDriver_of_calls hcalls)

theorem callsDriver_of_program {s : State} {task : HostTask} {rest : List HostTask} (h : s.program = task :: rest) :
    CallsDriver s := fun _ _ hn => by simp [CallsNext, h] at hn

theorem issues_begun {s : State} {o : HostOp} {rest : List HostTask} (hb : BeginsNext s o rest)
    (hw : o.wellFormed s.rows = true) : Issues s [] (begun o rest s) :=
  issues_nothing (step_begins_wellFormed hb hw) (by simp [hb.2])
    (callsDriver_of_program hb.2)

/-- The call that has nothing left to do returns `ok` (R141). -/
theorem issues_finishCall {s : State} {c : HostCall} (hp : s.phase = .idle) (hprog : s.program = [])
    (hc : s.current = some c) : Issues s [] (finishCall c s) :=
  issues_nothing (hostStopsAtTheFirstError.2 s c hp hprog hc) (by simp [hprog])
    (callsDriver_of_current hc)

section Issue

variable {s : State} {i : Instr} {rest : List HostTask} (hp : s.phase = .idle) (hprog : s.program = issueOp i :: rest)
include hp hprog

/-- An operation none of whose writes fails: the call goes on. -/
theorem issueOp_ok (hr : RepliesOk s (busWritesOf i)) :
    ∃ t, Issues s [(i, .ok)] t ∧ Done { s with program := rest } t (busWritesOf i) (okEvents i s) .ok ∧
      t.bl = blAfter i s := by
  have hp' : ({ s with program := rest } : State).phase = .idle := hp
  have hword : decode (encode i) = .instr i := decode_eq_instr_iff.2 rfl
  have done := bodyOf_done_of_repliesOk hp' hr
  have hstep := step_offers ⟨hp, hprog⟩ hword
  rw [takeAnswer_ok done.answers] at hstep
  have hevents : okEvents i { s with program := rest } = okEvents i s := by cases i <;> rfl
  have hbl : blAfter i { s with program := rest } = blAfter i s := by cases i <;> rfl
  exact ⟨_, .issued s _ _ _ rest i .ok [] ⟨hp, hprog⟩ hword hstep done.answers (.none _), hevents ▸ done,
    (bodyOf_done i hp').1.trans hbl⟩

/-- An operation whose write after `k` good ones fails: the call ends with it. -/
theorem issueOp_err {k : Nat} {e : ErrorValue} (hk : k < busWritesOf i) (hf : FailsAt s k e) :
    ∃ u, Issues s [(i, .err e)] (failCall e u) ∧
      Done { s with program := rest } u (k + 1) (failedEvents i s k e) (.err e) ∧ u.bl = s.bl := by
  have hp' : ({ s with program := rest } : State).phase = .idle := hp
  have hword : decode (encode i) = .instr i := decode_eq_instr_iff.2 rfl
  have done := bodyOf_done_of_failsAt hp' hk hf
  have hstep := step_offers ⟨hp, hprog⟩ hword
  rw [takeAnswer_err done.answers] at hstep
  have hevents : failedEvents i { s with program := rest } k e = failedEvents i s k e := by cases i <;> rfl
  exact ⟨_, .issued s _ _ _ rest i (.err e) [] ⟨hp, hprog⟩ hword hstep done.answers (.none _), hevents ▸ done,
    bodyOf_bl_of_err hp' done.answers⟩

end Issue

/-- An operation answered `ok` goes on within its call. -/
theorem Done.withinCall {s t : State} {rest : List HostTask} {n : Nat} {evs : List Event} {h : List (Instr × Reply)}
    (d : Done { s with program := rest } t n evs .ok) (hi : Issues s h t) : WithinCall s t h n :=
  ⟨hi, d.phase, d.host.current, d.host.results, d.host.calls, d.env, d.busCalls⟩

/-- An operation answered `err(e)` is the end of its call. -/
theorem Done.callFailed {s u : State} {rest : List HostTask} {n : Nat} {evs : List Event} {e : ErrorValue} {c : HostCall}
    (d : Done { s with program := rest } u n evs (.err e)) (hc : s.current = some c) :
    CallFailed s (failCall e u) e where
  phase := d.phase
  program := rfl
  current := rfl
  results := by rw [failCall_results, d.host.results, d.host.current, hc]; rfl
  calls := d.host.calls
  lifecycle := fun he => by rw [failCall_lifecycle, d.host.current, he]; rfl

/-- Beginning an operation of the driver goes on within its call. -/
theorem withinCall_begun {s : State} {o : HostOp} {rest : List HostTask} (hb : BeginsNext s o rest)
    (hw : o.wellFormed s.rows = true) : WithinCall s (begun o rest s) [] 0 := by
  have hi := issues_begun hb hw
  cases o <;> exact ⟨hi, hb.1, rfl, rfl, rfl, rfl, rfl⟩

/-! ### Tasks of a call, by their bus writes -/

/-- What a list of tasks of a call comes to, by the replies to its `n` bus writes: carried out with the rest of the call
still to do if all are `ok`, and otherwise the end of the call at the first failing one. -/
structure TasksWrite (tasks : List HostTask) (n : Nat) : Prop where
  ok : ∀ (s : State) (rest : List HostTask), s.phase = .idle → s.program = tasks ++ rest → RepliesOk s n →
    ∃ t h, WithinCall s t h n ∧ t.program = rest
  err : ∀ (s : State) (rest : List HostTask) (c : HostCall) (k : Nat) (e : ErrorValue), s.phase = .idle →
    s.program = tasks ++ rest → s.current = some c → k < n → FailsAt s k e → ∃ t h, Issues s h t ∧ CallFailed s t e

theorem tasksWrite_nil : TasksWrite [] 0 where
  ok s _ hp hprog _ := ⟨s, [], .refl hp, hprog⟩
  err _ _ _ _ _ _ _ _ hk := absurd hk (Nat.not_lt_zero _)

/-- One list of tasks after another: the failing write is in the first or, the first carried out, in the second. -/
theorem TasksWrite.append {a b : List HostTask} {n m : Nat} (ha : TasksWrite a n) (hb : TasksWrite b m) :
    TasksWrite (a ++ b) (n + m) where
  ok s rest hp hprog hr := by
    rw [List.append_assoc] at hprog
    obtain ⟨t, h, wt, ht⟩ := ha.ok s _ hp hprog (repliesOk_mono hr (Nat.le_add_right n m))
    obtain ⟨u, h', wu, hu⟩ := hb.ok t rest wt.phase ht (wt.repliesOk hr)
    exact ⟨u, _, wt.trans wu, hu⟩
  err s rest c k e hp hprog hc hk hf := by
    rw [List.append_assoc] at hprog
    by_cases hkn : k < n
    · exact ha.err s _ c k e hp hprog hc hkn hf
    · obtain ⟨j, rfl⟩ := Nat.exists_eq_add_of_le (Nat.le_of_not_lt hkn)
      obtain ⟨t, h, wt, ht⟩ := ha.ok s _ hp hprog (repliesOk_mono hf.1 (Nat.le_add_right n j))
      obtain ⟨u, h', hi, fu⟩ := hb.err t rest c j e wt.phase ht (wt.current.trans hc) (by omega) (wt.failsAt hf)
      exact ⟨u, _, wt.issues.trans hi, fu.of_withinCall wt⟩

theorem tasksWrite_issueOp (i : Instr) : TasksWrite [issueOp i] (busWritesOf i) where
  ok s rest hp hprog hr := by
    obtain ⟨t, hi, done, _⟩ := issueOp_ok hp hprog hr
    exact ⟨t, _, done.withinCall hi, done.host.program⟩
  err s rest c k e hp hprog hc hk hf := by
    obtain ⟨u, hi, done, _⟩ := issueOp_err hp hprog hk hf
    exact ⟨_, _, hi, done.callFailed hc⟩

theorem tasksWrite_markInitialized : TasksWrite [.markInitialized] 0 where
  ok s rest hp hprog _ := by
    have hstep : step s = .next { s with lifecycle := .initialized, program := rest } := by
      simp [step, hp, idleStep, hprog, runTask]
    have hi := issues_nothing hstep (by simp [hprog]) (callsDriver_of_program hprog)
    exact ⟨_, [], ⟨hi, hp, rfl, rfl, rfl, rfl, rfl⟩, rfl⟩
  err _ _ _ _ _ _ _ _ hk := absurd hk (Nat.not_lt_zero _)

/-- A call of an operation of the driver writes what its expansion writes. -/
theorem tasksWrite_call {o : HostOp} {n : Nat} (hw : ∀ rows, o.wellFormed rows = true)
    (he : ∀ s, TasksWrite (expansion o s) n) : TasksWrite [.call o] n where
  ok s rest hp hprog hr := by
    have w := withinCall_begun ⟨hp, hprog⟩ (hw s.rows)
    obtain ⟨t, h, wt, ht⟩ := (he _).ok _ rest w.phase rfl (w.repliesOk (by rwa [Nat.zero_add]))
    rw [← Nat.zero_add n]
    exact ⟨t, _, w.trans wt, ht⟩
  err s rest c k e hp hprog hc hk hf := by
    have w := withinCall_begun ⟨hp, hprog⟩ (hw s.rows)
    obtain ⟨t, h, hi, ft⟩ := (he _).err _ rest c k e w.phase rfl (w.current.trans hc) hk
      (w.failsAt (by rwa [Nat.zero_add]))
    exact ⟨t, _, w.issues.trans hi, ft.of_withinCall w⟩

/-! ### A failed `enable` -/

theorem tasksWrite_gapTasks (g : Option WaitCount) : TasksWrite (gapTasks g) 0 := by
  cases g with
  | none => exact tasksWrite_nil
  | some d => exact tasksWrite_issueOp (.wait d)

theorem tasksWrite_leftToRight : TasksWrite [.call .leftToRight] 4 :=
  tasksWrite_call (fun _ => rfl) fun _ => tasksWrite_issueOp (.sendC _)

theorem tasksWrite_backlightOn : TasksWrite [.call .backlightOn] 4 :=
  tasksWrite_call (fun _ => rfl) fun _ => (tasksWrite_issueOp (.setbl true)).append (tasksWrite_issueOp (.sendC _))

theorem tasksWrite_renderingOn : TasksWrite [.call .renderingOn] 4 :=
  tasksWrite_call (fun _ => rfl) fun _ => tasksWrite_issueOp (.sendC _)

theorem tasksWrite_clear : TasksWrite [.call .clear] 8 :=
  tasksWrite_call (fun _ => rfl) fun _ => (tasksWrite_issueOp (.sendC _)).append
    (tasksWrite_call wellFormed_moveCursorTo_zero fun _ => tasksWrite_issueOp (.sendC _))

/-- The defaults of `enable`: the tag, then four operations of the driver (R112). -/
theorem tasksWrite_defaults :
    TasksWrite [.markInitialized, .call .leftToRight, .call .backlightOn, .call .renderingOn, .call .clear] 20 :=
  tasksWrite_markInitialized.append (tasksWrite_leftToRight.append (tasksWrite_backlightOn.append
    (tasksWrite_renderingOn.append tasksWrite_clear)))

/-- `enable` makes 32 bus writes, whatever the gaps: two per nibble, four per send. -/
theorem tasksWrite_enableTasks (p : Params) (rows : RowCount) (cell : CellSize) :
    TasksWrite (enableTasks p rows cell) 32 :=
  tasksWrite_issueOp (.wait _)
    |>.append (tasksWrite_issueOp (.nib _)) |>.append (tasksWrite_gapTasks _)
    |>.append (tasksWrite_issueOp (.nib _)) |>.append (tasksWrite_gapTasks _)
    |>.append (tasksWrite_issueOp (.nib _)) |>.append (tasksWrite_gapTasks _)
    |>.append (tasksWrite_issueOp (.nib _)) |>.append (tasksWrite_gapTasks _)
    |>.append (tasksWrite_issueOp (.sendC _)) |>.append (tasksWrite_gapTasks _)
    |>.append tasksWrite_defaults

/-- Settles O35. -/
theorem failedEnableLeavesNoHandle : Obligations.FailedEnableLeavesNoHandle := by
  refine ⟨fun s rest k e _ hc hl hk hf => ?_, fun s o ws rest hl => ⟨fun hc => ?_, fun hc => ?_⟩⟩
  · have henable : TasksWrite [.call .enable] 32 :=
      tasksWrite_call (fun _ => rfl) fun s => tasksWrite_enableTasks s.params s.rows s.cell
    obtain ⟨t, h, hi, ft⟩ := henable.err (takenUp .enable rest s) [] _ k e hc.1 rfl rfl hk hf
    exact ⟨t, _, (issues_takenUp hc (by rw [hl]; rfl)).trans hi, ft.lifecycle rfl, ft.results, ft.phase, ft.program,
      ft.current, ft.calls⟩
  · have hgate : ¬s.lifecycle.admits o = true := by simp [hl, Lifecycle.admits, gateAdmits]
    exact (step_calls hc).trans (if_neg hgate)
  · exact (step_calls hc).trans (if_pos hl)

/-! ### A stretch of a call that only sends -/

/-- The driver has gone from `s` to `t` within one call, with the events `evs`, and the flags are as before. -/
structure Sends (s t : State) (h : List (Instr × Reply)) (n : Nat) (evs : List Event) : Prop extends
    WithinCall s t h n where
  trace : t.trace = s.trace ++ evs
  addr : t.addr = s.addr
  params : t.params = s.params
  bl : t.bl = s.bl
  dc : t.dc = s.dc
  em : t.em = s.em
  lifecycle : t.lifecycle = s.lifecycle

theorem Sends.trans {s t u : State} {h h' : List (Instr × Reply)} {n n' : Nat} {evs evs' : List Event}
    (a : Sends s t h n evs) (b : Sends t u h' n' evs') : Sends s u (h ++ h') (n + n') (evs ++ evs') where
  toWithinCall := a.toWithinCall.trans b.toWithinCall
  trace := by rw [b.trace, a.trace, List.append_assoc]
  addr := b.addr.trans a.addr
  params := b.params.trans a.params
  bl := b.bl.trans a.bl
  dc := b.dc.trans a.dc
  em := b.em.trans a.em
  lifecycle := b.lifecycle.trans a.lifecycle

theorem Sends.refl {s : State} (h : s.phase = .idle) : Sends s s [] 0 [] :=
  ⟨.refl h, (List.append_nil _).symm, rfl, rfl, rfl, rfl, rfl, rfl⟩

/-- The events of a SEND depend on the address, the parameters and the backlight flag alone. -/
theorem Sends.sendEvents_eq {s t : State} {h : List (Instr × Reply)} {n : Nat} {evs : List Event} (a : Sends s t h n evs)
    (b : Byte) (m : Mode) : sendEvents t b m = sendEvents s b m := by
  simp [sendEvents, pulseEvents, highFrame, lowFrame, a.addr, a.params, a.bl]

theorem Sends.failedSendEvents_eq {s t : State} {h : List (Instr × Reply)} {n : Nat} {evs : List Event}
    (a : Sends s t h n evs) (b : Byte) (m : Mode) (k : Fin 4) (e : ErrorValue) :
    failedSendEvents t b m k e = failedSendEvents s b m k e := by
  simp [failedSendEvents, pulseEvents, failedPulseEvents, highFrame, lowFrame, a.addr, a.params, a.bl]

/-- An operation other than SETBL, answered `ok`, only sends. -/
theorem sends_issueOp {s : State} {i : Instr} {rest : List HostTask} (hp : s.phase = .idle)
    (hprog : s.program = issueOp i :: rest) (hr : RepliesOk s (busWritesOf i)) (hbl : blAfter i s = s.bl) :
    ∃ t, Sends s t [(i, .ok)] (busWritesOf i) (okEvents i s) ∧ t.program = rest := by
  obtain ⟨t, hi, done, hblt⟩ := issueOp_ok hp hprog hr
  exact ⟨t, ⟨done.withinCall hi, done.trace, done.host.addr, done.host.params, hblt.trans hbl, done.host.dc, done.host.em,
    done.host.lifecycle⟩, done.host.program⟩

/-- Beginning an operation that changes no accumulator sends nothing yet. -/
theorem sends_begun {s : State} {o : HostOp} {rest : List HostTask} (hb : BeginsNext s o rest)
    (hw : o.wellFormed s.rows = true) (ho : ∀ s, updateAccumulators o s = s) : Sends s (begun o rest s) [] 0 [] :=
  ⟨withinCall_begun hb hw, by simp, by simp, by simp, by simp, by simp [begun, ho], by simp [begun, ho],
    by simp [begun]⟩

/-- A call that has sent all it had to send returns `ok`. -/
theorem Sends.returns {s t : State} {o : HostOp} {rest : List HostCall} {h : List (Instr × Reply)} {n : Nat}
    {evs : List Event} (hc : CallsNext s (.op o) rest) (ha : s.lifecycle.admits o = true)
    (a : Sends (takenUp o rest s) t h n evs) (hprog : t.program = []) :
    ∃ u, Issues s h u ∧ u.trace = s.trace ++ evs ∧ u.results = s.results ++ [.ok (returnValue (.op o))] ∧
      u.calls = rest ∧ u.current = none ∧ u.program = [] ∧ u.phase = .idle ∧ u.bl = s.bl ∧ u.dc = s.dc ∧ u.em = s.em := by
  have hi := ((issues_takenUp hc ha).trans a.issues).trans (issues_finishCall a.phase hprog a.current)
  rw [List.nil_append, List.append_nil] at hi
  exact ⟨finishCall (.op o) t, hi, a.trace, by rw [finishCall_results, a.results]; rfl, a.calls, rfl, hprog, a.phase, a.bl,
    a.dc, a.em⟩

/-- A failed call of any operation but `enable` leaves the handle (R113). -/
theorem lifecycleAfterFailure_of_ne_enable {o : HostOp} (h : o ≠ .enable) (l : Lifecycle) :
    lifecycleAfterFailure (some (.op o)) l = l := if_neg (by simpa using h)

/-- A call whose next SEND fails ends there and returns the error. -/
theorem Sends.fails {s t : State} {o : HostOp} {rest : List HostCall} {h : List (Instr × Reply)} {n : Nat}
    {evs : List Event} {b : Byte} {later : List HostTask} {k : Fin 4} {e : ErrorValue} (hc : CallsNext s (.op o) rest)
    (ha : s.lifecycle.admits o = true) (ho : o ≠ .enable) (a : Sends (takenUp o rest s) t h n evs)
    (ht : t.program = issueOp (.sendD b) :: later) (hf : FailsAt t k e) :
    ∃ u, Issues s (h ++ [(.sendD b, .err e)]) u ∧ u.trace = s.trace ++ evs ++ failedSendEvents s b .data k e ∧
      u.results = s.results ++ [.err e] ∧ u.calls = rest ∧ u.current = none ∧ u.program = [] ∧ u.phase = .idle ∧
      u.bl = s.bl ∧ u.lifecycle = s.lifecycle := by
  obtain ⟨u, hi, done, hbl⟩ := issueOp_err a.phase ht k.2 hf
  have failed := (done.callFailed a.current).of_withinCall a.toWithinCall
  have hevents : failedEvents (.sendD b) t k e = failedSendEvents s b .data k e := by
    rw [failedEvents, Fin.ofNat_val_eq_self]
    exact a.failedSendEvents_eq b .data k e
  have hlife : lifecycleAfterFailure t.current t.lifecycle = s.lifecycle := by
    rw [a.current, a.lifecycle]
    exact lifecycleAfterFailure_of_ne_enable ho s.lifecycle
  refine ⟨failCall e u, ((issues_takenUp hc ha).trans a.issues).trans hi, ?_, failed.results, failed.calls, rfl, rfl,
    failed.phase, hbl.trans a.bl, ?_⟩
  · rw [failCall_trace, done.trace, hevents]
    exact congrArg (· ++ _) a.trace
  · rw [failCall_lifecycle, done.host.current, done.host.lifecycle]
    exact hlife

/-! ### `clear` -/

/-- Settles O43: clear-display is sent, the cursor move is begun, and its byte is sent. -/
theorem clearSendsClearThenHome : Obligations.ClearSendsClearThenHome := by
  intro s rest _ hc hl hr
  have begun1 : Sends (takenUp .clear rest s) _ [] 0 [] := sends_begun ⟨hc.1, rfl⟩ rfl fun _ => rfl
  obtain ⟨t, sent, ht⟩ := sends_issueOp (i := .sendC 0x01#8) begun1.phase rfl
    (repliesOk_mono (k := 4) hr (by decide)) rfl
  have begun2 := sends_begun ⟨sent.phase, ht⟩ (wellFormed_moveCursorTo_zero t.rows) fun _ => rfl
  have before := (begun1.trans sent).trans begun2
  obtain ⟨u, sent', hu⟩ := sends_issueOp (i := .sendC 0x80#8) (rest := []) begun2.phase
    (by rw [← cursorByte_zero t.rows]; rfl) (before.repliesOk (k := 4) hr) rfl
  have hevents : okEvents (.sendC 0x80#8) _ = sendEvents (takenUp .clear rest s) 0x80#8 .command :=
    before.sendEvents_eq 0x80#8 .command
  rw [hevents] at sent'
  obtain ⟨v, hi, htrace, hrest⟩ := (before.trans sent').returns hc (by rw [hl]; rfl) hu
  exact ⟨v, hi, htrace.trans (List.append_assoc ..).symm, hrest⟩

/-! ### The write operations -/

/-- One of the three write operations, and its bytes (R130). -/
def IsWrite (o : HostOp) (bs : List Byte) : Prop :=
  o = .writeBytes bs ∨ o = .writeStr bs ∨ ∃ b, o = .writeU8 b ∧ bs = [b]

/-- A write operation, called, has its bytes to send. -/
theorem IsWrite.begins {o : HostOp} {bs : List Byte} {s : State} {rest : List HostCall} (ho : IsWrite o bs)
    (hc : CallsNext s (.op o) rest) :
    ∃ t, Sends (takenUp o rest s) t [] 0 [] ∧ t.program = dataTasks bs ++ [] := by
  have hb : BeginsNext (takenUp o rest s) o [] := ⟨hc.1, rfl⟩
  rcases ho with rfl | rfl | ⟨b, rfl, rfl⟩ <;> exact ⟨_, sends_begun hb rfl fun _ => rfl, rfl⟩

theorem IsWrite.admits {o : HostOp} {bs : List Byte} {l : Lifecycle} (ho : IsWrite o bs) (hl : l = .initialized) :
    l.admits o = true := by
  subst hl
  rcases ho with rfl | rfl | ⟨b, rfl, rfl⟩ <;> rfl

theorem IsWrite.ne_enable {o : HostOp} {bs : List Byte} (ho : IsWrite o bs) : o ≠ .enable := by
  rcases ho with rfl | rfl | ⟨b, rfl, rfl⟩ <;> simp

theorem IsWrite.returnValue_eq {o : HostOp} {bs : List Byte} (ho : IsWrite o bs) : returnValue (.op o) = none := by
  rcases ho with rfl | rfl | ⟨b, rfl, rfl⟩ <;> rfl

/-- The bytes are sent one after another. -/
theorem sends_dataTasks (bs : List Byte) {s : State} {rest : List HostTask} (hp : s.phase = .idle)
    (hprog : s.program = dataTasks bs ++ rest) (hr : RepliesOk s (4 * bs.length)) :
    ∃ t, Sends s t (bs.map fun b => (.sendD b, .ok)) (4 * bs.length) (bs.flatMap fun b => sendEvents s b .data) ∧
      t.program = rest := by
  induction bs generalizing s with
  | nil => exact ⟨s, .refl hp, hprog⟩
  | cons b bs ih =>
    have hlen : 4 * (b :: bs).length = 4 + 4 * bs.length := by rw [List.length_cons]; omega
    rw [hlen] at hr ⊢
    obtain ⟨t, first, ht⟩ := sends_issueOp (i := .sendD b) hp hprog (repliesOk_mono hr (Nat.le_add_right 4 _)) rfl
    obtain ⟨u, others, hu⟩ := ih first.phase ht (first.repliesOk hr)
    simp only [first.sendEvents_eq] at others
    exact ⟨u, first.trans others, hu⟩

/-- Settles O44, by induction on the bytes (`sends_dataTasks`). -/
theorem writesSendEveryByteInOrder : Obligations.WritesSendEveryByteInOrder := by
  intro s o bs rest (ho : IsWrite o bs) _ hc hl hr
  obtain ⟨t, started, ht⟩ := ho.begins hc
  obtain ⟨u, sent, hu⟩ := sends_dataTasks bs started.phase ht (started.repliesOk (by rwa [Nat.zero_add]))
  simp only [started.sendEvents_eq] at sent
  have h := (started.trans sent).returns hc (ho.admits hl) hu
  rwa [ho.returnValue_eq] at h

/-- Settles O45: the bytes before the failed one are sent, and its failing SEND is the end of the call. -/
theorem writeStopsAtTheFailedByte : Obligations.WriteStopsAtTheFailedByte := by
  intro s o before after b k e rest ho _ hc hl hf
  have ho : IsWrite o (before ++ b :: after) := by
    rcases ho with rfl | rfl | ⟨rfl, rfl, rfl⟩
    · exact .inl rfl
    · exact .inr (.inl rfl)
    · exact .inr (.inr ⟨b, rfl, rfl⟩)
  obtain ⟨t, started, ht⟩ := ho.begins hc
  obtain ⟨u, sent, hu⟩ := sends_dataTasks before started.phase (rest := issueOp (.sendD b) :: dataTasks after)
    (by simpa [dataTasks] using ht) (started.repliesOk (repliesOk_mono hf.1 (by omega)))
  simp only [started.sendEvents_eq] at sent
  have whole := started.trans sent
  rw [← hl]
  exact whole.fails hc (ho.admits hl) ho.ne_enable hu (whole.failsAt (by rwa [Nat.zero_add]))

end Sys2Proof.Machine

/-! The exceptions and the lifecycle: where a failed write stands among the events of its operation, how a step changes the
lifecycle tag, and how far `enable` has come in a well-formed history. -/

namespace Sys2Proof.Machine

/-! ### Taking the transport error -/

theorem busSide_endOperation (r : Reply) (s : State) : BusSideUnchanged s (endOperation r s) := ⟨rfl, rfl, rfl, rfl⟩

/-- Settles O12: the end of an operation with the answer `err(e)`. -/
theorem transportErrorEntry : Obligations.TransportErrorEntry := fun e s =>
  ⟨endOperation_phase _ s, endOperation_answers _ s, endOperation_bl _ s, endOperation_trace _ s,
    endOperation_waited _ s, hostSide_endOperation (.err e) s, busSide_endOperation (.err e) s⟩

/-! ### The failed write of an operation -/

/-- Settles O21: the answer `ok` goes with no failing write, and an error with the one write that is the first to fail. -/
theorem errorAnswersComeFromBusWrites : Obligations.ErrorAnswersComeFromBusWrites := by
  intro i s t e hp ht
  rw [exec_idle i hp] at ht
  cases ht
  rcases (bodyOf_done i hp).2 with ⟨hr, done⟩ | ⟨k, e', hk, hf, done⟩ <;> rw [done.answers]
  · have hnone : ¬∃ k, k < busWritesOf i ∧ FailsAt s k e := fun ⟨_, hk, hf⟩ => hf.not_repliesOk hk hr
    simp [hnone]
  · constructor
    · intro ha
      obtain rfl : e' = e := by simpa using ha
      exact ⟨k, hk, hf⟩
    · rintro ⟨k', _, hf'⟩
      rw [(failsAt_unique hf hf').2]

/-- Every bus write among the events was answered `ok`. -/
def WritesOk (evs : List Event) : Prop := ∀ a v r, Event.write a v r ∈ evs → r = .ok

theorem WritesOk.append {evs evs' : List Event} (h : WritesOk evs) (h' : WritesOk evs') : WritesOk (evs ++ evs') :=
  fun a v r hw => (List.mem_append.1 hw).elim (h a v r) (h' a v r)

theorem writesOk_pulseEvents (s : State) (f : Byte) : WritesOk (pulseEvents s f) := by
  intro a v r hw
  obtain ⟨_, _, rfl⟩ | ⟨_, _, rfl⟩ : (a = s.addr ∧ v = withEnable s.params.layout f ∧ r = .ok) ∨
      (a = s.addr ∧ v = f ∧ r = .ok) := by simpa [pulseEvents] using hw
  · rfl
  · rfl

theorem writesOk_okEvents (i : Instr) (s : State) : WritesOk (okEvents i s) := by
  cases i with
  | sendC b | sendD b => exact (writesOk_pulseEvents s _).append (writesOk_pulseEvents s _)
  | nib n => exact writesOk_pulseEvents s _
  | setbl f | wait d => simp [WritesOk, okEvents]

/-- The last of the events is a bus write answered `err(e)`, and every write before it was answered `ok`. -/
def FailsLast (e : ErrorValue) (evs : List Event) : Prop :=
  ∃ before a v, WritesOk before ∧ evs = before ++ [.write a v (.err e)]

theorem WritesOk.failsLast_append {e : ErrorValue} {evs evs' : List Event} (h : WritesOk evs) (h' : FailsLast e evs') :
    FailsLast e (evs ++ evs') := by
  obtain ⟨before, a, v, hok, rfl⟩ := h'
  exact ⟨evs ++ before, a, v, h.append hok, (List.append_assoc ..).symm⟩

theorem failsLast_failedPulseEvents (s : State) (f : Byte) (second : Bool) (e : ErrorValue) :
    FailsLast e (failedPulseEvents s f second e) := by
  cases second with
  | false => exact ⟨[], _, _, by simp [WritesOk], rfl⟩
  | true =>
    exact ⟨[.write s.addr (withEnable s.params.layout f) .ok, .delay s.params.tEnMs], _, _, by simp [WritesOk], rfl⟩

theorem failsLast_failedSendEvents (s : State) (b : Byte) (m : Mode) (k : Fin 4) (e : ErrorValue) :
    FailsLast e (failedSendEvents s b m k e) := by
  match k with
  | 0 | 1 => exact failsLast_failedPulseEvents s _ _ e
  | 2 | 3 => exact (writesOk_pulseEvents s _).failsLast_append (failsLast_failedPulseEvents s _ _ e)

theorem failsLast_failedEvents {i : Instr} {k : Nat} (hk : k < busWritesOf i) (s : State) (e : ErrorValue) :
    FailsLast e (failedEvents i s k e) := by
  cases i with
  | sendC b | sendD b => exact failsLast_failedSendEvents s b _ _ e
  | nib n => exact failsLast_failedPulseEvents s _ _ e
  | setbl | wait => exact absurd hk (Nat.not_lt_zero k)

/-- Settles O22. -/
theorem failedWriteIsTheLastEvent : Obligations.FailedWriteIsTheLastEvent := by
  intro i s t hp ht
  rw [exec_idle i hp] at ht
  cases ht
  rcases (bodyOf_done i hp).2 with ⟨_, done⟩ | ⟨k, e, hk, _, done⟩
  · exact ⟨okEvents i s, writesOk_okEvents i s, .inl ⟨done.answers, done.trace⟩⟩
  · obtain ⟨before, a, v, hok, hevents⟩ := failsLast_failedEvents hk s e
    refine ⟨before, hok, .inr ⟨a, v, e, done.answers, ?_⟩⟩
    rw [done.trace, hevents, List.append_assoc]

/-! ### How a step changes the lifecycle -/

/-- Everything a step can do to the lifecycle tag. -/
inductive LifecycleNext (s t : State) : Prop where
  /-- The tag stays, and no operation of `enable` was answered `err(e)`. -/
  | kept (tag : t.lifecycle = s.lifecycle)
      (noError : s.current = some (.op .enable) → ∀ e, t.answers ≠ s.answers ++ [.err e])
  /-- An operation of `enable` was answered `err(e)`. -/
  | enableFailed (tag : t.lifecycle = .gone) (current : s.current = some (.op .enable)) (e : ErrorValue)
      (answer : t.answers = s.answers ++ [.err e])
  /-- The Handle was dropped. -/
  | dropped (tag : t.lifecycle = .gone) (rest : List HostCall) (calls : CallsNext s .drop rest)
  /-- A Handle was constructed. -/
  | constructed (tag : t.lifecycle = .uninitialized) (calls : ConstructsNext s)
  /-- `enable` marked the handle initialized. -/
  | marked (tag : t.lifecycle = .initialized) (phase : s.phase = .idle) (rest : List HostTask)
      (program : s.program = .markInitialized :: rest) (answers : t.answers = s.answers)

/-- A step without an answer that leaves the tag. -/
theorem LifecycleNext.unanswered {s t : State} (tag : t.lifecycle = s.lifecycle) (ha : t.answers = s.answers) :
    LifecycleNext s t := .kept tag fun _ e => by simp [ha]

/-- The host takes the answer of an operation that has just ended: only an error inside `enable` changes the tag. -/
theorem LifecycleNext.takeAnswer {s t : State} {r : Reply} (tag : t.lifecycle = s.lifecycle)
    (hc : t.current = s.current) (ha : t.answers = s.answers ++ [r]) : LifecycleNext s (takeAnswer t) := by
  cases r with
  | ok =>
    rw [takeAnswer_ok ha]
    exact .kept tag fun _ e => by simp [ha]
  | err e =>
    rw [takeAnswer_err ha]
    by_cases hcur : s.current = some (.op .enable)
    · exact .enableFailed (if_pos (hc.trans hcur)) hcur e ha
    · exact .kept ((if_neg (hc ▸ hcur)).trans tag) fun h => absurd h hcur

@[simp] theorem updateAccumulators_answers (o : HostOp) (s : State) :
    (updateAccumulators o s).answers = s.answers := by cases o <;> rfl

theorem IdleNext.lifecycleNext {s t : State} (h : IdleNext s t) : LifecycleNext s t := by
  cases h with
  | offered w rest i ho =>
    have hp : ({ s with program := rest } : State).phase = .idle := ho.1
    obtain ⟨r, ha⟩ := bodyOf_answers i hp
    exact .takeAnswer (bodyOf_host i hp).lifecycle (bodyOf_host i hp).current ha
  | began o rest => exact .unanswered (by simp [begun]) (by simp [begun])
  | marked rest hp h => exact .marked rfl hp rest h rfl
  | constructs c rest a r h => exact .constructed rfl ⟨c, rest, h⟩
  | drops rest h => exact .dropped rfl rest h
  | finished | called | words | waits => exact .unanswered rfl rfl

/-- One primitive call of the sequencer touches neither the tag nor the host call in progress. -/
theorem advance_host {s : State} (hb : s.phase ≠ .idle) (hn : ¬(s.phase = .hTS ∧ s.latches.opk = .wait)) :
    HostSideUnchanged s (advance s) := by
  cases busy_row hb hn with
  | writes v after hv =>
    rw [hv]
    rcases writeStep_cases v after s with ⟨_, hw⟩ | ⟨e, _, hw⟩ <;> rw [hw]
    · exact ((ran_afterWrite s.addr v s).trans (ran_setPhase after _)).host
    · exact ((ran_afterFailedWrite s.addr v e s).done (.err e)).host
  | delays n after hv =>
    rw [hv]
    exact ((ran_delay n s).trans (ran_setPhase after _)).host
  | ends n hv =>
    rw [hv]
    exact ((ran_delay n s).done .ok).host

theorem step_lifecycleNext {s t : State} (h : step s = .next t) : LifecycleNext s t := by
  rcases step_next h with ⟨_, hi⟩ | ⟨hb, hn, rfl⟩
  · exact hi.lifecycleNext
  · have host := advance_host hb hn
    rcases (advance_oneCall hb hn).outcome with ⟨hb', _, ha⟩ | ⟨hidle, r, ha⟩
    · rw [afterAdvance_busy hb']
      exact .unanswered host.lifecycle ha
    · rw [afterAdvance_idle hidle]
      exact .takeAnswer host.lifecycle host.current ha

/-- After an error inside `enable` there is no handle: a step that sets the tag otherwise gives no such answer. -/
theorem LifecycleNext.gone_of_err {s t : State} {e : ErrorValue} (h : LifecycleNext s t)
    (hc : s.current = some (.op .enable)) (ha : t.answers = s.answers ++ [.err e]) : t.lifecycle = .gone := by
  cases h with
  | kept _ noError => exact absurd ha (noError hc e)
  | enableFailed tag => exact tag
  | dropped tag => exact tag
  | constructed _ calls =>
    obtain ⟨_, _, _, _, hnone, _⟩ := calls
    rw [hc] at hnone
    cases hnone
  | marked _ _ _ _ answers => simp [ha] at answers

/-- Settles O37. -/
theorem lifecycleHasNoWayBack : Obligations.LifecycleHasNoWayBack := by
  refine fun s t h => ⟨?_, fun hc ⟨e, ha⟩ => (step_lifecycleNext h).gone_of_err hc ha⟩
  cases step_lifecycleNext h with
  | kept tag => exact .inl tag
  | enableFailed tag current e answer => exact .inr (.inl ⟨tag, .inr ⟨current, e, answer⟩⟩)
  | dropped tag rest calls => exact .inr (.inl ⟨tag, .inl ⟨rest, calls⟩⟩)
  | constructed tag calls => exact .inr (.inr (.inl ⟨tag, calls⟩))
  | marked tag hp rest program _ => exact .inr (.inr (.inr ⟨tag, hp, rest, program⟩))

end Sys2Proof.Machine

/-! The lifecycle gate: on the calls of the application, and on the operations issued since reset. -/

namespace Sys2Proof.Machine

/-! ### The gate on the calls -/

/-- Which operations a lifecycle state admits, as R158 says it. -/
theorem admits_iff (l : Lifecycle) (o : HostOp) :
    l.admits o = true ↔ o = .enable ∧ l = .uninitialized ∨ o ≠ .enable ∧ l = .initialized := by
  cases l with
  | uninitialized | initialized => cases o <;> simp [Lifecycle.admits, gateAdmits]
  | gone => simp [Lifecycle.admits, gateAdmits]

/-- A list of command words holds no reserved word just if each of them decodes to an operation. -/
theorem firstReserved_eq_none_iff (ws : List Word) :
    firstReserved ws = none ↔ ∀ w ∈ ws, ∃ i, decode w = .instr i := by
  induction ws with
  | nil => simp [firstReserved]
  | cons w ws ih => cases hd : decode w <;> simp [firstReserved, hd, ih]

/-- A list with a reserved word is refused as a whole. -/
theorem startCall_commandWords_reserved {s : State} {ws : List Word} (hl : s.lifecycle ≠ .gone)
    (h : ∃ w ∈ ws, ∃ why, decode w = .reserved why) :
    ∃ why, startCall (.commandWords ws) s = .refused (.reservedWord why) := by
  cases hr : firstReserved ws with
  | some why => exact ⟨why, by simp [startCall, hl, loadWords, hr]⟩
  | none =>
    obtain ⟨w, hw, why, hd⟩ := h
    obtain ⟨i, hi⟩ := (firstReserved_eq_none_iff ws).1 hr w hw
    rw [hd] at hi
    cases hi

theorem startCall_commandWords_instrs {s : State} {ws : List Word} (hl : s.lifecycle ≠ .gone)
    (h : ∀ w ∈ ws, ∃ i, decode w = .instr i) :
    startCall (.commandWords ws) s =
      .next { s with program := ws.map .issue, current := some (.commandWords ws) } := by
  simp [startCall, hl, loadWords, (firstReserved_eq_none_iff ws).2 h]

/-- A configuration the builder accepts is constructed. -/
theorem construct_of_wellFormed {c : Configuration} (h : c.wellFormed = true) (s : State) :
    ∃ t, construct c s = .next t := by
  obtain ⟨addr, rows, cell⟩ := c
  obtain ⟨haddr, hrows⟩ := Bool.and_eq_true_iff.1 h
  have ⟨a, ha⟩ : ∃ a, configuredAddr addr = some a := by
    cases addr with
    | none => exact ⟨_, rfl⟩
    | some a => exact Option.isSome_iff_exists.1 haddr
  have ⟨r, hr⟩ : ∃ r, configuredRows rows = some r := by
    cases rows with
    | none => exact ⟨_, rfl⟩
    | some r => exact Option.isSome_iff_exists.1 hrows
  exact ⟨constructed a r (cell.getD .dots5x8) s, by simp [construct, ha, hr]⟩

theorem admits_of_wellFormedCalls {l : Lifecycle} {o : HostOp} {rest : List HostCall}
    (h : wellFormedCalls l (.op o :: rest) = true) : l.admits o = true := by
  cases o <;> exact (Bool.and_eq_true_iff.1 h).1

/-- The first call of a well-formed sequence begins. -/
theorem startCall_of_wellFormedCalls {c : HostCall} {rest : List HostCall} {s : State}
    (h : wellFormedCalls s.lifecycle (c :: rest) = true) : ∃ t, startCall c s = .next t := by
  cases c with
  | construct c => exact construct_of_wellFormed (Bool.and_eq_true_iff.1 h).1 s
  | op o => exact ⟨_, if_pos (admits_of_wellFormedCalls h)⟩
  | commandWords ws => cases h
  | drop => exact ⟨dropped s, if_neg (by simpa using (Bool.and_eq_true_iff.1 h).1)⟩

/-- A driver between two calls is not stopped by a well-formed sequence of calls. -/
theorem step_of_wellFormedCalls {s : State} (hp : s.phase = .idle) (hprog : s.program = []) (hc : s.current = none)
    (h : wellFormedCalls s.lifecycle s.calls = true) : ∃ t, step s = .next t := by
  cases hcalls : s.calls with
  | nil => exact ⟨s, by simp [step, hp, idleStep, hprog, nextCall, hc, hcalls]⟩
  | cons c rest =>
    rw [hcalls] at h
    obtain ⟨t, ht⟩ := startCall_of_wellFormedCalls (s := { s with calls := rest }) h
    exact ⟨t, (step_calls ⟨hp, hprog, hc, hcalls⟩).trans ht⟩

/-! ### What the tasks of `enable` still issue -/

section Enable

variable (p : Params) (rows : RowCount) (cell : CellSize)

/-- What the tasks of `enable` find as on a new Handle: the construction, and the flags that none of them writes. -/
structure InEnable (s : State) : Prop where
  params : s.params = p
  rows : s.rows = rows
  cell : s.cell = cell
  autoShift : s.em.autoShift = false
  cursor : s.dc.cursor = false
  blink : s.dc.blink = false

/-- The tasks issue these operations, one after another, when every write is answered `ok`: a call of an operation of the
driver issues what its expansion issues, and leaves what `InEnable` says as it is. -/
inductive Pending : List HostTask → List Instr → Prop where
  | nil : Pending [] []
  | issue (i : Instr) {ts : List HostTask} {is : List Instr} (h : Pending ts is) : Pending (issueOp i :: ts) (i :: is)
  | mark {ts : List HostTask} {is : List Instr} (h : Pending ts is) : Pending (.markInitialized :: ts) is
  | call (o : HostOp) {ts : List HostTask} {is : List Instr}
      (keeps : ∀ s, InEnable p rows cell s → InEnable p rows cell (updateAccumulators o s))
      (h : ∀ s, InEnable p rows cell s → Pending (expansion o (updateAccumulators o s) ++ ts) is) :
      Pending (.call o :: ts) is

variable {p rows cell}

theorem Pending.append {ts ts' : List HostTask} {is is' : List Instr} (h : Pending p rows cell ts is)
    (h' : Pending p rows cell ts' is') : Pending p rows cell (ts ++ ts') (is ++ is') := by
  induction h with
  | nil => exact h'
  | issue i _ ih => exact .issue i ih
  | mark _ ih => exact .mark ih
  | call o keeps _ ih => exact .call o keeps fun s hs => List.append_assoc .. ▸ ih s hs

theorem pending_issueOp (i : Instr) : Pending p rows cell [issueOp i] [i] := .issue i .nil

theorem pending_gapTasks (g : Option WaitCount) : Pending p rows cell (gapTasks g) (gapOps g) := by
  cases g with
  | none => exact .nil
  | some d => exact pending_issueOp (.wait d)

/-- A call whose expansion depends only on what `InEnable` fixes. -/
theorem pending_call {o : HostOp} {is : List Instr}
    (h : ∀ s, InEnable p rows cell s →
      InEnable p rows cell (updateAccumulators o s) ∧ Pending p rows cell (expansion o (updateAccumulators o s)) is) :
    Pending p rows cell [.call o] is :=
  .call o (fun s hs => (h s hs).1) fun s hs => by rw [List.append_nil]; exact (h s hs).2

theorem pending_leftToRight : Pending p rows cell [.call .leftToRight] [.sendC 0x06#8] := by
  refine pending_call fun s hs => ⟨⟨hs.params, hs.rows, hs.cell, hs.autoShift, hs.cursor, hs.blink⟩, ?_⟩
  have hem : (updateAccumulators .leftToRight s).em = ⟨true, false⟩ := congrArg (EntryMode.mk true) hs.autoShift
  rw [expansion, hem]
  exact pending_issueOp _

theorem pending_backlightOn :
    Pending p rows cell [.call .backlightOn] [.setbl true, .sendC p.blRefresh.whenOn] := by
  refine pending_call fun s hs => ⟨hs, ?_⟩
  obtain rfl := hs.params
  exact .issue _ (pending_issueOp _)

theorem pending_renderingOn : Pending p rows cell [.call .renderingOn] [.sendC 0x0C#8] := by
  refine pending_call fun s hs => ⟨⟨hs.params, hs.rows, hs.cell, hs.autoShift, hs.cursor, hs.blink⟩, ?_⟩
  have hdc : (updateAccumulators .renderingOn s).dc = ⟨true, false, false⟩ :=
    congrArg₂ (DisplayControl.mk true) hs.cursor hs.blink
  rw [expansion, hdc]
  exact pending_issueOp _

theorem pending_clear : Pending p rows cell [.call .clear] [.sendC 0x01#8, .sendC 0x80#8] := by
  refine pending_call fun s hs => ⟨hs, .issue _ (pending_call fun t ht => ⟨ht, ?_⟩)⟩
  rw [← cursorByte_zero t.rows]
  exact pending_issueOp _

/-- The defaults of `enable`: the tag, then four operations of the driver (R112). -/
theorem pending_defaults :
    Pending p rows cell [.markInitialized, .call .leftToRight, .call .backlightOn, .call .renderingOn, .call .clear]
      [.sendC 0x06#8, .setbl true, .sendC p.blRefresh.whenOn, .sendC 0x0C#8, .sendC 0x01#8, .sendC 0x80#8] :=
  .mark (pending_leftToRight.append (pending_backlightOn.append (pending_renderingOn.append pending_clear)))

theorem pending_enableTasks : Pending p rows cell (enableTasks p rows cell) (enableOps p rows cell) :=
  pending_issueOp (.wait _)
    |>.append (pending_issueOp (.nib _)) |>.append (pending_gapTasks _)
    |>.append (pending_issueOp (.nib _)) |>.append (pending_gapTasks _)
    |>.append (pending_issueOp (.nib _)) |>.append (pending_gapTasks _)
    |>.append (pending_issueOp (.nib _)) |>.append (pending_gapTasks _)
    |>.append (pending_issueOp (.sendC _)) |>.append (pending_gapTasks _)
    |>.append pending_defaults

theorem pending_enable : Pending p rows cell [.call .enable] (enableOps p rows cell) :=
  pending_call fun s hs => ⟨hs, by
    obtain ⟨rfl, rfl, rfl, _⟩ := hs
    exact pending_enableTasks⟩

end Enable

/-- Whether `InEnable` holds is told from the construction and the accumulators. -/
theorem InEnable.congr {p : Params} {rows : RowCount} {cell : CellSize} {s t : State} (h : InEnable p rows cell s)
    (hp : t.params = s.params) (hr : t.rows = s.rows) (hc : t.cell = s.cell) (hem : t.em = s.em) (hdc : t.dc = s.dc) :
    InEnable p rows cell t :=
  ⟨hp.trans h.params, hr.trans h.rows, hc.trans h.cell, by rw [hem, h.autoShift], by rw [hdc, h.cursor],
    by rw [hdc, h.blink]⟩

@[simp] theorem begun_current (o : HostOp) (rest : List HostTask) (s : State) :
    (begun o rest s).current = s.current := by cases o <;> rfl

/-! ### How far `enable` has come -/

/-- Every operation was answered `ok`. -/
def AllOk (h : List (Instr × Reply)) : Prop := ∀ i r, (i, r) ∈ h → r = .ok

theorem AllOk.concat {h : List (Instr × Reply)} (ok : AllOk h) (i : Instr) : AllOk (h ++ [(i, .ok)]) := by
  intro j r hm
  rcases List.mem_append.1 hm with hm | hm
  · exact ok j r hm
  · exact (Prod.mk.inj (List.mem_singleton.1 hm)).2

/-- An error in a list stands behind all that was answered `ok` at its beginning. -/
theorem AllOk.length_le {whole later before after : List (Instr × Reply)} {i : Instr} {e : ErrorValue}
    (ok : AllOk whole) (h : whole ++ later = before ++ (i, .err e) :: after) : whole.length ≤ before.length := by
  rcases List.append_eq_append_iff.1 h with ⟨others, rfl, _⟩ | ⟨others, rfl, hothers⟩
  · simp
  · cases others with
    | nil => simp
    | cons x others =>
      obtain ⟨rfl, _⟩ := List.cons.inj hothers
      cases ok i (.err e) (by simp)

/-- The driver between two calls, with a handle in this lifecycle state. -/
structure Between (l : Lifecycle) (s : State) : Prop where
  program : s.program = []
  current : s.current = none
  lifecycle : s.lifecycle = l

/-- Between two calls the driver waits, or takes up the call of an operation that the gate admits. -/
theorem Between.step {l : Lifecycle} {s t : State} (b : Between l s) (hp : s.phase = .idle) (hs : step s = .next t)
    (hd : CallsDriver s) : t = s ∨ ∃ o rest, l.admits o = true ∧ t = takenUp o rest s := by
  obtain ⟨hprog, hc, rfl⟩ := b
  cases idle_next hp hs with
  | offered w rest i h => simp [OffersNext, hprog] at h
  | began o rest h => simp [BeginsNext, hprog] at h
  | marked rest _ h => simp [hprog] at h
  | finished c _ _ h => simp [hc] at h
  | constructs c rest a r h => simpa using hd _ _ h
  | called o rest h ha => exact .inr ⟨o, rest, ha, rfl⟩
  | words ws rest h => simpa using hd _ _ h
  | drops rest h => simpa using hd _ _ h
  | waits => exact .inl rfl

section Stage

variable (p : Params) (rows : RowCount) (cell : CellSize)

/-- How far the `enable` of a new Handle has come when the operations of `h` have been issued. -/
inductive EnableStage (h : List (Instr × Reply)) (s : State) : Prop where
  /-- It has not been called. -/
  | notCalled (hist : h = []) (between : Between .uninitialized s) (setup : InEnable p rows cell s)
  /-- It is in progress, and has the operations of `later` still to issue. -/
  | inProgress (later : List Instr) (ok : AllOk h) (ops : h.map Prod.fst ++ later = enableOps p rows cell)
      (pending : Pending p rows cell s.program later) (current : s.current = some (.op .enable))
      (setup : InEnable p rows cell s)
  /-- Its last operation was answered `err(e)`, and there is no handle. -/
  | failed (before : List (Instr × Reply)) (i : Instr) (e : ErrorValue) (hist : h = before ++ [(i, .err e)])
      (ok : AllOk before) (ops : h.map Prod.fst <+: enableOps p rows cell) (between : Between .gone s)
  /-- All its operations were answered `ok`. -/
  | complete (whole later : List (Instr × Reply)) (hist : h = whole ++ later) (ok : AllOk whole)
      (ops : whole.map Prod.fst = enableOps p rows cell)

variable {p rows cell} {h : List (Instr × Reply)} {s t : State}

/-- The driver's moves that offer no command word. -/
theorem EnableStage.quiet (stage : EnableStage p rows cell h s) (hp : s.phase = .idle) (hs : step s = .next t)
    (hn : ∀ w rest, ¬OffersNext s w rest) (hd : CallsDriver s) : EnableStage p rows cell h t := by
  cases stage with
  | notCalled hist between setup =>
    rcases between.step hp hs hd with rfl | ⟨o, rest, ha, rfl⟩
    · exact .notCalled hist between setup
    · obtain rfl : o = .enable := by simpa using (admits_iff _ o).1 ha
      subst hist
      exact .inProgress _ (fun _ _ hm => nomatch hm) rfl pending_enable rfl (setup.congr rfl rfl rfl rfl rfl)
  | inProgress later ok ops pending current setup =>
    cases idle_next hp hs with
    | offered w rest i ho => exact absurd ho (hn w rest)
    | began o rest hb =>
      rw [hb.2] at pending
      cases pending with
      | call _ keeps pending =>
        have setup' : InEnable p rows cell { s with program := rest } := setup.congr rfl rfl rfl rfl rfl
        exact .inProgress later ok ops (pending _ setup') (by rw [begun_current, current])
          ((keeps _ setup').congr rfl rfl rfl rfl rfl)
    | marked rest _ hm =>
      rw [hm] at pending
      cases pending with
      | mark pending => exact .inProgress later ok ops pending current (setup.congr rfl rfl rfl rfl rfl)
    | finished c _ hprog =>
      rw [hprog] at pending
      cases pending
      exact .complete h [] (List.append_nil h).symm ok ((List.append_nil _).symm.trans ops)
    | constructs _ _ _ _ hc | called _ _ hc | words _ _ hc | drops _ hc => simp [CallsNext, current] at hc
    | waits _ _ hc => simp [current] at hc
  | failed before i e hist ok ops between =>
    rcases between.step hp hs hd with rfl | ⟨o, rest, ha, rfl⟩
    · exact .failed before i e hist ok ops between
    · simp [admits_iff] at ha
  | complete whole later hist ok ops => exact .complete whole later hist ok ops

/-- An operation of `enable` was offered and answered. -/
theorem EnableStage.issued (stage : EnableStage p rows cell h s) {w : Word} {rest : List HostTask} {i : Instr}
    {r : Reply} (ho : OffersNext s w rest) (hw : decode w = .instr i) (hs : step s = .next t)
    (ha : t.answers = s.answers ++ [r]) : EnableStage p rows cell (h ++ [(i, r)]) t := by
  obtain ⟨hp, hprog⟩ := ho
  cases stage with
  | notCalled _ between => simp [between.program] at hprog
  | failed _ _ _ _ _ _ between => simp [between.program] at hprog
  | complete whole later hist ok ops =>
    exact .complete whole (later ++ [(i, r)]) (by rw [hist, List.append_assoc]) ok ops
  | inProgress later ok ops pending current setup =>
    rw [hprog] at pending
    cases pending with
    | issue j pending =>
      obtain rfl : j = i := by simpa [decode_eq_instr_iff.2 rfl] using hw
      rw [step_offers ⟨hp, hprog⟩ hw] at hs
      cases hs
      have host := bodyOf_host j (s := { s with program := rest }) hp
      have ha : (bodyOf j { s with program := rest }).answers = s.answers ++ [r] := by simpa using ha
      cases r with
      | ok =>
        rw [takeAnswer_ok ha]
        refine .inProgress _ (ok.concat j) ?_ (by rw [host.program]; exact pending) (host.current.trans current)
          (setup.congr host.params host.rows host.cell host.em host.dc)
        simpa using ops
      | err e =>
        rw [takeAnswer_err ha]
        exact .failed h j e rfl ok ⟨_, by simpa using ops⟩ ⟨rfl, rfl, if_pos (host.current.trans current)⟩

theorem EnableStage.issues (stage : EnableStage p rows cell h s) {h' : List (Instr × Reply)} (hp : s.phase = .idle)
    (hi : Issues s h' t) : EnableStage p rows cell (h ++ h') t := by
  induction hi generalizing h with
  | none => rwa [List.append_nil]
  | quiet s m _ _ hs hn hd _ ih => exact ih (stage.quiet hp hs hn hd) (driverKept_step hp hs hd).phase
  | issued s m _ w rest i r h' ho hw hs ha _ ih =>
    rw [← List.singleton_append, ← List.append_assoc]
    exact ih (stage.issued ho hw hs ha) (driverKept_step hp hs (callsDriver_of_offers ho)).phase

/-- What has been issued is a beginning of the expansion of `enable`, or goes on from the whole of it. -/
theorem EnableStage.ops_or (stage : EnableStage p rows cell h s) :
    h.map Prod.fst <+: enableOps p rows cell ∨ enableOps p rows cell <+: h.map Prod.fst := by
  cases stage with
  | notCalled hist => exact .inl (by simp [hist])
  | inProgress later _ ops => exact .inl ⟨later, ops⟩
  | failed _ _ _ _ _ ops => exact .inl ops
  | complete whole later hist _ ops => exact .inr ⟨later.map Prod.fst, by rw [hist, List.map_append, ops]⟩

/-- An error inside the expansion of `enable` is the end of the history. -/
theorem EnableStage.err_last (stage : EnableStage p rows cell h s) {before after : List (Instr × Reply)} {i : Instr}
    {e : ErrorValue} (hh : h = before ++ (i, .err e) :: after)
    (hlt : before.length < (enableOps p rows cell).length) : after = [] := by
  cases stage with
  | notCalled hist => simp [hist] at hh
  | inProgress _ ok => cases ok i (.err e) (by simp [hh])
  | failed before' i' e' hist ok =>
    have hle := ok.length_le (hist.symm.trans hh)
    have hlen := congrArg List.length (hist.symm.trans hh)
    simp only [List.length_append, List.length_cons, List.length_nil] at hlen
    exact List.length_eq_zero_iff.1 (by omega)
  | complete whole later hist ok ops =>
    have hle := ok.length_le (hist.symm.trans hh)
    rw [← ops, List.length_map] at hlt
    omega

end Stage

/-- A new Handle has not been called. -/
theorem FreshHandle.enableStage {p : Params} {rows : RowCount} {cell : CellSize} {s : State}
    (f : FreshHandle p rows cell s) : EnableStage p rows cell [] s :=
  .notCalled rfl ⟨f.program, f.current, f.lifecycle⟩
    ⟨f.params, f.rows, f.cell, by rw [f.em], by rw [f.dc], by rw [f.dc]⟩

/-- A well-formed history leaves `enable` at one of its stages. -/
theorem WellFormedHistory.enableStage {p : Params} {rows : RowCount} {cell : CellSize} {h : List (Instr × Reply)}
    (hh : WellFormedHistory p rows cell h) : ∃ s, EnableStage p rows cell h s :=
  have ⟨_, t, fresh, hi⟩ := hh
  ⟨t, fresh.enableStage.issues fresh.phase hi⟩

/-- Settles O36: the gate on each kind of call, and the stages of `enable` along a history. -/
theorem lifecycleGateOnCalls : Obligations.LifecycleGateOnCalls := by
  refine ⟨fun s o rest hc => ⟨fun h => ?_, fun h => ?_⟩, fun s rest hc => ⟨fun h => ?_, fun h => ?_⟩,
    fun s ws rest hc hl => ⟨fun h => ?_, fun h => ?_⟩, fun s => step_of_wellFormedCalls,
    fun p rows cell h hh => ?_⟩
  · exact (step_calls hc).trans (if_pos ((admits_iff _ o).2 h))
  · exact (step_calls hc).trans (if_neg (mt (admits_iff _ o).1 h))
  · exact (step_calls hc).trans (if_neg h)
  · exact (step_calls hc).trans (if_pos h)
  · rw [step_calls hc]
    exact startCall_commandWords_reserved hl h
  · exact (step_calls hc).trans (startCall_commandWords_instrs hl h)
  · obtain ⟨s, stage⟩ := hh.enableStage
    exact ⟨stage.ops_or, fun before i e after => stage.err_last⟩

end Sys2Proof.Machine

/-! Reset and hazards: the delays each operation requests, what a construction resets, and what `enable` comes to when
every write is answered `ok`. -/

namespace Sys2Proof.Machine

/-! ### The bus writes and the delays of an operation -/

theorem writeCount_append (evs evs' : List Event) : writeCount (evs ++ evs') = writeCount evs + writeCount evs' := by
  induction evs with
  | nil => exact (Nat.zero_add _).symm
  | cons ev evs ih => cases ev <;> simp [writeCount, ih, Nat.add_right_comm]

theorem writeCount_okEvents (i : Instr) (s : State) : writeCount (okEvents i s) = busWritesOf i := by cases i <;> rfl

theorem delayCount_okEvents (i : Instr) (s : State) : delayCount (okEvents i s) = delayCallsOf i := by cases i <;> rfl

theorem requestedDelay_okEvents (i : Instr) (s : State) :
    requestedDelay (okEvents i s) = requestedDelayOf s.params i := by
  cases i with
  | sendC b | sendD b => exact requestedDelay_sendEvents s b _
  | nib n => exact requestedDelay_pulseEvents s _
  | setbl | wait => rfl

/-- Settles O24: the events of the completed operation are `okEvents`, counted kind by kind. -/
theorem requestedDelaysOfOperations : Obligations.RequestedDelaysOfOperations := by
  intro i s hp hr
  have done := bodyOf_done_of_repliesOk hp hr
  exact ⟨bodyOf i s, okEvents i s, exec_idle i hp, done.answers, done.trace, writeCount_okEvents i s,
    delayCount_okEvents i s, requestedDelay_okEvents i s⟩

/-! ### Construction -/

theorem configuredAddr_eq (a : Option Nat) : configuredAddr a = busAddrOfNat (a.getD 0x27) := by cases a <;> rfl

theorem configuredRows_eq (r : Option Nat) : configuredRows r = rowCountOfNat (r.getD 1) := by cases r <;> rfl

theorem busAddrOfNat_of_le {n : Nat} (h : n ≤ 0x7F) : ∃ a, busAddrOfNat n = some a ∧ a.toNat = n :=
  ⟨BitVec.ofNat 7 n, if_pos (Nat.lt_succ_of_le h), Nat.mod_eq_of_lt (Nat.lt_succ_of_le h)⟩

theorem busAddrOfNat_of_gt {n : Nat} (h : 0x7F < n) : busAddrOfNat n = none := if_neg (Nat.not_lt.2 h)

theorem rowCountOfNat_of_mem {n : Nat} (h1 : 1 ≤ n) (h4 : n ≤ 4) :
    ∃ r, rowCountOfNat n = some r ∧ rowCountNat r = n := by
  match n with
  | 1 | 2 | 3 | 4 => exact ⟨_, rfl, rfl⟩
  | n + 5 => omega

theorem rowCountOfNat_of_not_mem {n : Nat} (h : n = 0 ∨ 4 < n) : rowCountOfNat n = none := by
  match n with
  | 0 | n + 5 => rfl
  | 1 | 2 | 3 | 4 => omega

/-- A configuration with either value out of range is refused. -/
theorem construct_refused {c : Configuration} (h : configuredAddr c.addr = none ∨ configuredRows c.rows = none)
    (s : State) : construct c s = .refused .badConfiguration := by
  unfold construct
  split
  next ha hr => simp [ha, hr] at h
  all_goals rfl

/-- A construction for the address of the Handle before leaves the devices behind it as they were (R170). -/
theorem constructed_busSide {addr : BusAddr} {s : State} (h : addr = s.addr) (rows : RowCount) (cell : CellSize)
    (rest : List HostCall) :
    BusSideUnchanged s (constructed addr rows cell { s with calls := rest }) ∧
    (constructed addr rows cell { s with calls := rest }).waited = s.waited := by
  have same : devicesAt addr { s with calls := rest } = { s with calls := rest } := if_pos h
  exact ⟨⟨by simp [constructed, same], by simp [constructed, same], rfl, rfl⟩, by simp [constructed, same]⟩

/-- Settles O51: both values are in range and the Handle is constructed, or one is not and the call is refused. -/
theorem constructionResetsTheBlockAlone : Obligations.ConstructionResetsTheBlockAlone := by
  intro s a r c rest hc
  have hstep : step s = construct ⟨a, r, c⟩ { s with calls := rest } := step_calls hc
  rw [hstep]
  refine ⟨fun ha h1 h4 => ?_, fun h => construct_refused ?_ _⟩
  · obtain ⟨addr, haddr, hnat⟩ := busAddrOfNat_of_le ha
    obtain ⟨rows, hrows, hcount⟩ := rowCountOfNat_of_mem h1 h4
    refine ⟨constructed addr rows (c.getD .dots5x8) { s with calls := rest }, ?_, hnat, hcount, rfl, rfl, rfl, rfl, rfl,
      rfl, rfl, rfl, rfl, fun hsame => constructed_busSide hsame rows _ rest, rfl⟩
    rw [construct, configuredAddr_eq, haddr, configuredRows_eq, hrows]
  · rw [configuredAddr_eq, configuredRows_eq]
    exact h.imp busAddrOfNat_of_gt rowCountOfNat_of_not_mem

/-! ### What a call makes of the settings when every write is answered `ok` -/

/-- What the operations of a call read and set: the construction, the tag, the flags, and the byte on the lines. -/
structure Settings where
  params : Params
  rows : RowCount
  cell : CellSize
  lifecycle : Lifecycle
  bl : Bool
  dc : DisplayControl
  em : EntryMode
  p : Byte

/-- The settings a state holds. -/
def settingsOf (s : State) : Settings := ⟨s.params, s.rows, s.cell, s.lifecycle, s.bl, s.dc, s.em, s.p⟩

/-- The settings after an operation none of whose writes fails: `P` holds its last frame, and SETBL writes `BL`. -/
def Settings.after (a : Settings) : Instr → Settings
  | .sendC b => { a with p := frame a.params.layout (lowNibble b) .command a.bl }
  | .sendD b => { a with p := frame a.params.layout (lowNibble b) .data a.bl }
  | .nib n => { a with p := frame a.params.layout n .command a.bl }
  | .setbl f => { a with bl := f }
  | .wait _ => a

/-- Of the settings an operation of the block can change `BL` and `P` alone. -/
theorem HostSideUnchanged.settingsOf_eq {s t : State} (h : HostSideUnchanged s t) :
    settingsOf t = { settingsOf s with bl := t.bl, p := t.p } := by
  simp [settingsOf, h.params, h.rows, h.cell, h.lifecycle, h.dc, h.em]

theorem settingsOf_bodyOf {i : Instr} {s : State} (hp : s.phase = .idle) (hr : RepliesOk s (busWritesOf i)) :
    settingsOf (bodyOf i s) = (settingsOf s).after i := by
  rw [(bodyOf_host i hp).settingsOf_eq, (bodyOf_done i hp).1]
  cases i with
  | sendC b | sendD b => rw [bodyOf, (send_done_of_repliesOk hr).2]; rfl
  | nib n => rw [bodyOf, (sendNibble_done_of_repliesOk hr).2]; rfl
  | setbl f | wait d => rfl

/-- How many bus writes the operations make when none fails. -/
def writesOf (is : List Instr) : Nat := (is.map busWritesOf).sum

theorem writesOf_append (is is' : List Instr) : writesOf (is ++ is') = writesOf is + writesOf is' := by
  simp [writesOf]

/-- The driver has gone from `s` to `t` within one call: it issued these operations, all of them answered `ok`. -/
structure IssuedOk (s t : State) (is : List Instr) : Prop extends
    WithinCall s t (is.map fun i => (i, .ok)) (writesOf is) where
  trace : ∃ evs, t.trace = s.trace ++ evs ∧ writeCount evs = writesOf is

/-- Within a call, no operation has been issued yet. -/
theorem WithinCall.issuedOk_nil {s t : State} (w : WithinCall s t [] 0) (h : t.trace = s.trace) : IssuedOk s t [] :=
  ⟨w, [], by rw [h, List.append_nil], rfl⟩

theorem IssuedOk.trans {s t u : State} {is is' : List Instr} (a : IssuedOk s t is) (b : IssuedOk t u is') :
    IssuedOk s u (is ++ is') where
  toWithinCall := by
    rw [List.map_append, writesOf_append]
    exact a.toWithinCall.trans b.toWithinCall
  trace := by
    obtain ⟨evs, htrace, hcount⟩ := a.trace
    obtain ⟨evs', htrace', hcount'⟩ := b.trace
    exact ⟨evs ++ evs', by rw [htrace', htrace, List.append_assoc], by
      rw [writeCount_append, writesOf_append, hcount, hcount']⟩

/-- From the settings `a`, the tasks of a call issue these operations and lead to the settings `b`, when every write is
answered `ok`. -/
def TasksLead (a : Settings) (tasks : List HostTask) (is : List Instr) (b : Settings) : Prop :=
  ∀ (s : State) (rest : List HostTask), s.phase = .idle → s.program = tasks ++ rest → settingsOf s = a →
    RepliesOk s (writesOf is) → ∃ t, IssuedOk s t is ∧ t.program = rest ∧ settingsOf t = b

theorem tasksLead_nil (a : Settings) : TasksLead a [] [] a :=
  fun s _ hp hprog ha _ => ⟨s, (WithinCall.refl hp).issuedOk_nil rfl, hprog, ha⟩

theorem TasksLead.append {a b c : Settings} {ts ts' : List HostTask} {is is' : List Instr} (h : TasksLead a ts is b)
    (h' : TasksLead b ts' is' c) : TasksLead a (ts ++ ts') (is ++ is') c := by
  intro s rest hp hprog ha hr
  rw [List.append_assoc] at hprog
  rw [writesOf_append] at hr
  obtain ⟨t, first, ht, hb⟩ := h s _ hp hprog ha (repliesOk_mono hr (Nat.le_add_right ..))
  obtain ⟨u, others, hu, hc⟩ := h' t rest first.phase ht hb (first.repliesOk hr)
  exact ⟨u, first.trans others, hu, hc⟩

theorem tasksLead_issueOp (a : Settings) (i : Instr) : TasksLead a [issueOp i] [i] (a.after i) := by
  rintro s rest hp hprog rfl hr
  have hp' : ({ s with program := rest } : State).phase = .idle := hp
  have hr' : RepliesOk { s with program := rest } (busWritesOf i) := hr
  have done := bodyOf_done_of_repliesOk hp' hr'
  have hword : decode (encode i) = .instr i := decode_eq_instr_iff.2 rfl
  have hstep := step_offers (rest := rest) ⟨hp, hprog⟩ hword
  rw [takeAnswer_ok done.answers] at hstep
  have hi : Issues s [(i, .ok)] _ := .issued s _ _ _ rest i .ok [] ⟨hp, hprog⟩ hword hstep done.answers (.none _)
  exact ⟨_, ⟨done.withinCall hi, _, done.trace, writeCount_okEvents i _⟩, done.host.program, settingsOf_bodyOf hp' hr'⟩

theorem tasksLead_markInitialized (a : Settings) :
    TasksLead a [.markInitialized] [] { a with lifecycle := .initialized } := by
  rintro s rest hp hprog rfl _
  have hstep : step s = .next { s with lifecycle := .initialized, program := rest } := by
    simp [step, hp, idleStep, hprog, runTask]
  have hi := issues_nothing hstep (by simp [hprog]) (callsDriver_of_program hprog)
  exact ⟨_, WithinCall.issuedOk_nil ⟨hi, hp, rfl, rfl, rfl, rfl, rfl⟩ rfl, rfl, rfl⟩

/-- A call of an operation of the driver updates its accumulator, and leads where its expansion then leads. -/
theorem tasksLead_call {o : HostOp} {a b c : Settings} {is : List Instr} (hw : ∀ rows, o.wellFormed rows = true)
    (hb : ∀ s, settingsOf s = a → settingsOf (updateAccumulators o s) = b)
    (he : ∀ s, settingsOf s = b → TasksLead b (expansion o s) is c) : TasksLead a [.call o] is c := by
  intro s rest hp hprog ha hr
  have w := withinCall_begun ⟨hp, hprog⟩ (hw s.rows)
  have hset : settingsOf (begun o rest s) = b := hb { s with program := rest } ha
  obtain ⟨t, others, ht, hc⟩ := he _ (hb { s with program := rest } ha) (begun o rest s) rest w.phase rfl hset
    (w.repliesOk (by rwa [Nat.zero_add]))
  exact ⟨t, (w.issuedOk_nil (begun_trace o rest s)).trans others, ht, hc⟩

/-! ### `enable` with every write answered `ok` -/

theorem tasksLead_gapTasks (a : Settings) (g : Option WaitCount) : TasksLead a (gapTasks g) (gapOps g) a := by
  cases g with
  | none => exact tasksLead_nil a
  | some d => exact tasksLead_issueOp a (.wait d)

theorem tasksLead_leftToRight {a : Settings} (h : a.em.autoShift = false) :
    TasksLead a [.call .leftToRight] [.sendC 0x06#8] ({ a with em := ⟨true, false⟩ }.after (.sendC 0x06#8)) := by
  refine tasksLead_call (fun _ => rfl) (b := { a with em := ⟨true, false⟩ }) (fun s hs => ?_) fun s hs => ?_
  · subst hs
    rw [← h]
    rfl
  · rw [expansion, show s.em = ⟨true, false⟩ from congrArg Settings.em hs]
    exact tasksLead_issueOp _ (.sendC 0x06#8)

theorem tasksLead_backlightOn (a : Settings) :
    TasksLead a [.call .backlightOn] [.setbl true, .sendC a.params.blRefresh.whenOn]
      ((a.after (.setbl true)).after (.sendC a.params.blRefresh.whenOn)) := by
  refine tasksLead_call (fun _ => rfl) (fun _ hs => hs) fun s hs => ?_
  subst hs
  exact (tasksLead_issueOp _ (.setbl true)).append (tasksLead_issueOp _ (.sendC _))

theorem tasksLead_renderingOn {a : Settings} (hc : a.dc.cursor = false) (hb : a.dc.blink = false) :
    TasksLead a [.call .renderingOn] [.sendC 0x0C#8]
      ({ a with dc := ⟨true, false, false⟩ }.after (.sendC 0x0C#8)) := by
  refine tasksLead_call (fun _ => rfl) (b := { a with dc := ⟨true, false, false⟩ }) (fun s hs => ?_) fun s hs => ?_
  · subst hs
    exact congrArg (fun dc => { settingsOf s with dc := dc }) (congrArg₂ (DisplayControl.mk true) hc hb)
  · rw [expansion, show s.dc = ⟨true, false, false⟩ from congrArg Settings.dc hs]
    exact tasksLead_issueOp _ (.sendC 0x0C#8)

theorem tasksLead_moveCursorTo_zero (a : Settings) :
    TasksLead a [.call (.moveCursorTo 0 0)] [.sendC 0x80#8] (a.after (.sendC 0x80#8)) := by
  refine tasksLead_call wellFormed_moveCursorTo_zero (fun _ hs => hs) fun s _ => ?_
  rw [← cursorByte_zero s.rows]
  exact tasksLead_issueOp a _

theorem tasksLead_clear (a : Settings) : TasksLead a [.call .clear] [.sendC 0x01#8, .sendC 0x80#8]
    ((a.after (.sendC 0x01#8)).after (.sendC 0x80#8)) :=
  tasksLead_call (fun _ => rfl) (fun _ hs => hs) fun _ _ =>
    (tasksLead_issueOp a _).append (tasksLead_moveCursorTo_zero _)

/-- The settings `enable` ends in (R173): the last frame is that of the low nibble of `0x80`. -/
def Settings.enabled (a : Settings) : Settings :=
  { a with
    lifecycle := .initialized
    bl := true
    dc := ⟨true, false, false⟩
    em := ⟨true, false⟩
    p := frame a.params.layout 0x0#4 .command true }

section Enable

variable {a : Settings} (hem : a.em.autoShift = false) (hcursor : a.dc.cursor = false) (hblink : a.dc.blink = false)
include hem hcursor hblink

/-- The defaults of `enable`: the tag, then four operations of the driver (R112). -/
theorem tasksLead_defaults :
    TasksLead a [.markInitialized, .call .leftToRight, .call .backlightOn, .call .renderingOn, .call .clear]
      [.sendC 0x06#8, .setbl true, .sendC a.params.blRefresh.whenOn, .sendC 0x0C#8, .sendC 0x01#8, .sendC 0x80#8]
      a.enabled :=
  tasksLead_markInitialized a
    |>.append (tasksLead_leftToRight hem) |>.append (tasksLead_backlightOn _)
    |>.append (tasksLead_renderingOn hcursor hblink) |>.append (tasksLead_clear _)

/-- The traffic before the defaults leaves its last frame in `P` and nothing else of the settings changed. -/
theorem tasksLead_enable :
    TasksLead a [.call .enable] (enableOps a.params a.rows a.cell) a.enabled := by
  refine tasksLead_call (fun _ => rfl) (fun _ hs => hs) fun s hs => ?_
  subst hs
  exact tasksLead_issueOp _ (.wait _)
    |>.append (tasksLead_issueOp _ (.nib _)) |>.append (tasksLead_gapTasks _ _)
    |>.append (tasksLead_issueOp _ (.nib _)) |>.append (tasksLead_gapTasks _ _)
    |>.append (tasksLead_issueOp _ (.nib _)) |>.append (tasksLead_gapTasks _ _)
    |>.append (tasksLead_issueOp _ (.nib _)) |>.append (tasksLead_gapTasks _ _)
    |>.append (tasksLead_issueOp _ (.sendC _)) |>.append (tasksLead_gapTasks _ _)
    |>.append (tasksLead_defaults hem hcursor hblink)

end Enable

theorem writesOf_gapOps (g : Option WaitCount) : writesOf (gapOps g) = 0 := by cases g <;> rfl

/-- `enable` makes 32 bus writes, whatever the gaps. -/
theorem writesOf_enableOps (p : Params) (rows : RowCount) (cell : CellSize) :
    writesOf (enableOps p rows cell) = 32 := by
  simp only [enableOps, writesOf_append, writesOf_gapOps]
  rfl

/-- Settles O49: the accumulators are those of reset, `enable` leads from them to its settings, and the call returns. -/
theorem enableEndsInTheDefaultConfiguration : Obligations.EnableEndsInTheDefaultConfiguration := by
  intro s rest hwf hc hl hr
  obtain ⟨hdc, hem⟩ := hwf.accumulators hl hc.2.2.1
  have leads : TasksLead (settingsOf s) [.call .enable] (enableOps s.params s.rows s.cell) (settingsOf s).enabled :=
    tasksLead_enable (congrArg EntryMode.autoShift hem) (congrArg DisplayControl.cursor hdc)
      (congrArg DisplayControl.blink hdc)
  rw [← writesOf_enableOps s.params s.rows s.cell] at hr
  obtain ⟨t, run, hprog, hset⟩ := leads (takenUp .enable rest s) [] hc.1 rfl rfl hr
  obtain ⟨evs, htrace, hcount⟩ := run.trace
  have hi := ((issues_takenUp hc (by rw [hl]; rfl)).trans run.issues).trans
    (issues_finishCall run.phase hprog run.current)
  rw [List.nil_append, List.append_nil] at hi
  exact ⟨finishCall (.op .enable) t, evs, hi, congrArg Settings.lifecycle hset, congrArg Settings.bl hset,
    congrArg Settings.dc hset, congrArg Settings.em hset, run.phase, congrArg Settings.p hset,
    by rw [finishCall_results, run.results]; rfl, htrace, hcount.trans (writesOf_enableOps ..), run.calls, rfl, hprog⟩

end Sys2Proof.Machine
